-- ==== Sys2Proof/Word.lean ====
section
/-! DEFINITION. The fixed-width words of the engine (00_scope.md R11): bit 0 is the least significant bit; the signed
types are the two's-complement readings (`BitVec.toInt`) of the same words. -/

namespace Sys2Proof

/-- `u8`. -/
abbrev Byte := BitVec 8

/-- `u16`: the pulse counter (`CNT_W` = 16) and the two-byte report fields. -/
abbrev U16 := BitVec 16

/-- `u32`: timestamps and the millisecond tick (`TS_W` = 32). -/
abbrev U32 := BitVec 32

/-- `i32`, read with `toInt`: the accumulator and the pulse buffer (`ACC_W`, `BUF_W` = 32). -/
abbrev I32 := BitVec 32

/-- `i8`, read with `toInt`: the speed code (10_state.md R41). -/
abbrev I8 := BitVec 8

/-- An inbound chunk as the 56-bit number `{c[6], …, c[0]}` (30_encoding.md R73). -/
abbrev Chunk := BitVec 56

/-- The word in which one operation is issued: its code in the lowest digit, its operands above (notes/assumptions/4.md). -/
abbrev IssueWord := BitVec 64

end Sys2Proof
end

