-- ==== Sys2Proof/Config.lean ====
section
/-! DEFINITION. The configuration record (00_scope.md R8, R9; 10_state.md R49; 70_reset_and_hazards.md R225): fixed before
reset, constant afterwards. Defaults are R8's table; a field without a default is an `OPEN` parameter. Sizes that shape
the state (`PPD`, `CHUNK_LEN`, `SCRATCH_LEN`, …) are constants (notes/assumptions/14.md). -/

namespace Sys2Proof

/-- `PPD`, pulses per detent (R8). -/
abbrev ppd : Nat := 4

/-- `CHUNK_LEN` (R8). -/
abbrev chunkLen : Nat := 7

/-- `SCRATCH_LEN` (R8). -/
abbrev scratchLen : Nat := 42

/-- `MAGIC`, byte 0 = 0xFE and byte 1 = 0xFD (R8, 20_memory.md R54). -/
abbrev magic : U16 := 0xFDFE#16

/-- `WHEEL_MAX` (R8). -/
abbrev wheelMax : Int := 127

/-- The tunable windows of R9, in milliseconds, with R8's defaults. -/
structure Timing where
  scanInterval : Nat := 20
  debounce : Nat := 15
  repeatDelay : Nat := 400
  repeatInterval : Nat := 180
  rotPoll : Nat := 50
  rotSettle : Nat := 100
  keepalive : Nat := 500
  minIvFast : Nat := 10
  minIvMid : Nat := 15
  minIvSlow : Nat := 20
  txFloor : Nat := 5
  deriving DecidableEq, Repr

/-- `SPEED_BP` (R8): the first point whose bound is at least the magnitude gives the code, else `other`. -/
structure SpeedTable where
  points : List (Nat × Nat) := [(2, 1), (3, 2), (5, 3), (8, 6), (10, 10), (15, 20), (20, 30)]
  other : Nat := 50
  deriving DecidableEq, Repr

/-- The offset table of the inbound report (30_encoding.md R74), a configuration field by 93_implementation_defined.md U9.
An offset is a byte of `SCR`, so it exists whatever the table says (notes/assumptions/15.md). -/
structure Layout where
  axisInteger : Vector (Fin scratchLen) 6 := #v[2, 6, 10, 14, 18, 22]
  axisFraction : Vector (Fin scratchLen) 6 := #v[4, 8, 12, 16, 20, 24]
  feedRate : Fin scratchLen := 26
  feedOverride : Fin scratchLen := 28
  spindleSpeed : Fin scratchLen := 30
  spindleOverride : Fin scratchLen := 32
  stepMultiplier : Fin scratchLen := 34
  machineState : Fin scratchLen := 35
  dayKey : Fin scratchLen := 36
  deriving DecidableEq, Repr

/-- `RX_CONTEXT` (R8, 20_memory.md R60): the context that runs `RX.CHUNK`. -/
inductive RxContext where
  | main
  | third
  deriving DecidableEq, Repr

/-- The configuration record. -/
structure Config where
  timing : Timing := {}
  speed : SpeedTable := {}
  /-- `IV_THR_FAST`. -/
  ivThrFast : Nat := 10
  /-- `IV_THR_MID`. -/
  ivThrMid : Nat := 5
  /-- `REPORT_LEN` (93_implementation_defined.md U3). -/
  reportLen : Nat := 37
  /-- Whether the unnamed seventh outbound byte is present: `OUT_LEN` is 7 with it and 6 without (U8, 90_conflicts.md C1). -/
  outPad : Bool := true
  layout : Layout := {}
  /-- `KM_ACTIVE_LOW`. -/
  keyActiveLow : Bool := true
  /-- `KEYCODE[r][c]` at index 4r + c, `OPEN`. -/
  keycode : Vector Byte 16
  /-- The codes for which `REPEAT_EN` is true, `OPEN`. -/
  repeatCodes : List Byte
  /-- `MODE_CODE[0..5]`, `OPEN`. -/
  modeCode : Vector Byte 6
  /-- `MODE_OFF`, `OPEN`. -/
  modeOff : Byte
  /-- `REPORT_ID`, `OPEN`. -/
  reportId : Byte
  /-- `RX_CONTEXT`, `OPEN`. -/
  rxContext : RxContext
  deriving DecidableEq, Repr

/-- The example configuration `CFG0` (R10): every default, and example values for the `OPEN` parameters. They are not the
device's (93_implementation_defined.md G1). -/
def Config.cfg0 : Config where
  keycode := #v[0x01, 0x02, 0x03, 0x04, 0x05, 0x06, 0x07, 0x08, 0x09, 0x0A, 0x0B, 0x0C, 0x0D, 0x0E, 0x0F, 0x10]
  repeatCodes := [0x0D]
  modeCode := #v[0x11, 0x12, 0x13, 0x14, 0x15, 0x18]
  modeOff := 0x00
  reportId := 0x04
  rxContext := .main

end Sys2Proof
end

