-- ==== Sys2Proof/Syntax.lean ====
section
/-! DEFINITION. The operations of the engine: one constructor for each row of spec/opcode_table.json, with the operands
30_encoding.md R71 lists for it (R16: an operation's operands are supplied by the environment at that instant). -/

namespace Sys2Proof

/-- The three formats of 30_encoding.md R70. -/
inductive Format where
  /-- The 4-bit operation-select code an agent issues (R71). -/
  | op4
  /-- The 2-bit contents of `SCH.phase` (R72). -/
  | phase2
  /-- The 56 bits of an inbound chunk (R73). -/
  | chunk56
  deriving DecidableEq, Repr

/-- The operations. `keys` is the 16-bit key mask `K` (R86), `rotN` the six active-low rotary lines (R21), `tr` the
transport's two-bit answer (R85). -/
inductive Instr where
  -- format OP4 (R71)
  | nop
  | qsTick (cnt : U16)
  | accAdd (d : I32)
  | accTake
  | accFlush
  | kmScan (now : U32) (keys : BitVec 16)
  | rmRead (now : U32) (rotN : BitVec 6)
  | rxChunk (c : Chunk)
  | schStep (now : U32) (keys : BitVec 16) (rotN : BitVec 6) (tr : BitVec 2)
  | txSend (now : U32) (tr : BitVec 2)
  | reservedA
  | reservedB
  | reservedC
  | reservedD
  | reservedE
  | reservedF
  -- format PHASE2 (R72): the bodies of SCH.STEP
  | phEncoder
  | phButtons (now : U32) (keys : BitVec 16)
  | phRotary (now : U32) (rotN : BitVec 6)
  | phUsbSend (now : U32) (tr : BitVec 2)
  -- format CHUNK56 (R73): `tail` is `{c[6], …, c[2]}`
  | rxcSync (tail : BitVec 40)
  | rxcData (c : Chunk)
  deriving DecidableEq, Repr

end Sys2Proof
end

