-- ==== Sys2Proof/WellFormed.lean ====
section
/-! DEFINITION. Well-formed operations and the constraints the spec puts on a configuration. Operand widths are in the
types, so the one thing an operation can get wrong is to be a data chunk that carries the marker (30_encoding.md R73). -/

namespace Sys2Proof

/-- Bytes 0 and 1 of a chunk as the little-endian u16 at offset 0 (20_memory.md R55). -/
def Chunk.head16 (c : Chunk) : U16 := c.extractLsb' 0 16

/-- `RXC.DATA` is every chunk whose low 16 bits differ from `MAGIC` (R73); the other operations are well formed as they
stand. -/
def Instr.wf (i : Instr) : Bool :=
  match i with
  | .nop => true
  | .qsTick _ => true
  | .accAdd _ => true
  | .accTake => true
  | .accFlush => true
  | .kmScan _ _ => true
  | .rmRead _ _ => true
  | .rxChunk _ => true
  | .schStep _ _ _ _ => true
  | .txSend _ _ => true
  | .reservedA => true
  | .reservedB => true
  | .reservedC => true
  | .reservedD => true
  | .reservedE => true
  | .reservedF => true
  | .phEncoder => true
  | .phButtons _ _ => true
  | .phRotary _ _ => true
  | .phUsbSend _ _ => true
  | .rxcSync _ => true
  | .rxcData c => decide (Chunk.head16 c ≠ magic)

/-- The sixteen key codes are distinct and non-zero (30_encoding.md R83). -/
def Config.keysOk (c : Config) : Bool := decide (c.keycode.toList.Nodup ∧ 0#8 ∉ c.keycode.toList)

/-- The six mode codes and the off code are seven distinct values (30_encoding.md R82). -/
def Config.modesOk (c : Config) : Bool := decide ((c.modeOff :: c.modeCode.toList).Nodup)

/-- `CHUNK_LEN <= REPORT_LEN <= SCRATCH_LEN` (43_reassembler.md R160). -/
def Config.reportLenOk (c : Config) : Bool := decide (chunkLen ≤ c.reportLen ∧ c.reportLen ≤ scratchLen)

/-- Every field of the offset table lies inside the report (30_encoding.md R74). -/
def Config.layoutOk (c : Config) : Bool :=
  (c.layout.axisInteger.toList ++ c.layout.axisFraction.toList ++
      [c.layout.feedRate, c.layout.feedOverride, c.layout.spindleSpeed, c.layout.spindleOverride]).all
    (fun o => decide (o.val + 2 ≤ c.reportLen)) &&
  [c.layout.stepMultiplier, c.layout.machineState, c.layout.dayKey].all (fun o => decide (o.val + 1 ≤ c.reportLen))

/-- The constraints of 70_reset_and_hazards.md R225; the engine does not check them. -/
def Config.wf (c : Config) : Bool := c.keysOk && c.modesOk && c.reportLenOk && c.layoutOk

end Sys2Proof
end

