-- ==== Sys2Proof/Decode.lean ====
section
/-! DEFINITION. From words to operations and back (30_encoding.md R70 to R73, R89). The operation code or the phase is the
lowest digit; the operands follow it upwards in the order of R71's table, each at the digit width of
95_test_vectors.md part 3 (notes/assumptions/4.md). Bits outside those fields must be 0. -/

namespace Sys2Proof

/-- Why a word is no operation. -/
inductive DecodeError where
  /-- A bit outside the fields of the format is set. -/
  | strayBits (f : Format)
  deriving DecidableEq, Repr

/-- `i` if the bits of `w` that belong to no field are 0; they are given as ranges (lowest bit, length). -/
def within (f : Format) (unused : List (Nat × Nat)) (w : IssueWord) (i : Instr) : Except DecodeError Instr :=
  if unused.all (fun u => decide (w.extractLsb' u.1 u.2 = 0#u.2)) then .ok i else .error (.strayBits f)

/-- Operand fields, by position above the code digit: `cnt`, `d`, `now` and a chunk stand at bit 4. -/
def fieldCnt (w : IssueWord) : U16 := w.extractLsb' 4 16
def fieldWord (w : IssueWord) : U32 := w.extractLsb' 4 32
def fieldChunk (w : IssueWord) : Chunk := w.extractLsb' 4 56
/-- `K`, after `now`. -/
def fieldKeys (w : IssueWord) : BitVec 16 := w.extractLsb' 36 16
/-- `rot_n` directly after `now` (`RM.READ`, `PH.ROTARY`). -/
def fieldRot (w : IssueWord) : BitVec 6 := w.extractLsb' 36 6
/-- `tr` directly after `now` (`TX.SEND`, `PH.USB_SEND`). -/
def fieldTr (w : IssueWord) : BitVec 2 := w.extractLsb' 36 2
/-- `rot_n` and `tr` of `SCH.STEP`, after `now` and `K`. -/
def fieldStepRot (w : IssueWord) : BitVec 6 := w.extractLsb' 52 6
def fieldStepTr (w : IssueWord) : BitVec 2 := w.extractLsb' 60 2

/-- Format `OP4` (R71). The codes 0xA to 0xF decode to the reserved operations (R89). -/
def decodeOp4 (w : IssueWord) : Except DecodeError Instr :=
  match (w.extractLsb' 0 4).toNat with
  | 0x0 => within .op4 [(4, 60)] w .nop
  | 0x1 => within .op4 [(20, 44)] w (.qsTick (fieldCnt w))
  | 0x2 => within .op4 [(36, 28)] w (.accAdd (fieldWord w))
  | 0x3 => within .op4 [(4, 60)] w .accTake
  | 0x4 => within .op4 [(4, 60)] w .accFlush
  | 0x5 => within .op4 [(52, 12)] w (.kmScan (fieldWord w) (fieldKeys w))
  | 0x6 => within .op4 [(42, 22)] w (.rmRead (fieldWord w) (fieldRot w))
  | 0x7 => within .op4 [(60, 4)] w (.rxChunk (fieldChunk w))
  | 0x8 => within .op4 [(58, 2), (62, 2)] w (.schStep (fieldWord w) (fieldKeys w) (fieldStepRot w) (fieldStepTr w))
  | 0x9 => within .op4 [(38, 26)] w (.txSend (fieldWord w) (fieldTr w))
  | 0xA => within .op4 [(4, 60)] w .reservedA
  | 0xB => within .op4 [(4, 60)] w .reservedB
  | 0xC => within .op4 [(4, 60)] w .reservedC
  | 0xD => within .op4 [(4, 60)] w .reservedD
  | 0xE => within .op4 [(4, 60)] w .reservedE
  | _ => within .op4 [(4, 60)] w .reservedF

/-- The body that a value of `SCH.phase` selects (R72), with the operands `SCH.STEP` was given (R165). All four values are
legal. -/
def phaseInstr (phase : BitVec 2) (now : U32) (keys : BitVec 16) (rotN : BitVec 6) (tr : BitVec 2) : Instr :=
  match phase.toNat with
  | 0 => .phEncoder
  | 1 => .phButtons now keys
  | 2 => .phRotary now rotN
  | _ => .phUsbSend now tr

/-- Format `PHASE2` (R72) with the operands of the selected body. -/
def decodePhase2 (w : IssueWord) : Except DecodeError Instr :=
  match (w.extractLsb' 0 2).toNat with
  | 0 => within .phase2 [(2, 62)] w .phEncoder
  | 1 => within .phase2 [(2, 2), (52, 12)] w (.phButtons (fieldWord w) (fieldKeys w))
  | 2 => within .phase2 [(2, 2), (42, 22)] w (.phRotary (fieldWord w) (fieldRot w))
  | _ => within .phase2 [(2, 2), (38, 26)] w (.phUsbSend (fieldWord w) (fieldTr w))

/-- Format `CHUNK56` (R73): the marker chunk, else a data chunk; bytes 2 to 6 take no part. -/
def chunkInstr (c : Chunk) : Instr :=
  if Chunk.head16 c = magic then .rxcSync (c.extractLsb' 16 40) else .rxcData c

/-- Format `CHUNK56` as a word: the chunk in the low 56 bits. -/
def decodeChunk56 (w : IssueWord) : Except DecodeError Instr :=
  within .chunk56 [(56, 8)] w (chunkInstr (w.extractLsb' 0 56))

/-- The decoder: total on every word of every format. -/
def decode (f : Format) (w : IssueWord) : Except DecodeError Instr :=
  match f with
  | .op4 => decodeOp4 w
  | .phase2 => decodePhase2 w
  | .chunk56 => decodeChunk56 w

/-- A word from the fields it holds, the rest of its bits 0. -/
def wordOf {n : Nat} (fields : BitVec n) : IssueWord := fields.setWidth 64

/-- The encoder, written from the same tables: `{operands, code}` with the code lowest. -/
def encode (i : Instr) : Format × IssueWord :=
  match i with
  | .nop => (.op4, wordOf 0x0#4)
  | .qsTick cnt => (.op4, wordOf (cnt ++ 0x1#4))
  | .accAdd d => (.op4, wordOf (d ++ 0x2#4))
  | .accTake => (.op4, wordOf 0x3#4)
  | .accFlush => (.op4, wordOf 0x4#4)
  | .kmScan now keys => (.op4, wordOf (keys ++ now ++ 0x5#4))
  | .rmRead now rotN => (.op4, wordOf (rotN ++ now ++ 0x6#4))
  | .rxChunk c => (.op4, wordOf (c ++ 0x7#4))
  | .schStep now keys rotN tr => (.op4, wordOf (tr ++ 0#2 ++ rotN ++ keys ++ now ++ 0x8#4))
  | .txSend now tr => (.op4, wordOf (tr ++ now ++ 0x9#4))
  | .reservedA => (.op4, wordOf 0xA#4)
  | .reservedB => (.op4, wordOf 0xB#4)
  | .reservedC => (.op4, wordOf 0xC#4)
  | .reservedD => (.op4, wordOf 0xD#4)
  | .reservedE => (.op4, wordOf 0xE#4)
  | .reservedF => (.op4, wordOf 0xF#4)
  | .phEncoder => (.phase2, wordOf 0#2)
  | .phButtons now keys => (.phase2, wordOf (keys ++ now ++ 0#2 ++ 1#2))
  | .phRotary now rotN => (.phase2, wordOf (rotN ++ now ++ 0#2 ++ 2#2))
  | .phUsbSend now tr => (.phase2, wordOf (tr ++ now ++ 0#2 ++ 3#2))
  | .rxcSync tail => (.chunk56, wordOf (tail ++ magic))
  | .rxcData c => (.chunk56, wordOf c)

/-- The format of a row of spec/opcode_table.json by the bits the table gives it: `CHUNK56` has 56, `PHASE2` has 2, and
every other width is read as `OP4` (notes/assumptions/5.md). -/
def formatOfBits (nbits : Nat) : Format :=
  if nbits = 56 then .chunk56 else if nbits = 2 then .phase2 else .op4

/-- The operation the decoder reads from a table word; every bit above `nbits` is 0. -/
def decodeTableWord (nbits w : Nat) : Option Instr :=
  if w < 2 ^ 64 then
    match decode (formatOfBits nbits) (BitVec.ofNat 64 w) with
    | .ok i => some i
    | .error _ => none
  else none

end Sys2Proof
end

