-- ==== Sys2Proof/Machine/State.lean ====
section
/-! DEFINITION. The state of the engine as plain data: every register of 10_state.md R48, the three buffers of
20_memory.md R50, the configuration, and the model's own fields (the issuing context, the issued operations to come, the
outputs so far, the last result); the reasons a step can stop; reset. -/

namespace Sys2Proof.Machine

/-- The contexts that issue operations (60_exceptions.md R205, R211): the timer interrupt, the main context, and the third
context that runs the receive callback when `RX_CONTEXT = THIRD`. -/
inductive Context where
  | isr
  | main
  | third
  deriving DecidableEq, Repr

/-- The three buffers, each an address space of its own (20_memory.md R50). -/
inductive Space where
  | scr
  | shr
  | out
  deriving DecidableEq, Repr

/-- The contents of one buffer: bytes by offset, offsets strictly rising, no byte listed that is 0 (an unlisted byte reads
as 0, the reset contents of R52). -/
abbrev Memory := List Host.Cell

/-- The contents of the three buffers. -/
structure Buffers where
  scr : Memory := []
  shr : Memory := []
  out : Memory := []
  deriving DecidableEq, Repr

/-- A pair of key codes (00_scope.md R15); (0, 0) is the empty pair. -/
structure KeyPair where
  first : Byte := 0#8
  second : Byte := 0#8
  deriving DecidableEq, Repr

/-- QuadratureSampler (10_state.md R22 to R24). -/
structure Sampler where
  prev : U16
  res : I32 := 0#32
  dataReady : Bool := false
  deriving DecidableEq, Repr

/-- A hold slot (R29); `code = 0` is a free slot. -/
structure HoldSlot where
  code : Byte := 0#8
  pressedAt : U32 := 0#32
  nextRepeatAt : U32 := 0#32
  deriving DecidableEq, Repr

/-- ButtonMatrixScanner (R26 to R29). -/
structure KeyScanner where
  lastRaw : KeyPair := {}
  lastChange : U32 := 0#32
  stable : KeyPair := {}
  slot0 : HoldSlot := {}
  slot1 : HoldSlot := {}
  deriving DecidableEq, Repr

/-- RotaryModeReader (R30, R31). -/
structure Rotary where
  stable : Byte
  offPending : Bool := false
  offSince : U32 := 0#32
  deriving DecidableEq, Repr

/-- ReportReassembler (R32, R33). -/
structure Reassembler where
  offset : Nat := 0
  syncFound : Bool := false
  deriving DecidableEq, Repr

/-- What accompanies the shared report (20_memory.md R51). -/
structure SharedReport where
  valid : Bool := false
  dayKey : Byte := 0#8
  deriving DecidableEq, Repr

/-- MainScheduler (R36 to R42). -/
structure Scheduler where
  phase : BitVec 2 := 0#2
  flushPending : Bool := false
  lastScan : U32 := 0#32
  lastRot : U32 := 0#32
  lastSend : U32 := 0#32
  btn1 : Byte := 0#8
  btn2 : Byte := 0#8
  buttonChanged : Bool := false
  modeChanged : Bool := false
  wheel : I8 := 0#8
  sentBtn1 : Byte := 0#8
  sentBtn2 : Byte := 0#8
  sentMode : Byte
  sentWheel : I8 := 0#8
  deriving DecidableEq, Repr

/-- The labelled events of 60_exceptions.md R190, recorded by `raise` and read by nothing. -/
inductive Event where
  | rxNoSync
  | rxResync (offset : Nat)
  | rxOverflow (offset : Nat)
  | txBusy
  | txFailure
  | txFloor
  | kmExtraKey
  | rotMulti
  /-- E9: raised by nobody, since it cannot be detected. -/
  | qsAlias
  deriving DecidableEq, Repr

/-- What leaves the engine (10_state.md R47) or is recorded about it. -/
inductive Emission where
  /-- `row_drive`: row `row` is at its active level while it is examined (41_keymatrix.md R122). -/
  | rowDriven (row : Nat)
  /-- `tx_req` with `tx_report`, the bytes of `OUT` (44_scheduler.md R176). -/
  | txReq (report : List Byte)
  /-- `notify_status` (43_reassembler.md R155). -/
  | notifyStatus
  /-- `notify_mode` with its code (44_scheduler.md R168). -/
  | notifyMode (code : Byte)
  /-- `raise` of an event. -/
  | raised (e : Event)
  deriving DecidableEq, Repr

/-- The result of `TX.SEND` (44_scheduler.md R176). -/
inductive SendResult where
  | success
  | busy
  deriving DecidableEq, Repr

/-- The result of the last directly issued operation that has one (30_encoding.md R71, "results out"). -/
inductive Returned where
  | none
  | taken (v : I32)
  | scanned (b1 b2 : Byte)
  | modeRead (mode : Byte) (changed : Bool)
  | sent (res : SendResult)
  deriving DecidableEq, Repr

/-- One sample of the input ports (10_state.md R47). Bit `4r + c` of `colIn` is the level of `col_in[c]` while row `r` is
driven. -/
structure Ports where
  rst : Bool := false
  tick1ms : Bool := false
  schedStep : Bool := false
  rxValid : Bool := false
  cnt : U16 := 0#16
  colIn : BitVec 16 := 0xFFFF#16
  rotN : BitVec 6 := 0b111111#6
  msTick : U32 := 0#32
  rxChunk : Chunk := 0#56
  txResult : BitVec 2 := 0#2
  deriving DecidableEq, Repr

/-- What the environment does next: one context issues one operation (30_encoding.md R91), or the ports are sampled. -/
inductive Input where
  | issue (ctx : Context) (word : IssueWord)
  | ports (p : Ports)
  deriving DecidableEq, Repr

/-- Why a step stops with a fault. -/
inductive Fault where
  /-- An access at an offset a buffer does not have (20_memory.md R50). Raised by the buffer accesses of Machine/Ops.lean;
  no operation makes such an access (60_exceptions.md R195). Safe. -/
  | noSuchByte (space : Space) (offset : Nat)
  deriving DecidableEq, Repr

/-- Why an operation is refused. -/
inductive Refusal where
  /-- No meaning yet; raised only by an arm of exec. Safe. -/
  | notModelled (mnemonic : String)
  /-- A reserved operation code, 0xA to 0xF: "a model should refuse them" (30_encoding.md R89). Raised by the six reserved
  operations. Safe. -/
  | reservedOperation (code : BitVec 4)
  /-- The operation was issued by a context that may not issue it (R89; 60_exceptions.md R205). Raised by every operation
  but NOP. Safe. -/
  | wrongContext (ctx : Context)
  /-- The issued word is no operation (notes/assumptions/4.md). Raised by the step. Safe. -/
  | undecodable (e : DecodeError)
  deriving DecidableEq, Repr

/-- The engine. -/
structure State where
  /-- The configuration: never written (70_reset_and_hazards.md R225). -/
  cfg : Config
  /-- The model's own: the context issuing the current operation; `main` between operations (60_exceptions.md R200). -/
  ctx : Context := .main
  /-- The model's own: what the environment does next, oldest first. -/
  inputs : List Input := []
  qs : Sampler
  /-- `ACC.acc` (R25). -/
  acc : I32 := 0#32
  km : KeyScanner := {}
  rm : Rotary
  rx : Reassembler := {}
  shr : SharedReport := {}
  buf : Buffers := {}
  sch : Scheduler
  /-- `TX.last` (R44). -/
  txLast : U32 := 0#32
  /-- The model's own: the outputs so far, oldest first. -/
  log : List Emission := []
  /-- The model's own: the last result returned to an issuer. -/
  ret : Returned := .none
  deriving DecidableEq, Repr

/-- The state when reset is released with the pulse counter at `cnt` (R48; 20_memory.md R52; 70_reset_and_hazards.md R220,
R221). -/
def State.resetOf (cfg : Config) (cnt : U16) : State where
  cfg := cfg
  qs := { prev := cnt }
  rm := { stable := cfg.modeOff }
  sch := { sentMode := cfg.modeOff }

/-- Reset in the example configuration `CFG0` with the counter at 0 (notes/assumptions/1.md, 2.md). -/
def State.reset : State := State.resetOf Config.cfg0 0#16

/-! The updates, one per field; their field lemmas are in Sys2Proof/Laws/State.lean. -/

def State.withCtx (s : State) (v : Context) : State := { s with ctx := v }
def State.withInputs (s : State) (v : List Input) : State := { s with inputs := v }
def State.withQs (s : State) (v : Sampler) : State := { s with qs := v }
def State.withAcc (s : State) (v : I32) : State := { s with acc := v }
def State.withKm (s : State) (v : KeyScanner) : State := { s with km := v }
def State.withRm (s : State) (v : Rotary) : State := { s with rm := v }
def State.withRx (s : State) (v : Reassembler) : State := { s with rx := v }
def State.withShr (s : State) (v : SharedReport) : State := { s with shr := v }
def State.withBuf (s : State) (v : Buffers) : State := { s with buf := v }
def State.withSch (s : State) (v : Scheduler) : State := { s with sch := v }
def State.withTxLast (s : State) (v : U32) : State := { s with txLast := v }
def State.withLog (s : State) (v : List Emission) : State := { s with log := v }
def State.withRet (s : State) (v : Returned) : State := { s with ret := v }

end Sys2Proof.Machine
end

