-- ==== Sys2Proof/Machine/Ops.lean ====
section
/-! DEFINITION. The shared operations: time and integer helpers (00_scope.md R12 to R14), the buffers (20_memory.md),
outputs, who may issue what (60_exceptions.md R205), entering and leaving a context (R199, R200), and reset. -/

namespace Sys2Proof

namespace Machine

/-- The outcome of a part of an operation. -/
abbrev Result (α : Type) := Host.Outcome α Fault Refusal

/-- Go on with what `x` gives; stop where it stops. -/
def chain {α β : Type} (x : Result α) (f : α → Result β) : Result β :=
  match x with
  | .next a => f a
  | .fault r => .fault r
  | .refused r => .refused r

/-! ## Integers and time -/

/-- `sext_N(v)` (R12). -/
def sext (n : Nat) (v : Int) : Int := (BitVec.ofInt n v).toInt

/-- `zext_N(v)` (R12). -/
def zext (n : Nat) (v : Int) : Nat := (BitVec.ofInt n v).toNat

/-- `tdiv(a, b)`: rounds toward zero (R14, decision D6). -/
def tdiv (a b : Int) : Int := a.tdiv b

/-- `trem(a, b) = a - b * tdiv(a, b)` (R14). -/
def trem (a b : Int) : Int := a - b * tdiv a b

/-- `mag32(v)` (R14): the magnitude of an i32, 2^31 for the most negative one. -/
def mag32 (v : I32) : Nat := v.toInt.natAbs

/-- `clamp(v, lo, hi)` (R14). -/
def clamp (v lo hi : Int) : Int := if v < lo then lo else if hi < v then hi else v

/-- `elapsed(now, t) = zext_32(now - t)` (R13). -/
def elapsed (now t : U32) : Nat := (now - t).toNat

/-- `due(now, t)`: at or after the deadline `t` (R13). -/
def due (now t : U32) : Bool := decide (0 ≤ (now - t).toInt)

/-- The timestamp `w` ms after `now`, modulo 2^32 (41_keymatrix.md R125, R127). -/
def after (now : U32) (w : Nat) : U32 := now + BitVec.ofNat 32 w

/-! ## Configuration values -/

end Machine

/-- `OUT_LEN`: 7 with the unnamed byte and 6 without (00_scope.md R8, 93_implementation_defined.md U8). -/
def Config.outLen (c : Config) : Nat := if c.outPad then 7 else 6

/-- `REPEAT_EN(code)` (00_scope.md R8). -/
def Config.repeatEn (c : Config) (code : Byte) : Bool := c.repeatCodes.contains code

namespace Machine

/-! ## Buffers -/

/-- One byte; an unlisted byte reads as 0 (R52). -/
def Memory.get (m : Memory) (a : Nat) : Byte :=
  match m with
  | [] => 0#8
  | (b, v) :: rest => if b = a then v else Memory.get rest a

/-- Store one byte, keeping the canonical form: storing 0 removes the entry. -/
def Memory.set (m : Memory) (a : Nat) (v : Byte) : Memory :=
  match m with
  | [] => if v = 0#8 then [] else [(a, v)]
  | (b, w) :: rest =>
    if a < b then (if v = 0#8 then (b, w) :: rest else (a, v) :: (b, w) :: rest)
    else if a = b then (if v = 0#8 then rest else (a, v) :: rest)
    else (b, w) :: Memory.set rest a v

/-- Store bytes at consecutive offsets. -/
def Memory.setBytes (m : Memory) (a : Nat) (bs : List Byte) : Memory :=
  match bs with
  | [] => m
  | v :: rest => Memory.setBytes (m.set a v) (a + 1) rest

/-- The bytes at offsets `a .. a+n-1`. -/
def Memory.getBytes (m : Memory) (a n : Nat) : List Byte :=
  match n with
  | 0 => []
  | n + 1 => m.get a :: Memory.getBytes m (a + 1) n

/-- The canonical form, from offset `lo` on: offsets strictly rising and no byte listed that is 0. -/
def Memory.wfFrom (lo : Nat) (m : Memory) : Bool :=
  match m with
  | [] => true
  | (a, v) :: rest => decide (lo ≤ a) && decide (v ≠ 0#8) && Memory.wfFrom (a + 1) rest

/-- The canonical form. -/
def Memory.wf (m : Memory) : Bool := Memory.wfFrom 0 m

/-- No byte is listed at or above offset `n`. -/
def Memory.below (n : Nat) (m : Memory) : Bool := m.all fun c => decide (c.1 < n)

/-- How many bytes a buffer has (R50). -/
def Space.size (cfg : Config) (sp : Space) : Nat :=
  match sp with
  | .scr => scratchLen
  | .shr => cfg.reportLen
  | .out => cfg.outLen

/-- The contents of one buffer. -/
def Buffers.get (b : Buffers) (sp : Space) : Memory :=
  match sp with
  | .scr => b.scr
  | .shr => b.shr
  | .out => b.out

/-- Replace the contents of one buffer. -/
def Buffers.set (b : Buffers) (sp : Space) (m : Memory) : Buffers :=
  match sp with
  | .scr => { b with scr := m }
  | .shr => { b with shr := m }
  | .out => { b with out := m }

/-- The byte of buffer `sp` at offset `a`. -/
def State.byteAt (s : State) (sp : Space) (a : Nat) : Byte := (s.buf.get sp).get a

/-- Read `n` bytes from offset `a`; an offset the buffer does not have is a fault (notes/assumptions/11.md). -/
def readBytes (sp : Space) (a n : Nat) (s : State) : Result (List Byte) :=
  if a + n ≤ sp.size s.cfg then .next ((s.buf.get sp).getBytes a n) else .fault (.noSuchByte sp (max a (sp.size s.cfg)))

/-- Store bytes from offset `a` on; an offset the buffer does not have is a fault and nothing is stored. -/
def writeBytes (sp : Space) (a : Nat) (bs : List Byte) (s : State) : Result State :=
  if a + bs.length ≤ sp.size s.cfg then .next (s.withBuf (s.buf.set sp ((s.buf.get sp).setBytes a bs)))
  else .fault (.noSuchByte sp (max a (sp.size s.cfg)))

/-- The unsigned little-endian number that bytes spell (R12, 20_memory.md R54). -/
def leNumber (bs : List Byte) : Nat :=
  match bs with
  | [] => 0
  | b :: rest => b.toNat + 256 * leNumber rest

/-- The low `8n` bits of `v` as bytes, least significant first. -/
def leBytes (n v : Nat) : List Byte :=
  match n with
  | 0 => []
  | n + 1 => BitVec.ofNat 8 v :: leBytes n (v / 256)

/-- `MemRead(S, a, n)` (R12). -/
def memRead (sp : Space) (a n : Nat) (s : State) : Result Nat := chain (readBytes sp a n s) fun bs => .next (leNumber bs)

/-- `MemWrite(S, a, n, v)` (R12). -/
def memWrite (sp : Space) (a n v : Nat) (s : State) : Result State := writeBytes sp a (leBytes n v) s

/-! ## Outputs -/

/-- Put outputs on the log, oldest first. -/
def emits (es : List Emission) (s : State) : State := s.withLog (s.log ++ es)

/-- `pulse SIGNAL(v)` (R12). -/
def emit (e : Emission) (s : State) : State := emits [e] s

/-- `raise Event(info)` (R12, 60_exceptions.md R190): recorded, with no other effect. -/
def raise (e : Event) (s : State) : State := emit (.raised e) s

/-! ## Contexts -/

/-- The context that `RX_CONTEXT` names (20_memory.md R60). -/
def rxContextOf (cfg : Config) : Context :=
  match cfg.rxContext with
  | .main => .main
  | .third => .third

/-- Which contexts may issue an operation (60_exceptions.md R205). The phase bodies belong to `MAIN` and the two kinds of
chunk to `RX`, as the operations that run them do. -/
def mayIssue (cfg : Config) (c : Context) (i : Instr) : Bool :=
  match i with
  | .nop => true
  | .qsTick _ => decide (c = .isr)
  | .accAdd _ => decide (c = .isr)
  | .accTake => decide (c = .main)
  | .accFlush => decide (c = .main)
  | .kmScan _ _ => decide (c = .main)
  | .rmRead _ _ => decide (c = .main)
  | .rxChunk _ => decide (c = rxContextOf cfg)
  | .schStep _ _ _ _ => decide (c = .main)
  | .txSend _ _ => decide (c = .main)
  | .reservedA => false
  | .reservedB => false
  | .reservedC => false
  | .reservedD => false
  | .reservedE => false
  | .reservedF => false
  | .phEncoder => decide (c = .main)
  | .phButtons _ _ => decide (c = .main)
  | .phRotary _ _ => decide (c = .main)
  | .phUsbSend _ _ => decide (c = .main)
  | .rxcSync _ => decide (c = rxContextOf cfg)
  | .rxcData _ => decide (c = rxContextOf cfg)

/-- Run `k` if the current context may issue `i`; otherwise refuse (30_encoding.md R89). -/
def issued (i : Instr) (s : State) (k : Result State) : Result State :=
  if mayIssue s.cfg s.ctx i then k else .refused (.wrongContext s.ctx)

/-- Entering a context by its event (60_exceptions.md R199, R205): nothing of the engine's state is saved or changed. -/
def enterContext (c : Context) (s : State) : State := s.withCtx c

/-- The operation's end (R200): the main context resumes where it was, and nothing is restored. -/
def leaveContext (s : State) : State := s.withCtx .main

/-! ## Reset -/

/-- Reset during a run (70_reset_and_hazards.md R220): every register and buffer at its reset value, `QS.prev` sampled from
`cnt`. The operations still to come and the record of outputs belong to the environment and stay. -/
def applyReset (cnt : U16) (s : State) : State :=
  ((State.resetOf s.cfg cnt).withInputs s.inputs).withLog s.log

end Machine

end Sys2Proof
end

