-- ==== Sys2Proof/Machine/Operands.lean ====
section
/-! DEFINITION. Operand forms: how each operand and each decoded value is formed from raw bits (30_encoding.md R81, R85 to
R87; 41_keymatrix.md R121, R122; 42_rotary.md R140; 44_scheduler.md R170, R171). -/

namespace Sys2Proof.Machine

/-- The pulse delta: `sext_16(cnt - QS.prev)` (40_quadrature.md R101). -/
def sampleDelta (prev cnt : U16) : Int := (cnt - prev).toInt

/-! ## Keys -/

/-- `K[r][c]`, bit `4r + c` of the mask (R86). -/
def keyDown (keys : BitVec 16) (r c : Nat) : Bool := keys.getLsbD (4 * r + c)

/-- The mask from the column levels sampled while each row is driven, by `KM_ACTIVE_LOW` (R86). -/
def keysOfPins (cfg : Config) (colIn : BitVec 16) : BitVec 16 := if cfg.keyActiveLow then ~~~colIn else colIn

/-- The crossings in scan order: rows 0 to 3, columns 0 to 3 in each (R121), as indices `4r + c`. -/
def scanOrder : List (Fin 16) := [0, 1, 2, 3, 4, 5, 6, 7, 8, 9, 10, 11, 12, 13, 14, 15]

/-- The pressed crossings in scan order. -/
def pressedKeys (keys : BitVec 16) : List (Fin 16) := scanOrder.filter fun k => keyDown keys (k.val / 4) (k.val % 4)

/-- `RAWSCAN(K)` (R121): the codes of the first two pressed crossings in scan order, at which the scan stops. -/
def rawScan (cfg : Config) (keys : BitVec 16) : KeyPair :=
  match pressedKeys keys with
  | [] => { first := 0#8, second := 0#8 }
  | [a] => { first := cfg.keycode[a], second := 0#8 }
  | a :: b :: _ => { first := cfg.keycode[a], second := cfg.keycode[b] }

/-- The rows driven by a scan (R122): a row is reached while fewer than two keys were found in the rows before it. -/
def rowsDriven (keys : BitVec 16) : List Nat :=
  [0, 1, 2, 3].filter fun r => decide (((pressedKeys keys).filter fun k => decide (k.val / 4 < r)).length < 2)

/-- Whether a pressed key is passed over: more than two bits of `K` are set (60_exceptions.md R190, E7). -/
def extraKey (keys : BitVec 16) : Bool := decide (2 < (pressedKeys keys).length)

/-- `c in (a, b)` (00_scope.md R15). -/
def KeyPair.has (p : KeyPair) (c : Byte) : Bool := decide (c ≠ 0#8 ∧ (c = p.first ∨ c = p.second))

/-! ## Rotary lines -/

/-- The lines in priority order. -/
def rotLines : List (Fin 6) := [0, 1, 2, 3, 4, 5]

/-- The selected (low) lines. -/
def lowLines (rotN : BitVec 6) : List (Fin 6) := rotLines.filter fun i => !rotN.getLsbD i.val

/-- `RM.DECODE(rot_n)` (R140): the lowest selected line's code, or `MODE_OFF` when all lines are high. -/
def rotDecode (cfg : Config) (rotN : BitVec 6) : Byte :=
  match lowLines rotN with
  | [] => cfg.modeOff
  | i :: _ => cfg.modeCode[i]

/-- Whether more than one line is low (60_exceptions.md R190, E8). -/
def rotMultiple (rotN : BitVec 6) : Bool := decide (1 < (lowLines rotN).length)

/-! ## Chunks -/

/-- Byte `i` of a chunk (R73). -/
def chunkByte (c : Chunk) (i : Nat) : Byte := c.extractLsb' (8 * i) 8

/-- The seven bytes of a chunk in offset order. -/
def chunkBytes (c : Chunk) : List Byte := [0, 1, 2, 3, 4, 5, 6].map (chunkByte c)

/-- A chunk begins with the marker: byte 0 is 0xFE and byte 1 is 0xFD (43_reassembler.md R150, R151). -/
def isMarker (c : Chunk) : Bool := decide (chunkByte c 0 = 0xFE#8 ∧ chunkByte c 1 = 0xFD#8)

/-- The marker chunk whose bytes 2 to 6 are `tail`. -/
def markerChunk (tail : BitVec 40) : Chunk := tail ++ magic

/-! ## Transport -/

/-- The transport's answer (44_scheduler.md R176). -/
inductive Answer where
  | success
  | busy
  | failure
  deriving DecidableEq, Repr

/-- `tx_result` (R85): 0 SUCCESS, 1 BUSY, 2 FAILURE, 3 as FAILURE. -/
def answerOf (tr : BitVec 2) : Answer :=
  match tr.toNat with
  | 0 => .success
  | 1 => .busy
  | _ => .failure

/-! ## Speed code and send interval -/

/-- The magnitude of the speed code for a magnitude `m`: the first breakpoint not below `m` (R81, R170). -/
def speedCode (t : List (Nat × Nat)) (other m : Nat) : Nat :=
  match t with
  | [] => other
  | (bound, code) :: rest => if m ≤ bound then code else speedCode rest other m

/-- `SPEEDMAP(v)` (R170): signed as `v` (+ for 0), clamped to [-127, 127]. -/
def speedMap (t : SpeedTable) (v : I32) : I8 :=
  let code : Int := speedCode t.points t.other (mag32 v)
  BitVec.ofInt 8 (clamp (if v.toInt < 0 then -code else code) (-wheelMax) wheelMax)

/-- `MIN_INTERVAL(v)` (R171), in ms. -/
def minInterval (cfg : Config) (v : I32) : Nat :=
  if cfg.ivThrFast < mag32 v then cfg.timing.minIvFast
  else if cfg.ivThrMid < mag32 v then cfg.timing.minIvMid
  else cfg.timing.minIvSlow

/-- The `wheel` byte of the outbound report: `zext_8(SCH.wheel)` (R87e). -/
def wheelByte (w : I8) : Byte := w

end Sys2Proof.Machine
end

