-- ==== Sys2Proof/Machine/Flags.lean ====
section
/-! DEFINITION. The one-bit state (10_state.md R46): each flag with the rule that sets or clears it. `RM.off_pending`,
`RX.sync_found` and `SHR.valid` are written where Machine/Rotary.lean and Machine/Reassembler.lean do their rules' work. -/

namespace Sys2Proof.Machine

/-- `QS.data_ready` set by a tick that added detents (40_quadrature.md R103). -/
def setDataReady (s : State) : State := s.withQs { s.qs with dataReady := true }

/-- `QS.data_ready` cleared by `ACC.TAKE` and `ACC.FLUSH` (R103). -/
def clearDataReady (s : State) : State := s.withQs { s.qs with dataReady := false }

/-- `SCH.button_changed` after a scan that returned (`b1`, `b2`): set if the pair differs from the last-sent pair, otherwise
as it was (44_scheduler.md R167, decision D31). -/
def buttonChangedBy (sch : Scheduler) (b1 b2 : Byte) : Bool :=
  if b1 ≠ sch.sentBtn1 ∨ b2 ≠ sch.sentBtn2 then true else sch.buttonChanged

/-- `SCH.mode_changed` and `SCH.flush_pending` set, and the pending wheel zeroed, on an accepted mode change (44_scheduler.md
R168, R169). -/
def markModeChange (sch : Scheduler) : Scheduler :=
  { sch with modeChanged := true, flushPending := true, wheel := 0#8 }

/-- `need_send` (R172, R174): motion, a button or a mode waits, or the keepalive is due. -/
def needSend (cfg : Config) (sch : Scheduler) (now : U32) : Bool :=
  decide (sch.wheel ≠ 0#8) || sch.buttonChanged || sch.modeChanged || decide (cfg.timing.keepalive ≤ elapsed now sch.lastSend)

/-- The scheduler's registers after an accepted send (R172): the snapshot, the time, and the flags cleared. -/
def noteSent (sch : Scheduler) (mode : Byte) (now : U32) : Scheduler :=
  { sch with
    sentBtn1 := sch.btn1, sentBtn2 := sch.btn2, sentMode := mode, sentWheel := sch.wheel, lastSend := now,
    buttonChanged := false, modeChanged := false, wheel := 0#8 }

end Sys2Proof.Machine
end

