-- ==== Sys2Proof/Machine/Keys.lean ====
section
/-! DEFINITION. Key-matrix scanner, debouncer and repeat timer: KM.SCAN (41_keymatrix.md R120). -/

namespace Sys2Proof.Machine

/-- Stage 2, debounce (R123): a changed raw pair restarts the window; an unchanged one is promoted once the window has
passed. -/
def debounce (cfg : Config) (now : U32) (raw : KeyPair) (km : KeyScanner) : KeyScanner :=
  if raw ≠ km.lastRaw then { km with lastRaw := raw, lastChange := now }
  else if cfg.timing.debounce ≤ elapsed now km.lastChange then { km with stable := raw }
  else km

/-- A slot whose code left the stable pair becomes free, all fields 0 (R126). -/
def HoldSlot.release (stable : KeyPair) (slot : HoldSlot) : HoldSlot :=
  if slot.code ≠ 0#8 ∧ ¬ stable.has slot.code then { code := 0#8, pressedAt := 0#32, nextRepeatAt := 0#32 } else slot

/-- Stage 3a: both slots. -/
def freeSlots (km : KeyScanner) : KeyScanner :=
  { km with slot0 := km.slot0.release km.stable, slot1 := km.slot1.release km.stable }

/-- A hold slot for a key pressed at `now` (R125). -/
def newSlot (cfg : Config) (now : U32) (c : Byte) : HoldSlot :=
  { code := c, pressedAt := now, nextRepeatAt := after now cfg.timing.repeatDelay }

/-- The lowest-numbered free slot is taken for `c`; with none free the key is not tracked (R125). -/
def takeSlot (cfg : Config) (now : U32) (c : Byte) (km : KeyScanner) : KeyScanner :=
  if km.slot0.code = 0#8 then { km with slot0 := newSlot cfg now c }
  else if km.slot1.code = 0#8 then { km with slot1 := newSlot cfg now c }
  else km

/-- Stage 3b for one code of the new stable pair (R124, R125): a PRESS if it was not in the old one. -/
def pressEdge (cfg : Config) (now : U32) (old : KeyPair) (c : Byte) (st : KeyScanner × List Byte) :
    KeyScanner × List Byte :=
  if c ≠ 0#8 ∧ ¬ old.has c then (if cfg.repeatEn c then takeSlot cfg now c st.1 else st.1, st.2 ++ [c]) else st

/-- Whether a slot emits a REPEAT when `n` events are already out (R127). -/
def repeatDue (now : U32) (slot : HoldSlot) (n : Nat) : Bool :=
  decide (slot.code ≠ 0#8) && due now slot.nextRepeatAt && decide (n < 2)

/-- A slot re-armed by its REPEAT (R127): counted from this scan. -/
def HoldSlot.rearm (cfg : Config) (now : U32) (slot : HoldSlot) : HoldSlot :=
  { slot with nextRepeatAt := after now cfg.timing.repeatInterval }

/-- Stage 3c for slot 0. -/
def repeatSlot0 (cfg : Config) (now : U32) (st : KeyScanner × List Byte) : KeyScanner × List Byte :=
  if repeatDue now st.1.slot0 st.2.length then
    ({ st.1 with slot0 := st.1.slot0.rearm cfg now }, st.2 ++ [st.1.slot0.code])
  else st

/-- Stage 3c for slot 1. -/
def repeatSlot1 (cfg : Config) (now : U32) (st : KeyScanner × List Byte) : KeyScanner × List Byte :=
  if repeatDue now st.1.slot1 st.2.length then
    ({ st.1 with slot1 := st.1.slot1.rearm cfg now }, st.2 ++ [st.1.slot1.code])
  else st

/-- Stages 2 and 3 (R120, R128): debounce, free slots, press edges in the order of the new pair, repeats in slot order. -/
def scanKeys (cfg : Config) (now : U32) (raw : KeyPair) (km : KeyScanner) : KeyScanner × List Byte :=
  let km1 := debounce cfg now raw km
  let st0 := (freeSlots km1, [])
  let st1 := pressEdge cfg now km.stable km1.stable.first st0
  let st2 := pressEdge cfg now km.stable km1.stable.second st1
  repeatSlot1 cfg now (repeatSlot0 cfg now st2)

/-- Stage 4 (R129): the events of this scan only. -/
def eventPair (ev : List Byte) : KeyPair := { first := ev.getD 0 0#8, second := ev.getD 1 0#8 }

/-- What a scan puts out beside its result: the rows driven (R122), and E7 for a key passed over (R190). -/
def scanEmissions (keys : BitVec 16) : List Emission :=
  (rowsDriven keys).map Emission.rowDriven ++ (if extraKey keys then [.raised .kmExtraKey] else [])

/-- `KM.SCAN now K` (R120): the state, and the pair of events. -/
def kmScan (now : U32) (keys : BitVec 16) (s : State) : State × KeyPair :=
  let r := scanKeys s.cfg now (rawScan s.cfg keys) s.km
  (emits (scanEmissions keys) (s.withKm r.1), eventPair r.2)

/-- KM.SCAN. -/
def execKmScan (now : U32) (keys : BitVec 16) (s : State) : Result State :=
  issued (.kmScan now keys) s
    (.next ((kmScan now keys s).1.withRet (.scanned (kmScan now keys s).2.first (kmScan now keys s).2.second)))

end Sys2Proof.Machine
end

