-- ==== Sys2Proof/Machine/Reassembler.lean ====
section
/-! DEFINITION. Inbound report reassembler: RX.CHUNK and the two kinds of chunk RXC.SYNC and RXC.DATA (43_reassembler.md
R150). -/

namespace Sys2Proof.Machine

/-- Step 4, completion (R154): `SHR`, `SHR.day_key` and `SHR.valid` replaced in one step, sync cleared, and one
`notify_status`. -/
def completeReport (s : State) : Result State :=
  chain (readBytes .scr 0 s.cfg.reportLen s) fun bs =>
  chain (writeBytes .shr 0 bs s) fun s1 =>
  .next (emit .notifyStatus
    ((s1.withShr { valid := true, dayKey := s.byteAt .scr s.cfg.layout.dayKey.val }).withRx
      { s1.rx with syncFound := false }))

/-- Step 4 after a store (R154): complete once the offset reaches the report's length. -/
def finishChunk (s : State) : Result State := if s.cfg.reportLen ≤ s.rx.offset then completeReport s else .next s

/-- Steps 3 and 4 (R152, R154): store the chunk unless it would pass the scratch buffer, then complete if the length is
reached. -/
def storeChunk (c : Chunk) (s : State) : Result State :=
  if scratchLen < s.rx.offset + chunkLen then
    .next (raise (.rxOverflow s.rx.offset) (s.withRx { s.rx with syncFound := false }))
  else
    chain (writeBytes .scr s.rx.offset (chunkBytes c) s) fun s1 =>
    finishChunk (s1.withRx { s1.rx with offset := s1.rx.offset + chunkLen })

/-- Step 1 for a marker chunk (R151), then steps 3 and 4: a partial report is discarded and the chunk starts a new one. -/
def syncChunk (c : Chunk) (s : State) : Result State :=
  let s1 := if s.rx.syncFound then raise (.rxResync s.rx.offset) s else s
  storeChunk c (s1.withRx { offset := 0, syncFound := true })

/-- Step 2 for a data chunk (R150): discarded whole while not synced, else steps 3 and 4. -/
def dataChunk (c : Chunk) (s : State) : Result State :=
  if s.rx.syncFound then storeChunk c s else .next (raise .rxNoSync s)

/-- `RX.CHUNK c` (R150): the marker test is on bytes 0 and 1, at every chunk. -/
def rxChunk (c : Chunk) (s : State) : Result State := if isMarker c then syncChunk c s else dataChunk c s

/-- RX.CHUNK. -/
def execRxChunk (c : Chunk) (s : State) : Result State := issued (.rxChunk c) s (rxChunk c s)

/-- RXC.SYNC: `RX.CHUNK` with the marker chunk whose bytes 2 to 6 are `tail`. -/
def execRxcSync (tail : BitVec 40) (s : State) : Result State := issued (.rxcSync tail) s (syncChunk (markerChunk tail) s)

/-- RXC.DATA: `RX.CHUNK` with a data chunk. -/
def execRxcData (c : Chunk) (s : State) : Result State := issued (.rxcData c) s (dataChunk c s)

end Sys2Proof.Machine
end

