-- ==== Sys2Proof/Machine/Rotary.lean ====
section
/-! DEFINITION. Rotary-switch hysteresis latch: RM.READ (42_rotary.md R141). -/

namespace Sys2Proof.Machine

/-- The latch after a read whose raw mode is `raw`, and whether the read accepted a mode change (R141 to R143): a position
at once, off only after it has lasted. -/
def latch (cfg : Config) (now : U32) (raw : Byte) (rm : Rotary) : Rotary × Bool :=
  if raw ≠ cfg.modeOff then
    if raw ≠ rm.stable then ({ rm with offPending := false, stable := raw }, true)
    else ({ rm with offPending := false }, false)
  else if rm.stable = cfg.modeOff then ({ rm with offPending := false }, false)
  else if rm.offPending = false then ({ rm with offPending := true, offSince := now }, false)
  else if cfg.timing.rotSettle ≤ elapsed now rm.offSince then
    ({ rm with stable := cfg.modeOff, offPending := false }, true)
  else (rm, false)

/-- `RM.READ now rot_n` (R141): the state, and whether a change was accepted; the mode returned is the new `RM.stable`. -/
def rmRead (now : U32) (rotN : BitVec 6) (s : State) : State × Bool :=
  let r := latch s.cfg now (rotDecode s.cfg rotN) s.rm
  (emits (if rotMultiple rotN then [.raised .rotMulti] else []) (s.withRm r.1), r.2)

/-- RM.READ. -/
def execRmRead (now : U32) (rotN : BitVec 6) (s : State) : Result State :=
  issued (.rmRead now rotN) s
    (.next ((rmRead now rotN s).1.withRet (.modeRead (rmRead now rotN s).1.rm.stable (rmRead now rotN s).2)))

end Sys2Proof.Machine
end

