-- ==== Sys2Proof/Machine/Sampler.lean ====
section
/-! DEFINITION. Quadrature sampler and detent accumulator: QS.TICK, ACC.ADD, ACC.TAKE, ACC.FLUSH (40_quadrature.md). -/

namespace Sys2Proof.Machine

/-- `ACC.ADD d` (R104): the sum wraps modulo 2^32. -/
def accAdd (d : I32) (s : State) : State := s.withAcc (s.acc + d)

/-- `ACC.TAKE` (R105): the value taken, and the state with the accumulator zeroed; the residue is not touched. -/
def accTake (s : State) : State × I32 := (clearDataReady (s.withAcc 0#32), s.acc)

/-- `ACC.FLUSH` (R106): accumulator and residue zeroed; `QS.prev` unchanged. -/
def accFlush (s : State) : State := clearDataReady ((s.withAcc 0#32).withQs { s.qs with res := 0#32 })

/-- The pulse buffer inside a tick: residue plus delta, as an i32 (R100; no overflow by R107, notes/assumptions/13.md). -/
def pulseBuffer (qs : Sampler) (cnt : U16) : Int := sext 32 (qs.res.toInt + sampleDelta qs.prev cnt)

/-- `QS.TICK cnt` (R100): the delta joins the residue, whole detents go to the accumulator, the remainder stays. -/
def qsTick (cnt : U16) (s : State) : State :=
  let buf := pulseBuffer s.qs cnt
  let detents := tdiv buf ppd
  let s1 := s.withQs { s.qs with prev := cnt, res := BitVec.ofInt 32 (buf - ppd * detents) }
  if detents ≠ 0 then setDataReady (accAdd (BitVec.ofInt 32 detents) s1) else s1

/-- QS.TICK. -/
def execQsTick (cnt : U16) (s : State) : Result State := issued (.qsTick cnt) s (.next (qsTick cnt s))

/-- ACC.ADD. -/
def execAccAdd (d : I32) (s : State) : Result State := issued (.accAdd d) s (.next (accAdd d s))

/-- ACC.TAKE. -/
def execAccTake (s : State) : Result State :=
  issued .accTake s (.next ((accTake s).1.withRet (.taken (accTake s).2)))

/-- ACC.FLUSH. -/
def execAccFlush (s : State) : Result State := issued .accFlush s (.next (accFlush s))

end Sys2Proof.Machine
end

