-- ==== Sys2Proof/Machine/Scheduler.lean ====
section
/-! DEFINITION. Scheduler, composer and send primitive: SCH.STEP, PH.ENCODER, PH.BUTTONS, PH.ROTARY, PH.USB_SEND, TX.SEND
(44_scheduler.md). -/

namespace Sys2Proof.Machine

/-- The outbound report from the current state (R175, 30_encoding.md R78): `xor_day` is computed here, at every send. -/
def outReport (s : State) : List Byte :=
  [s.cfg.reportId, s.sch.btn1, s.sch.btn2, s.rm.stable, wheelByte s.sch.wheel, s.shr.dayKey ^^^ s.sch.btn1] ++
    (if s.cfg.outPad then [0x00#8] else [])

/-- `TX.COMPOSE` (R175). -/
def txCompose (s : State) : Result State := writeBytes .out 0 (outReport s) s

/-- `TX.SEND now tr` (R176): the floor first, then one offer to the transport; a FAILURE is as BUSY. -/
def txSend (now : U32) (tr : BitVec 2) (s : State) : Result (State × SendResult) :=
  if elapsed now s.txLast < s.cfg.timing.txFloor then .next (raise .txFloor s, .busy)
  else
    chain (readBytes .out 0 s.cfg.outLen s) fun report =>
    let s1 := emit (.txReq report) s
    match answerOf tr with
    | .success => .next (s1.withTxLast now, .success)
    | .busy => .next (raise .txBusy s1, .busy)
    | .failure => .next (raise .txFailure s1, .busy)

/-- `PH.ENCODER` (R166): the requested flush, otherwise nothing. -/
def phEncoder (s : State) : State :=
  if s.sch.flushPending then
    let s1 := accFlush s
    s1.withSch { s1.sch with flushPending := false }
  else s

/-- `PH.BUTTONS now K` (R167): a scan when its interval has passed; otherwise `K` is not read and nothing changes. -/
def phButtons (now : U32) (keys : BitVec 16) (s : State) : State :=
  if s.cfg.timing.scanInterval ≤ elapsed now s.sch.lastScan then
    let r := kmScan now keys s
    r.1.withSch
      { r.1.sch with
        btn1 := r.2.first, btn2 := r.2.second, buttonChanged := buttonChangedBy r.1.sch r.2.first r.2.second,
        lastScan := now }
  else s

/-- `PH.ROTARY now rot_n` (R168): a read when its interval has passed; an accepted change marks the flags, requests the
flush, drops the pending wheel and notifies. -/
def phRotary (now : U32) (rotN : BitVec 6) (s : State) : State :=
  if s.cfg.timing.rotPoll ≤ elapsed now s.sch.lastRot then
    let r := rmRead now rotN s
    let s1 := r.1.withSch { r.1.sch with lastRot := now }
    if r.2 then emit (.notifyMode s1.rm.stable) (s1.withSch (markModeChange s1.sch)) else s1
  else s

/-- The take of phase USB_SEND (R169, R172): none while a flush is pending. -/
def takeMotion (s : State) : State × I32 := if s.sch.flushPending then (s, 0#32) else accTake s

/-- The pending wheel after a take of `v` (R172, R173): a non-zero take replaces it. -/
def setWheel (v : I32) (s : State) : State :=
  if v ≠ 0#32 then s.withSch { s.sch with wheel := speedMap s.cfg.speed v } else s

/-- Compose and send; on SUCCESS the snapshot is taken and the flags cleared, on BUSY nothing more changes (R172). -/
def attemptSend (now : U32) (tr : BitVec 2) (s : State) : Result State :=
  chain (txCompose s) fun s1 =>
  chain (txSend now tr s1) fun r =>
  match r.2 with
  | .success => .next (r.1.withSch (noteSent r.1.sch r.1.rm.stable now))
  | .busy => .next r.1

/-- `PH.USB_SEND now tr` (R172). -/
def phUsbSend (now : U32) (tr : BitVec 2) (s : State) : Result State :=
  let v := (takeMotion s).2
  let s1 := setWheel v (takeMotion s).1
  if needSend s1.cfg s1.sch now && decide (minInterval s1.cfg v ≤ elapsed now s1.sch.lastSend) then attemptSend now tr s1
  else .next s1

/-- The phase body that `SCH.phase` selects (R165). -/
def phaseBody (now : U32) (keys : BitVec 16) (rotN : BitVec 6) (tr : BitVec 2) (s : State) : Result State :=
  match s.sch.phase.toNat with
  | 0 => .next (phEncoder s)
  | 1 => .next (phButtons now keys s)
  | 2 => .next (phRotary now rotN s)
  | _ => phUsbSend now tr s

/-- `SCH.phase <- (SCH.phase + 1) mod 4` (R36, R165). -/
def advancePhase (s : State) : State := s.withSch { s.sch with phase := s.sch.phase + 1 }

/-- `SCH.STEP now K rot_n tr` (R165): the selected body, then the phase advances by exactly one, whatever the body did. -/
def schStep (now : U32) (keys : BitVec 16) (rotN : BitVec 6) (tr : BitVec 2) (s : State) : Result State :=
  chain (phaseBody now keys rotN tr s) fun s1 => .next (advancePhase s1)

/-- SCH.STEP. -/
def execSchStep (now : U32) (keys : BitVec 16) (rotN : BitVec 6) (tr : BitVec 2) (s : State) : Result State :=
  issued (.schStep now keys rotN tr) s (schStep now keys rotN tr s)

/-- TX.SEND. -/
def execTxSend (now : U32) (tr : BitVec 2) (s : State) : Result State :=
  issued (.txSend now tr) s (chain (txSend now tr s) fun r => .next (r.1.withRet (.sent r.2)))

/-- PH.ENCODER. -/
def execPhEncoder (s : State) : Result State := issued .phEncoder s (.next (phEncoder s))

/-- PH.BUTTONS. -/
def execPhButtons (now : U32) (keys : BitVec 16) (s : State) : Result State :=
  issued (.phButtons now keys) s (.next (phButtons now keys s))

/-- PH.ROTARY. -/
def execPhRotary (now : U32) (rotN : BitVec 6) (s : State) : Result State :=
  issued (.phRotary now rotN) s (.next (phRotary now rotN s))

/-- PH.USB_SEND. -/
def execPhUsbSend (now : U32) (tr : BitVec 2) (s : State) : Result State :=
  issued (.phUsbSend now tr) s (phUsbSend now tr s)

end Sys2Proof.Machine
end

