-- ==== Sys2Proof/Machine/System.lean ====
section
/-! DEFINITION. NOP and the reserved operation codes (30_encoding.md R89). -/

namespace Sys2Proof.Machine

/-- NOP: no state changes and nothing is put out; any context may issue it. -/
def execNop (s : State) : Result State := issued .nop s (.next s)

/-- RESERVED_A, code 0xA. -/
def execReservedA (_ : State) : Result State := .refused (.reservedOperation 0xA#4)

/-- RESERVED_B, code 0xB. -/
def execReservedB (_ : State) : Result State := .refused (.reservedOperation 0xB#4)

/-- RESERVED_C, code 0xC. -/
def execReservedC (_ : State) : Result State := .refused (.reservedOperation 0xC#4)

/-- RESERVED_D, code 0xD. -/
def execReservedD (_ : State) : Result State := .refused (.reservedOperation 0xD#4)

/-- RESERVED_E, code 0xE. -/
def execReservedE (_ : State) : Result State := .refused (.reservedOperation 0xE#4)

/-- RESERVED_F, code 0xF. -/
def execReservedF (_ : State) : Result State := .refused (.reservedOperation 0xF#4)

end Sys2Proof.Machine
end

