-- ==== Sys2Proof/Machine/Dispatch.lean ====
section
/-! DEFINITION. The operation executed: one arm per row of spec/opcode_table.json. -/

namespace Sys2Proof.Machine

/-- What each operation does. -/
def exec (i : Instr) (s : State) : Host.Outcome State Fault Refusal :=
  match i with
  -- format OP4
  | .nop => Sys2Proof.Machine.execNop s
  | .qsTick cnt => Sys2Proof.Machine.execQsTick cnt s
  | .accAdd d => Sys2Proof.Machine.execAccAdd d s
  | .accTake => Sys2Proof.Machine.execAccTake s
  | .accFlush => Sys2Proof.Machine.execAccFlush s
  | .kmScan now keys => Sys2Proof.Machine.execKmScan now keys s
  | .rmRead now rotN => Sys2Proof.Machine.execRmRead now rotN s
  | .rxChunk c => Sys2Proof.Machine.execRxChunk c s
  | .schStep now keys rotN tr => Sys2Proof.Machine.execSchStep now keys rotN tr s
  | .txSend now tr => Sys2Proof.Machine.execTxSend now tr s
  | .reservedA => Sys2Proof.Machine.execReservedA s
  | .reservedB => Sys2Proof.Machine.execReservedB s
  | .reservedC => Sys2Proof.Machine.execReservedC s
  | .reservedD => Sys2Proof.Machine.execReservedD s
  | .reservedE => Sys2Proof.Machine.execReservedE s
  | .reservedF => Sys2Proof.Machine.execReservedF s
  -- format PHASE2
  | .phEncoder => Sys2Proof.Machine.execPhEncoder s
  | .phButtons now keys => Sys2Proof.Machine.execPhButtons now keys s
  | .phRotary now rotN => Sys2Proof.Machine.execPhRotary now rotN s
  | .phUsbSend now tr => Sys2Proof.Machine.execPhUsbSend now tr s
  -- format CHUNK56
  | .rxcSync tail => Sys2Proof.Machine.execRxcSync tail s
  | .rxcData c => Sys2Proof.Machine.execRxcData c s

end Sys2Proof.Machine
end

