-- ==== Sys2Proof/Machine/Fetch.lean ====
section
/-! DEFINITION. From what the environment does to an operation run: the issued word decoded and run in its context, the
ports sampled (10_state.md R47, 60_exceptions.md R196 to R200), and where a table word is placed to be run next. -/

namespace Sys2Proof.Machine

/-- The word that issues `i` (format `OP4`). -/
def issueWord (i : Instr) : IssueWord := (encode i).2

/-- Run one issued operation: its context is entered, the operation runs to completion, the context is left. -/
def runIssued (c : Context) (w : IssueWord) (s : State) : Result State :=
  match decode .op4 w with
  | .ok i => chain (exec i (enterContext c s)) fun t => .next (leaveContext t)
  | .error e => .refused (.undecodable e)

/-- The operations a sample of the ports strobes, in the order of 60_exceptions.md R198: the tick, the chunk, the scheduler
step. -/
def portIssues (cfg : Config) (p : Ports) : List Input :=
  (if p.tick1ms then [.issue .isr (issueWord (.qsTick p.cnt))] else []) ++
  (if p.rxValid then [.issue (rxContextOf cfg) (issueWord (.rxChunk p.rxChunk))] else []) ++
  (if p.schedStep then
    [.issue .main (issueWord (.schStep p.msTick (keysOfPins cfg p.colIn) p.rotN p.txResult))] else [])

/-- A sample of the ports: with `rst` asserted no operation is issued and the engine is reset with this sample's counter
(70_reset_and_hazards.md R220, R224); otherwise the strobed operations come next. -/
def samplePorts (p : Ports) (s : State) : State :=
  if p.rst then applyReset p.cnt s else s.withInputs (portIssues s.cfg p ++ s.inputs)

/-- The context that may issue the operation code in the low digit of `w` (30_encoding.md R71). -/
def issuerOf (cfg : Config) (w : IssueWord) : Context :=
  match (w.extractLsb' 0 4).toNat with
  | 1 => .isr
  | 2 => .isr
  | 7 => rxContextOf cfg
  | _ => .main

/-- Put an input before the others. -/
def pushInput (x : Input) (s : State) : State := s.withInputs (x :: s.inputs)

/-- Place a table word so that the next step runs it (notes/assumptions/3.md, 5.md): an `OP4` word is issued by the context
that may issue it; a phase is put in `SCH.phase` and `SCH.STEP` issued; a chunk is issued as `RX.CHUNK`. -/
def placeTableWord (f : Format) (w : IssueWord) (s : State) : State :=
  match f with
  | .op4 => pushInput (.issue (issuerOf s.cfg w) w) s
  | .phase2 =>
    pushInput (.issue .main (issueWord (.schStep 0#32 0#16 0#6 0#2))) (s.withSch { s.sch with phase := w.extractLsb' 0 2 })
  | .chunk56 => pushInput (.issue (rxContextOf s.cfg) (issueWord (.rxChunk (w.extractLsb' 0 56)))) s

end Sys2Proof.Machine
end

