-- ==== Sys2Proof/Machine/Step.lean ====
section
/-! DEFINITION. One step of the engine: the next thing the environment does. -/

namespace Sys2Proof.Machine

/-- One step (20_memory.md R62): the oldest input is taken; with none, no agent steps and nothing changes
(notes/assumptions/3.md). -/
def step (s : State) : Host.Outcome State Fault Refusal :=
  match s.inputs with
  | [] => .next s
  | .issue c w :: rest => runIssued c w (s.withInputs rest)
  | .ports p :: rest => .next (samplePorts p (s.withInputs rest))

/-- `s` with a table word placed so that the next step runs it. -/
def State.withFetchWord (s : State) (nbits w : Nat) : State := placeTableWord (formatOfBits nbits) (BitVec.ofNat 64 w) s

end Sys2Proof.Machine
end

