-- ==== Sys2Proof/Machine/Report.lean ====
section
/-! DEFINITION. The inbound report as fields: the byte codec of 20_memory.md R53 and the layout of 30_encoding.md R74 to
R77. The engine itself reads only `day_key`; the rest is the view a reader of `SHR` has. -/

namespace Sys2Proof.Machine

/-- One axis (R74). -/
structure Axis where
  integerPart : U16
  fractionalPart : U16
  deriving DecidableEq, Repr

/-- `integer_part` as the i16 it is. -/
def Axis.integer (a : Axis) : Int := a.integerPart.toInt

/-- The sign flag, bit 15 of `fractional_part` (R75). -/
def Axis.sign (a : Axis) : Bool := a.fractionalPart.getLsbD 15

/-- The magnitude, bits 14:0 of `fractional_part` (R75); not checked. -/
def Axis.magnitude (a : Axis) : BitVec 15 := a.fractionalPart.extractLsb' 0 15

/-- The fields of the inbound report after the marker (R74). -/
structure InboundReport where
  axes : Vector Axis 6
  feedRate : U16
  feedOverride : U16
  spindleSpeed : U16
  spindleOverride : U16
  stepMultiplier : Byte
  machineState : Byte
  dayKey : Byte
  deriving DecidableEq, Repr

/-- The step-size code, the low nibble of `step_multiplier` (R76). -/
def InboundReport.stepCode (r : InboundReport) : BitVec 4 := r.stepMultiplier.extractLsb' 0 4

/-- The little-endian u16 at offset `a` (20_memory.md R55). -/
def wordAt (m : Memory) (a : Nat) : U16 := m.get (a + 1) ++ m.get a

/-- Axis `i` of a report image (R74). -/
def axisAt (l : Layout) (m : Memory) (i : Fin 6) : Axis :=
  { integerPart := wordAt m l.axisInteger[i].val, fractionalPart := wordAt m l.axisFraction[i].val }

/-- The decoded view of a report image under an offset table (R53, R74). -/
def decodeReport (l : Layout) (m : Memory) : InboundReport where
  axes := #v[axisAt l m 0, axisAt l m 1, axisAt l m 2, axisAt l m 3, axisAt l m 4, axisAt l m 5]
  feedRate := wordAt m l.feedRate.val
  feedOverride := wordAt m l.feedOverride.val
  spindleSpeed := wordAt m l.spindleSpeed.val
  spindleOverride := wordAt m l.spindleOverride.val
  stepMultiplier := m.get l.stepMultiplier.val
  machineState := m.get l.machineState.val
  dayKey := m.get l.dayKey.val

/-- The visible report: none until the first report completes (20_memory.md R51). -/
def State.visibleReport (s : State) : Option InboundReport :=
  if s.shr.valid then some (decodeReport s.cfg.layout s.buf.shr) else none

/-- The two bytes of a u16, the less significant first (20_memory.md R54). -/
def wordBytes (w : U16) : List Byte := [w.extractLsb' 0 8, w.extractLsb' 8 8]

/-- The 37 bytes of a report in R74's order, the marker first. -/
def encodeReport (r : InboundReport) : List Byte :=
  wordBytes magic ++
  r.axes.toList.flatMap (fun a => wordBytes a.integerPart ++ wordBytes a.fractionalPart) ++
  wordBytes r.feedRate ++ wordBytes r.feedOverride ++ wordBytes r.spindleSpeed ++ wordBytes r.spindleOverride ++
  [r.stepMultiplier, r.machineState, r.dayKey]

/-- The chunk with the given bytes, `c[0]` first (R73). -/
def chunkOfBytes (b0 b1 b2 b3 b4 b5 b6 : Byte) : Chunk := b6 ++ b5 ++ b4 ++ b3 ++ b2 ++ b1 ++ b0

/-- The chunk of the seven bytes of `bs` from offset `a` on. -/
def chunkAt (bs : List Byte) (a : Nat) : Chunk :=
  chunkOfBytes (bs.getD a 0#8) (bs.getD (a + 1) 0#8) (bs.getD (a + 2) 0#8) (bs.getD (a + 3) 0#8) (bs.getD (a + 4) 0#8)
    (bs.getD (a + 5) 0#8) (bs.getD (a + 6) 0#8)

/-- `RX.REPORT` (R92, 43_reassembler.md R161): the six chunks that carry `bs`, the rest of the sixth 0x00. -/
def reportChunks (bs : List Byte) : List Chunk := [0, 7, 14, 21, 28, 35].map (chunkAt bs)

end Sys2Proof.Machine
end

