-- ==== Sys2Proof/Safety.lean ====
section
/-! DEFINITION. The terms claims use: what holds of the state between operations, and runs of operations. -/

namespace Sys2Proof.Machine

/-! ## What holds between operations -/

/-- A mode code or the off code (10_state.md R30). -/
def isMode (cfg : Config) (m : Byte) : Prop := m = cfg.modeOff ∨ m ∈ cfg.modeCode.toList

/-- A pair of key codes as a scan makes it (00_scope.md R15). -/
structure KeyPair.Ok (cfg : Config) (p : KeyPair) : Prop where
  firstKey : p.first = 0#8 ∨ p.first ∈ cfg.keycode.toList
  secondKey : p.second = 0#8 ∨ p.second ∈ cfg.keycode.toList
  ordered : p.first = 0#8 → p.second = 0#8
  distinct : p.first = p.second → p.first = 0#8

/-- A hold slot: a free one is all zeros (R29), an occupied one is held by a repeat-enabled code of the stable pair (R126,
41_keymatrix.md R130). -/
structure HoldSlot.Ok (cfg : Config) (stable : KeyPair) (slot : HoldSlot) : Prop where
  free : slot.code = 0#8 → slot = { code := 0#8, pressedAt := 0#32, nextRepeatAt := 0#32 }
  held : slot.code ≠ 0#8 → stable.has slot.code = true ∧ cfg.repeatEn slot.code = true

/-- The key scanner (R26 to R29, R130). -/
structure KeyScanner.Ok (cfg : Config) (km : KeyScanner) : Prop where
  raw : km.lastRaw.Ok cfg
  stable : km.stable.Ok cfg
  slot0 : km.slot0.Ok cfg km.stable
  slot1 : km.slot1.Ok cfg km.stable
  slotsDiffer : km.slot0.code = km.slot1.code → km.slot0.code = 0#8

/-- The pulse buffer holds a residue (R23, 40_quadrature.md R107). -/
def Sampler.Ok (qs : Sampler) : Prop := -3 ≤ qs.res.toInt ∧ qs.res.toInt ≤ 3

/-- The rotary latch (R30, R31). -/
structure Rotary.Ok (cfg : Config) (rm : Rotary) : Prop where
  mode : isMode cfg rm.stable
  pending : rm.offPending = true → rm.stable ≠ cfg.modeOff

/-- The reassembler (R32, R33; 43_reassembler.md R153). -/
structure Reassembler.Ok (cfg : Config) (rx : Reassembler) : Prop where
  inBuffer : rx.offset ≤ scratchLen
  wholeChunks : chunkLen ∣ rx.offset
  partialReport : rx.syncFound = true → chunkLen ≤ rx.offset ∧ rx.offset < cfg.reportLen

/-- The buffers: canonical, and nothing outside them (20_memory.md R50). -/
structure Buffers.Ok (cfg : Config) (b : Buffers) : Prop where
  canonical : ∀ sp, (b.get sp).wf = true
  inside : ∀ sp, (b.get sp).below (Space.size cfg sp) = true

/-- The shared report (20_memory.md R51): nothing is visible before the first report, and the day key is a copy of the
report's field. -/
structure SharedReport.Ok (cfg : Config) (shrBytes : Memory) (shr : SharedReport) : Prop where
  before : shr.valid = false → shr.dayKey = 0#8 ∧ shrBytes = []
  dayKeyCopy : shr.dayKey = shrBytes.get cfg.layout.dayKey.val

/-- The scheduler (R41, R42; 44_scheduler.md R169). -/
structure Scheduler.Ok (cfg : Config) (sch : Scheduler) : Prop where
  wheel : -127 ≤ sch.wheel.toInt ∧ sch.wheel.toInt ≤ 127
  sentWheel : -127 ≤ sch.sentWheel.toInt ∧ sch.sentWheel.toInt ≤ 127
  sentMode : isMode cfg sch.sentMode
  flushHoldsWheel : sch.flushPending = true → sch.wheel = 0#8

/-- What every step keeps. -/
structure State.Inv (s : State) : Prop where
  cfg : s.cfg.wf = true
  sampler : s.qs.Ok
  keys : s.km.Ok s.cfg
  rotary : s.rm.Ok s.cfg
  reassembler : s.rx.Ok s.cfg
  buffers : s.buf.Ok s.cfg
  shared : s.shr.Ok s.cfg s.buf.shr
  scheduler : s.sch.Ok s.cfg

/-! ## Terms about operations -/

/-- `RX.CHUNK` and the two kinds of chunk it decodes to (30_encoding.md R73). -/
def isChunkOp (i : Instr) : Bool :=
  match i with
  | .rxChunk _ => true
  | .rxcSync _ => true
  | .rxcData _ => true
  | .nop => false
  | .qsTick _ => false
  | .accAdd _ => false
  | .accTake => false
  | .accFlush => false
  | .kmScan _ _ => false
  | .rmRead _ _ => false
  | .schStep _ _ _ _ => false
  | .txSend _ _ => false
  | .reservedA => false
  | .reservedB => false
  | .reservedC => false
  | .reservedD => false
  | .reservedE => false
  | .reservedF => false
  | .phEncoder => false
  | .phButtons _ _ => false
  | .phRotary _ _ => false
  | .phUsbSend _ _ => false

/-- The phase whose body an operation runs in state `s`: a phase body its own, `SCH.STEP` the one `SCH.phase` holds (R72). -/
def phaseRun (i : Instr) (s : State) : Option (BitVec 2) :=
  match i with
  | .phEncoder => some 0#2
  | .phButtons _ _ => some 1#2
  | .phRotary _ _ => some 2#2
  | .phUsbSend _ _ => some 3#2
  | .schStep _ _ _ _ => some s.sch.phase
  | .rxChunk _ => none
  | .rxcSync _ => none
  | .rxcData _ => none
  | .nop => none
  | .qsTick _ => none
  | .accAdd _ => none
  | .accTake => none
  | .accFlush => none
  | .kmScan _ _ => none
  | .rmRead _ _ => none
  | .txSend _ _ => none
  | .reservedA => none
  | .reservedB => none
  | .reservedC => none
  | .reservedD => none
  | .reservedE => none
  | .reservedF => none

/-- `TX.SEND` issued directly. -/
def isSendOp (i : Instr) : Prop := ∃ now tr, i = .txSend now tr

/-- What an operation put out, given the states before and after it. -/
def newOutputs (s t : State) : List Emission := t.log.drop s.log.length

/-- The outbound report of 30_encoding.md R78 with the given wheel code. -/
def reportWith (s : State) (wheel : I8) : List Byte :=
  [s.cfg.reportId, s.sch.btn1, s.sch.btn2, s.rm.stable, wheel, s.shr.dayKey ^^^ s.sch.btn1] ++
    List.replicate (s.cfg.outLen - 6) 0x00#8

/-- What a phase USB_SEND takes: the accumulator, or nothing while a flush is pending (44_scheduler.md R169, R172). -/
def motionTaken (s : State) : I32 := if s.sch.flushPending then 0#32 else s.acc

/-- The pending wheel after that take (R172, R173). -/
def wheelAfter (s : State) : I8 := if motionTaken s = 0#32 then s.sch.wheel else speedMap s.cfg.speed (motionTaken s)

/-- The state after that take. -/
def takenState (s : State) : State :=
  if s.sch.flushPending then s
  else { s with acc := 0#32, qs := { s.qs with dataReady := false }, sch := { s.sch with wheel := wheelAfter s } }

/-- Whether a phase USB_SEND attempts a send at `now` (R171, R172). -/
def sendWanted (s : State) (now : U32) : Prop :=
  (wheelAfter s ≠ 0#8 ∨ s.sch.buttonChanged = true ∨ s.sch.modeChanged = true ∨
    s.cfg.timing.keepalive ≤ (now - s.sch.lastSend).toNat) ∧
  (if s.cfg.ivThrFast < (motionTaken s).toInt.natAbs then s.cfg.timing.minIvFast
    else if s.cfg.ivThrMid < (motionTaken s).toInt.natAbs then s.cfg.timing.minIvMid
    else s.cfg.timing.minIvSlow) ≤ (now - s.sch.lastSend).toNat

/-- A value of the `wheel` byte that `SPEEDMAP` produces, or none (30_encoding.md R80). -/
def isSpeedCode (w : I8) : Prop := w.toInt.natAbs ∈ [0, 1, 2, 3, 6, 10, 20, 30, 50]

/-- The keys that are down, lowest crossing first (41_keymatrix.md R121). -/
def keysDown (keys : BitVec 16) : List (Fin 16) := (List.finRange 16).filter fun k => keys.getLsbD k.val

/-- A code newly present in the stable pair (41_keymatrix.md R124). -/
def newlyPressed (s t : State) (c : Byte) : Prop := t.km.stable.has c = true ∧ s.km.stable.has c = false

/-- The two events a scan returns. -/
def eventsOf (r : Returned) : Byte × Byte :=
  match r with
  | .scanned b1 b2 => (b1, b2)
  | .none => (0#8, 0#8)
  | .taken _ => (0#8, 0#8)
  | .modeRead _ _ => (0#8, 0#8)
  | .sent _ => (0#8, 0#8)

/-- `c` is one of the events a scan returned. -/
def emitted (t : State) (c : Byte) : Prop := (eventsOf t.ret).1 = c ∨ (eventsOf t.ret).2 = c

/-- The PRESS events of a scan, in the order of the new stable pair (41_keymatrix.md R124, R128). -/
def pressEvents (s t : State) : List Byte :=
  [t.km.stable.first, t.km.stable.second].filter fun c => t.km.stable.has c && !s.km.stable.has c

/-- The REPEAT of one slot, given the slot before and after the scan, with no cap on events (R127): a slot whose code stays
held is due by the deadline it had; a slot taken in this scan by the delay it was given. -/
def repeatEvent (s t : State) (now : U32) (old new : HoldSlot) : List Byte :=
  if t.km.stable.has old.code = true then
    if 0 ≤ (now - old.nextRepeatAt).toInt then [old.code] else []
  else if new.code ≠ 0#8 ∧ 0 ≤ (now - (now + BitVec.ofNat 32 s.cfg.timing.repeatDelay)).toInt then [new.code]
  else []

/-- The events of a scan in order (R128): PRESSes, then REPEATs in slot order 0, 1. -/
def eventsInOrder (s t : State) (now : U32) : List Byte :=
  pressEvents s t ++ (repeatEvent s t now s.km.slot0 t.km.slot0 ++ repeatEvent s t now s.km.slot1 t.km.slot1)

/-! ## Runs -/

/-- Operations issued one after the other, each by its context. -/
def runOps (ops : List (Context × Instr)) (s : State) : Result State :=
  match ops with
  | [] => .next s
  | (c, i) :: rest => chain (exec i (enterContext c s)) (runOps rest)

/-- The value an `ACC.TAKE` just returned, 0 for any other result. -/
def takenValue (r : Returned) : I32 :=
  match r with
  | .taken v => v
  | .none => 0#32
  | .scanned _ _ => 0#32
  | .modeRead _ _ => 0#32
  | .sent _ => 0#32

/-- What may happen at the accumulator: the interrupt adds detents or ticks, the main context takes. -/
inductive MotionOp where
  | add (d : I32)
  | tick (cnt : U16)
  | take
  deriving DecidableEq, Repr

/-- The operation and the context that issues it. -/
def MotionOp.issue (op : MotionOp) : Context × Instr :=
  match op with
  | .add d => (.isr, .accAdd d)
  | .tick cnt => (.isr, .qsTick cnt)
  | .take => (.main, .accTake)

/-- The sum of the values the takes of a run return. -/
def takenSum (ops : List MotionOp) (s : State) : Result (State × I32) :=
  match ops with
  | [] => .next (s, 0#32)
  | op :: rest =>
    chain (exec op.issue.2 (enterContext op.issue.1 s)) fun t =>
    chain (takenSum rest t) fun r => .next (r.1, (match op with | .take => takenValue t.ret | .add _ => 0#32 | .tick _ => 0#32) + r.2)

/-- The detents handed to `ACC.ADD` by a run's adds. -/
def addedSum (ops : List MotionOp) : I32 :=
  match ops with
  | [] => 0#32
  | .add d :: rest => d + addedSum rest
  | .tick _ :: rest => addedSum rest
  | .take :: rest => addedSum rest

/-- The pulses a run's ticks see, from the counter reading `prev` on: the sum of their deltas (40_quadrature.md R101). -/
def pulseSum (prev : U16) (ops : List MotionOp) : Int :=
  match ops with
  | [] => 0
  | .tick cnt :: rest => (cnt - prev).toInt + pulseSum cnt rest
  | .add _ :: rest => pulseSum prev rest
  | .take :: rest => pulseSum prev rest

end Sys2Proof.Machine
end

