-- ==== Sys2Proof/Certificates/Slice0/Obligations.lean ====
section
/-! DEFINITION. The statements about the engine, each with the rules it rests on. `exec i s` runs one operation in the
context `s.ctx`. -/

open Sys2Proof Sys2Proof.Machine

/-! ## Encodings (30_encoding.md) -/

/-- Decoding the word of a well-formed operation gives the operation back. The packing of operands into a word is the
model's choice (notes/assumptions/4.md); the codes are R71's, R72's and R73's. -/
def Obligations.DecodeOfEncode : Prop :=
  ∀ i : Instr, i.wf = true → decode (encode i).1 (encode i).2 = .ok i

/-- A word decodes to one operation only if it is that operation's word, and what it decodes to is well formed. Where the
operands stand in a word, and that stray bits are refused, is the model's choice (notes/assumptions/4.md). -/
def Obligations.EncodeOfDecode : Prop :=
  ∀ (f : Format) (w : IssueWord) (i : Instr), decode f w = .ok i → encode i = (f, w) ∧ i.wf = true

/-- Words made of the codes, the operand order and the digit widths of 30_encoding.md and 95_test_vectors.md part 3 decode to
what they stand for. That the code stands lowest and the operands above it is the model's choice (notes/assumptions/4.md). -/
def Obligations.SpecWordsDecode : Prop :=
  decode .op4 0x0#64 = .ok .nop ∧
  decode .op4 0x00021#64 = .ok (.qsTick 2#16) ∧
  decode .op4 0xfffe1#64 = .ok (.qsTick 65534#16) ∧
  decode .op4 0x3#64 = .ok .accTake ∧
  decode .op4 0x4#64 = .ok .accFlush ∧
  decode .op4 0x1000000000785#64 = .ok (.kmScan 120#32 0x1000#16) ∧
  decode .op4 0x3d000000646#64 = .ok (.rmRead 100#32 0b111101#6) ∧
  decode .op4 0x070605040302017#64 = .ok (.rxChunk 0x07060504030201#56) ∧
  decode .op4 0x13d0000000000528#64 = .ok (.schStep 82#32 0#16 0b111101#6 1#2) ∧
  decode .op4 0xC#64 = .ok .reservedC ∧
  decode .phase2 0#64 = .ok .phEncoder ∧
  decode .phase2 3#64 = .ok (.phUsbSend 0#32 0#2) ∧
  decode .chunk56 0x0300020001fdfe#64 = .ok (.rxcSync 0x0300020001#40) ∧
  decode .chunk56 0x00060005000400#64 = .ok (.rxcData 0x00060005000400#56)

/-- R73: a chunk is a marker chunk exactly when byte 0 is 0xFE and byte 1 is 0xFD, which is the mask and match of the
56-bit number; any other chunk is a data chunk; bytes 2 to 6 take no part. -/
def Obligations.MarkerChunkDecode : Prop :=
  ∀ c : Chunk,
    ((c.extractLsb' 0 8 = 0xFE#8 ∧ c.extractLsb' 8 8 = 0xFD#8) ↔ c &&& 0x0000000000FFFF#56 = 0x0000000000FDFE#56) ∧
    ((c.extractLsb' 0 8 = 0xFE#8 ∧ c.extractLsb' 8 8 = 0xFD#8) →
      decode .chunk56 (c.setWidth 64) = .ok (.rxcSync (c.extractLsb' 16 40))) ∧
    (¬ (c.extractLsb' 0 8 = 0xFE#8 ∧ c.extractLsb' 8 8 = 0xFD#8) → decode .chunk56 (c.setWidth 64) = .ok (.rxcData c))

/-- `RX.CHUNK` does what the chunk it carries decodes to (43_reassembler.md R150). -/
def Obligations.RxChunkRunsDecodedChunk : Prop :=
  ∀ (s : State) (c : Chunk) (i : Instr), decode .chunk56 (c.setWidth 64) = .ok i → exec (.rxChunk c) s = exec i s

/-! ## The step -/

/-- A step runs the operation that the oldest issued word decodes to, in the context that issued it; entering and leaving
the context changes nothing else (60_exceptions.md R199, R200). With nothing issued a step changes nothing
(notes/assumptions/3.md). -/
def Obligations.StepRunsIssuedOperation : Prop :=
  (∀ (s : State) (c : Context) (i : Instr) (rest : List Input),
    (encode i).1 = .op4 → i.wf = true → s.inputs = .issue c (encode i).2 :: rest →
    (∀ t, exec i { s with inputs := rest, ctx := c } = .next t → step s = .next { t with ctx := .main }) ∧
    (∀ r, exec i { s with inputs := rest, ctx := c } = .refused r → step s = .refused r)) ∧
  (∀ s : State, s.inputs = [] → step s = .next s)

/-- A sample of the ports (10_state.md R47): under `rst` the engine is reset with that sample's counter; otherwise the
strobed operations come next, the tick before the chunk before the scheduler step (60_exceptions.md R198, a decision of
the spec), with the operands the ports give (30_encoding.md R86). -/
def Obligations.PortsStrobeInOrder : Prop :=
  ∀ (s : State) (p : Ports) (rest : List Input), s.inputs = .ports p :: rest →
    (p.rst = true → step s = .next { State.resetOf s.cfg p.cnt with inputs := rest, log := s.log }) ∧
    (p.rst = false → step s = .next { s with inputs :=
      (if p.tick1ms then [.issue .isr (encode (.qsTick p.cnt)).2] else []) ++
      ((if p.rxValid then [.issue (match s.cfg.rxContext with | .main => .main | .third => .third)
          (encode (.rxChunk p.rxChunk)).2] else []) ++
      ((if p.schedStep then [.issue .main (encode (.schStep p.msTick
          (if s.cfg.keyActiveLow then ~~~ p.colIn else p.colIn) p.rotN p.txResult)).2] else []) ++ rest)) })

/-- `SCH.STEP` runs the body that `SCH.phase` selects and then advances the phase by exactly one, whatever the body did;
the wrap from 3 to 0 is the ordinary step (10_state.md R36, 44_scheduler.md R165). -/
def Obligations.SchStepRunsSelectedPhase : Prop :=
  ∀ (s : State) (now : U32) (keys : BitVec 16) (rotN : BitVec 6) (tr : BitVec 2),
    s.ctx = .main →
    ∃ u, exec (if s.sch.phase = 0#2 then .phEncoder
        else if s.sch.phase = 1#2 then .phButtons now keys
        else if s.sch.phase = 2#2 then .phRotary now rotN
        else .phUsbSend now tr) s = .next u ∧
      u.sch.phase = s.sch.phase ∧
      exec (.schStep now keys rotN tr) s = .next { u with sch := { u.sch with phase := s.sch.phase + 1#2 } } ∧
      (s.sch.phase + 1#2).toNat = (s.sch.phase.toNat + 1) % 4

/-! ## Quadrature sampler and accumulator (40_quadrature.md) -/

/-- `QS.TICK` (R100 to R103): the wrapped delta joins the residue; whole detents, rounded toward zero (decision D6), go to
the accumulator modulo 2^32 (D8); the flag is set exactly when they are not zero (D9); nothing else changes. -/
def Obligations.QsTickResult : Prop :=
  ∀ (s : State) (cnt : U16), s.ctx = .isr → s.qs.Ok →
    exec (.qsTick cnt) s = .next
      { s with
        qs := {
          prev := cnt
          res := BitVec.ofInt 32 ((s.qs.res.toInt + (cnt - s.qs.prev).toInt).tmod 4)
          dataReady := s.qs.dataReady || decide ((s.qs.res.toInt + (cnt - s.qs.prev).toInt).tdiv 4 ≠ 0) }
        acc := s.acc + BitVec.ofInt 32 ((s.qs.res.toInt + (cnt - s.qs.prev).toInt).tdiv 4) }

/-- R102, R107: the residue lies in [-3, 3] with the sign of the buffer, the detents in [-8192, 8192], and no pulse is
lost. -/
def Obligations.DetentDividerBounds : Prop :=
  ∀ (s t : State) (cnt : U16), s.qs.Ok → exec (.qsTick cnt) s = .next t →
    ∃ detents : Int, -8192 ≤ detents ∧ detents ≤ 8192 ∧
      s.qs.res.toInt + (cnt - s.qs.prev).toInt = 4 * detents + t.qs.res.toInt ∧
      -3 ≤ t.qs.res.toInt ∧ t.qs.res.toInt ≤ 3 ∧
      0 ≤ t.qs.res.toInt * (s.qs.res.toInt + (cnt - s.qs.prev).toInt) ∧
      t.acc = s.acc + BitVec.ofInt 32 detents

/-- R104 to R106: the accumulator's whole interface. A take returns the value and keeps the residue; a flush zeroes both
and leaves `QS.prev` (decision D10); both clear the data-ready flag (D9); an add wraps (D8). -/
def Obligations.AccumulatorInterface : Prop :=
  (∀ (s : State) (d : I32), s.ctx = .isr → exec (.accAdd d) s = .next { s with acc := s.acc + d }) ∧
  (∀ s : State, s.ctx = .main →
    exec .accTake s = .next { s with acc := 0#32, qs := { s.qs with dataReady := false }, ret := .taken s.acc }) ∧
  (∀ s : State, s.ctx = .main →
    exec .accFlush s = .next { s with acc := 0#32, qs := { s.qs with res := 0#32, dataReady := false } })

/-- R63(a): over any interleaving of adds and takes, the values taken and the unread accumulator together are the starting
accumulator and everything added, modulo 2^32; every such run completes. -/
def Obligations.AccumulatorConservation : Prop :=
  ∀ (s : State) (ops : List MotionOp), (∀ op ∈ ops, ∀ cnt, op ≠ .tick cnt) →
    ∃ t taken, takenSum ops s = .next (t, taken) ∧ taken + t.acc = s.acc + addedSum ops

/-- R110 with R63: over any interleaving of ticks, adds and takes, the pulses the sampler saw are all in taken values (times
4), in the accumulator (times 4) or in the residue, modulo 2^32. -/
def Obligations.PulseConservation : Prop :=
  ∀ (s : State) (ops : List MotionOp),
    ∃ t taken, takenSum ops s = .next (t, taken) ∧
      4#32 * (taken + t.acc) + t.qs.res =
        4#32 * (s.acc + addedSum ops) + s.qs.res + BitVec.ofInt 32 (pulseSum s.qs.prev ops)

/-! ## Key matrix (41_keymatrix.md) -/

/-- R121: a scan records the codes of the first two keys down in scan order, the first found first. Which lines are rows
and the order are decision D12; the codes are distinct and not 0 (30_encoding.md R83). -/
def Obligations.RawScanTakesFirstTwo : Prop :=
  ∀ (s : State) (now : U32) (keys : BitVec 16), s.ctx = .main → s.cfg.keysOk = true →
    ∃ t, exec (.kmScan now keys) s = .next t ∧
      (∀ k : Fin 16, t.km.lastRaw.first = s.cfg.keycode[k] ↔
        keys.getLsbD k.val = true ∧ ∀ j : Fin 16, j < k → keys.getLsbD j.val = false) ∧
      (∀ k : Fin 16, t.km.lastRaw.second = s.cfg.keycode[k] ↔
        keys.getLsbD k.val = true ∧ ∃ i : Fin 16, i < k ∧ keys.getLsbD i.val = true ∧
          ∀ j : Fin 16, j < k → keys.getLsbD j.val = true → j = i) ∧
      (t.km.lastRaw.first = 0#8 ↔ keys = 0#16) ∧
      (t.km.lastRaw.second = 0#8 ↔ ∀ i j : Fin 16, keys.getLsbD i.val = true → keys.getLsbD j.val = true → i = j)

/-- R120, R122, R190: a scan changes the scanner, the result and the outputs and nothing else; row r is driven exactly when
fewer than two keys are down in the rows before it; `KM_EXTRA_KEY` is raised exactly when more than two keys are down. Where
the event stands among the outputs is the model's choice (notes/assumptions/10.md). -/
def Obligations.KmScanOutputsAndFrame : Prop :=
  ∀ (s : State) (now : U32) (keys : BitVec 16), s.ctx = .main →
    ∃ km b1 b2, exec (.kmScan now keys) s = .next
      { s with
        km := km
        log := s.log ++
          (((List.range 4).filter fun r => ((keysDown keys).filter fun k => k.val < 4 * r).length < 2).map
            Emission.rowDriven ++ (if 2 < (keysDown keys).length then [.raised .kmExtraKey] else []))
        ret := .scanned b1 b2 }

/-- R123: a changed raw pair restarts the window and promotes nothing; an unchanged one is promoted exactly when it has
lasted `DEBOUNCE_MS` (decisions D5, D14). -/
def Obligations.DebounceWindow : Prop :=
  ∀ (s t : State) (now : U32) (keys : BitVec 16), exec (.kmScan now keys) s = .next t →
    t.km.lastRaw = rawScan s.cfg keys ∧
    (rawScan s.cfg keys ≠ s.km.lastRaw → t.km.lastChange = now ∧ t.km.stable = s.km.stable) ∧
    (rawScan s.cfg keys = s.km.lastRaw →
      t.km.lastChange = s.km.lastChange ∧
      t.km.stable = if s.cfg.timing.debounce ≤ (now - s.km.lastChange).toNat then rawScan s.cfg keys else s.km.stable)

/-- R132: a raw pair that appears at `t1`, is seen at any number of scans less than `DEBOUNCE_MS` after `t1`, and has gone
at the next scan, whenever that is, is never promoted. -/
def Obligations.FlickerNeverPromoted : Prop :=
  ∀ (s : State) (t1 tEnd : U32) (times : List U32) (keys keys' : BitVec 16),
    rawScan s.cfg keys ≠ s.km.lastRaw → rawScan s.cfg keys' ≠ rawScan s.cfg keys →
    (∀ n ∈ times, (n - t1).toNat < s.cfg.timing.debounce) →
    ∃ t, runOps ((.main, .kmScan t1 keys) :: (times.map (fun n => (.main, .kmScan n keys)) ++
        [(.main, .kmScan tEnd keys')])) s = .next t ∧
      t.km.stable = s.km.stable ∧ t.km.lastRaw = rawScan s.cfg keys' ∧ t.km.lastChange = tEnd

/-- R124, R128, R134: every code newly present in the stable pair, by membership, is emitted by the scan that promotes it
(R123, decisions D5, D14); every code a scan emits is either such a PRESS or the code of a hold slot whose deadline has come
(R127). The returned pair is exactly the first two events in R128's order: PRESSes in the order of the new stable pair, then
REPEATs in slot order, filling `b1` then `b2`, and 0 where there is none. That order is the spec's own decision D15. -/
def Obligations.PressEvents : Prop :=
  ∀ (s t : State) (now : U32) (keys : BitVec 16), exec (.kmScan now keys) s = .next t →
    (∀ c, newlyPressed s t c → emitted t c) ∧
    (∀ c, newlyPressed s t c → rawScan s.cfg keys = s.km.lastRaw ∧
      s.cfg.timing.debounce ≤ (now - s.km.lastChange).toNat) ∧
    (∀ c, c ≠ 0#8 → emitted t c → newlyPressed s t c ∨
      ∃ slot ∈ [s.km.slot0, s.km.slot1], slot.code = c ∧ t.km.stable.has c = true ∧
        0 ≤ (now - slot.nextRepeatAt).toInt) ∧
    t.ret = .scanned ((eventsInOrder s t now).getD 0 0#8) ((eventsInOrder s t now).getD 1 0#8)

/-- R129: between events the result is (0, 0): a scan that promotes no new code and in which no hold slot is due emits
nothing, whatever is held or released; and a held key whose code does not repeat is never emitted again. -/
def Obligations.HeldKeysAreSilent : Prop :=
  ∀ (s t : State) (now : U32) (keys : BitVec 16), s.km.Ok s.cfg → exec (.kmScan now keys) s = .next t →
    ((∀ c, ¬ newlyPressed s t c) →
      (∀ slot ∈ [s.km.slot0, s.km.slot1], slot.code ≠ 0#8 → (now - slot.nextRepeatAt).toInt < 0) →
      t.ret = .scanned 0#8 0#8) ∧
    (∀ c, s.km.stable.has c = true → s.cfg.repeatEn c = false → ¬ emitted t c)

/-- R126: in the scan whose stable pair lacks a held code, its slot is freed, the code is not emitted and no slot carries it;
the freed slot is all zeros unless a code newly pressed in this same scan takes it. -/
def Obligations.SlotRelease : Prop :=
  ∀ (s t : State) (now : U32) (keys : BitVec 16), exec (.kmScan now keys) s = .next t →
    ∀ p ∈ [(s.km.slot0, t.km.slot0), (s.km.slot1, t.km.slot1)],
      p.1.code ≠ 0#8 → t.km.stable.has p.1.code = false →
      ¬ emitted t p.1.code ∧ t.km.slot0.code ≠ p.1.code ∧ t.km.slot1.code ≠ p.1.code ∧
      (p.2 = { code := 0#8, pressedAt := 0#32, nextRepeatAt := 0#32 } ∨
        (newlyPressed s t p.2.code ∧ s.cfg.repeatEn p.2.code = true ∧ p.2.pressedAt = now))

/-- R125: a newly pressed repeat-enabled code always finds a free slot, which records the press and is first due
`REPEAT_DELAY_MS` later. -/
def Obligations.SlotCreation : Prop :=
  ∀ (s t : State) (now : U32) (keys : BitVec 16) (c : Byte), s.km.Ok s.cfg → s.cfg.keysOk = true →
    0 < s.cfg.timing.repeatDelay → s.cfg.timing.repeatDelay < 2 ^ 31 →
    exec (.kmScan now keys) s = .next t → newlyPressed s t c → s.cfg.repeatEn c = true →
    ∃ slot ∈ [t.km.slot0, t.km.slot1],
      slot = { code := c, pressedAt := now, nextRepeatAt := now + BitVec.ofNat 32 s.cfg.timing.repeatDelay }

/-- R127, R130: a held slot emits its code exactly in the scans at or after its deadline, and is then re-armed from that scan
(decision D16); the cap of two events never holds it back. -/
def Obligations.RepeatEvents : Prop :=
  ∀ (s t : State) (now : U32) (keys : BitVec 16), s.km.Ok s.cfg → s.cfg.keysOk = true →
    0 < s.cfg.timing.repeatDelay → s.cfg.timing.repeatDelay < 2 ^ 31 →
    exec (.kmScan now keys) s = .next t →
    ∀ p ∈ [(s.km.slot0, t.km.slot0), (s.km.slot1, t.km.slot1)],
      p.1.code ≠ 0#8 → t.km.stable.has p.1.code = true →
      (0 ≤ (now - p.1.nextRepeatAt).toInt → emitted t p.1.code ∧
        p.2 = { p.1 with nextRepeatAt := now + BitVec.ofNat 32 s.cfg.timing.repeatInterval }) ∧
      ((now - p.1.nextRepeatAt).toInt < 0 → ¬ emitted t p.1.code ∧ p.2 = p.1)

/-! ## Rotary switch (42_rotary.md) -/

/-- R142 with the decode of R140: a read that sees a position makes it the stable mode at once, whatever was stable or
pending; the lowest low line decides, and `ROT_MULTI` is raised when another is low too (decision D18). -/
def Obligations.IntoPositionIsImmediate : Prop :=
  ∀ (s : State) (now : U32) (rotN : BitVec 6) (i : Fin 6), s.ctx = .main → s.cfg.modesOk = true →
    rotN.getLsbD i.val = false → (∀ j : Fin 6, j < i → rotN.getLsbD j.val = true) →
    exec (.rmRead now rotN) s = .next
      { s with
        rm := { s.rm with stable := s.cfg.modeCode[i], offPending := false }
        log := s.log ++ (if ∃ j : Fin 6, i < j ∧ rotN.getLsbD j.val = false then [.raised .rotMulti] else [])
        ret := .modeRead s.cfg.modeCode[i] (decide (s.cfg.modeCode[i] ≠ s.rm.stable)) }

/-- R141, R143: with all lines high, off is accepted only by a read at least `ROT_SETTLE_MS` after the read that first saw
it; until then the stable mode is returned. -/
def Obligations.OffOnlyAfterSettling : Prop :=
  ∀ (s : State) (now : U32), s.ctx = .main →
    (s.rm.stable = s.cfg.modeOff →
      exec (.rmRead now 0b111111#6) s = .next
        { s with rm := { s.rm with offPending := false }, ret := .modeRead s.cfg.modeOff false }) ∧
    (s.rm.stable ≠ s.cfg.modeOff → s.rm.offPending = false →
      exec (.rmRead now 0b111111#6) s = .next
        { s with rm := { s.rm with offPending := true, offSince := now }, ret := .modeRead s.rm.stable false }) ∧
    (s.rm.stable ≠ s.cfg.modeOff → s.rm.offPending = true →
      exec (.rmRead now 0b111111#6) s = .next
        (if s.cfg.timing.rotSettle ≤ (now - s.rm.offSince).toNat then
          { s with rm := { s.rm with stable := s.cfg.modeOff, offPending := false }, ret := .modeRead s.cfg.modeOff true }
        else { s with ret := .modeRead s.rm.stable false }))

/-- R144: a switch at position `i` that reads as open any number of times for less than `ROT_SETTLE_MS` never reports off,
and its return to `i` reports no change. -/
def Obligations.RotaryFlickerNeverReportsOff : Prop :=
  ∀ (s : State) (i : Fin 6) (t1 tBack : U32) (times : List U32) (rotN : BitVec 6), s.cfg.modesOk = true →
    s.rm.stable = s.cfg.modeCode[i] → s.rm.offPending = false →
    (∀ n ∈ times, (n - t1).toNat < s.cfg.timing.rotSettle) →
    rotN.getLsbD i.val = false → (∀ j : Fin 6, j < i → rotN.getLsbD j.val = true) →
    (∃ u, runOps ((.main, .rmRead t1 0b111111#6) :: times.map (fun n => (.main, .rmRead n 0b111111#6))) s = .next u ∧
      u.ret = .modeRead s.cfg.modeCode[i] false ∧ u.rm.stable = s.cfg.modeCode[i]) ∧
    (∃ u, runOps ((.main, .rmRead t1 0b111111#6) :: (times.map (fun n => (.main, .rmRead n 0b111111#6)) ++
        [(.main, .rmRead tBack rotN)])) s = .next u ∧
      u.ret = .modeRead s.cfg.modeCode[i] false ∧ u.rm.stable = s.cfg.modeCode[i] ∧ u.rm.offPending = false)

/-! ## Inbound report (43_reassembler.md) -/

/-- R151: a marker chunk, synced or not, discards the partial report and is itself stored at the start of a new one; every
other byte of the buffers stays. -/
def Obligations.MarkerRestartsReport : Prop :=
  ∀ (s : State) (tail : BitVec 40) (i : Instr), mayIssue s.cfg s.ctx i = true → s.buf.Ok s.cfg →
    chunkLen < s.cfg.reportLen → (i = .rxChunk (tail ++ 0xFDFE#16) ∨ i = .rxcSync tail) →
    ∃ b, exec i s = .next
        { s with
          rx := { offset := 7, syncFound := true }
          buf := { s.buf with scr := b }
          log := s.log ++ (if s.rx.syncFound then [.raised (.rxResync s.rx.offset)] else []) } ∧
      ∀ a, b.get a =
        if a = 0 then 0xFE#8 else if a = 1 then 0xFD#8 else if a < 7 then tail.extractLsb' (8 * (a - 2)) 8
        else s.byteAt .scr a

/-- R150 steps 2 and 3: while synced a data chunk is stored at the offset, which moves by 7; a chunk that does not complete
the report changes no other byte and puts nothing out. -/
def Obligations.DataChunkIsStored : Prop :=
  ∀ (s : State) (c : Chunk) (i : Instr), mayIssue s.cfg s.ctx i = true → s.buf.Ok s.cfg →
    c.extractLsb' 0 16 ≠ 0xFDFE#16 → s.rx.syncFound = true → s.rx.offset + 7 ≤ 42 → s.rx.offset + 7 < s.cfg.reportLen →
    (i = .rxChunk c ∨ i = .rxcData c) →
    ∃ b, exec i s = .next
        { s with rx := { s.rx with offset := s.rx.offset + 7 }, buf := { s.buf with scr := b } } ∧
      ∀ a, b.get a =
        if s.rx.offset ≤ a ∧ a < s.rx.offset + 7 then c.extractLsb' (8 * (a - s.rx.offset)) 8 else s.byteAt .scr a

/-- R150 step 2 and R152: a data chunk is discarded whole while not synced; one that would pass byte 41 of the scratch
buffer is discarded and sync is dropped (decision D21). No byte changes. -/
def Obligations.DiscardedChunks : Prop :=
  ∀ (s : State) (c : Chunk) (i : Instr), mayIssue s.cfg s.ctx i = true → c.extractLsb' 0 16 ≠ 0xFDFE#16 →
    (i = .rxChunk c ∨ i = .rxcData c) →
    (s.rx.syncFound = false → exec i s = .next { s with log := s.log ++ [.raised .rxNoSync] }) ∧
    (s.rx.syncFound = true → 42 < s.rx.offset + 7 →
      exec i s = .next
        { s with rx := { s.rx with syncFound := false }, log := s.log ++ [.raised (.rxOverflow s.rx.offset)] })

/-- R154, R155: the chunk that brings the offset to the report's length completes the report: the bytes below that length
become the shared report in the same operation, the day key is taken from it, sync is cleared, the offset stays, and
`notify_status` pulses once. -/
def Obligations.ReportCompletes : Prop :=
  ∀ (s : State) (c : Chunk) (i : Instr), mayIssue s.cfg s.ctx i = true → s.buf.Ok s.cfg → s.cfg.wf = true →
    c.extractLsb' 0 16 ≠ 0xFDFE#16 → s.rx.syncFound = true → s.rx.offset + 7 ≤ 42 → s.cfg.reportLen ≤ s.rx.offset + 7 →
    (i = .rxChunk c ∨ i = .rxcData c) →
    ∃ b r, exec i s = .next
        { s with
          rx := { offset := s.rx.offset + 7, syncFound := false }
          buf := { s.buf with scr := b, shr := r }
          shr := { valid := true, dayKey := b.get s.cfg.layout.dayKey.val }
          log := s.log ++ [.notifyStatus] } ∧
      (∀ a, b.get a =
        if s.rx.offset ≤ a ∧ a < s.rx.offset + 7 then c.extractLsb' (8 * (a - s.rx.offset)) 8 else s.byteAt .scr a) ∧
      ∀ a, r.get a = if a < s.cfg.reportLen then b.get a else 0#8

/-- R153: with `REPORT_LEN` no more than the scratch buffer the overflow guard never fires, in any state that holds what
every step keeps. -/
def Obligations.OverflowNeverRaised : Prop :=
  ∀ (s t : State) (i : Instr), s.Inv → exec i s = .next t → ∀ n, Emission.raised (.rxOverflow n) ∉ newOutputs s t

/-- R157: a marker chunk in mid-report, or at any other time, followed by five data chunks, publishes the report those six
chunks carry; nothing of the interrupted one is published. The offset left at 42 is R154's decision D22, the valid flag
decision D23. -/
def Obligations.MarkerMidReportRestarts : Prop :=
  ∀ (s : State) (c0 c1 c2 c3 c4 c5 : Chunk), s.buf.Ok s.cfg → s.cfg.reportLen = 37 →
    c0.extractLsb' 0 16 = 0xFDFE#16 → (∀ c ∈ [c1, c2, c3, c4, c5], c.extractLsb' 0 16 ≠ 0xFDFE#16) →
    ∃ t, runOps ([c0, c1, c2, c3, c4, c5].map fun c => (rxContextOf s.cfg, .rxChunk c)) s = .next t ∧
      (∀ a, a < 37 → t.byteAt .shr a = (c5 ++ c4 ++ c3 ++ c2 ++ c1 ++ c0).extractLsb' (8 * a) 8) ∧
      t.shr.valid = true ∧ t.rx = { offset := 42, syncFound := false } ∧
      newOutputs s t = (if s.rx.syncFound then [.raised (.rxResync s.rx.offset)] else []) ++ [.notifyStatus]

/-- R161: the 37 bytes of a report in the layout of 30_encoding.md R74 (decision D20), split into 7-byte chunks, reconstruct
the same fields, from any state; the chunks after the first must not begin with the marker (R158, R236). -/
def Obligations.ReportRoundTrip : Prop :=
  ∀ (s : State) (r : InboundReport), s.buf.Ok s.cfg → s.cfg.reportLen = 37 → s.cfg.layout = {} →
    (∀ k ∈ [7, 14, 21, 28, 35],
      ((encodeReport r).getD k 0#8, (encodeReport r).getD (k + 1) 0#8) ≠ (0xFE#8, 0xFD#8)) →
    ∃ t, runOps ((reportChunks (encodeReport r)).map fun c => (rxContextOf s.cfg, .rxChunk c)) s = .next t ∧
      State.visibleReport t = some r ∧ t.shr.dayKey = r.dayKey

/-- R61: no operation writes part of the shared report: it is left whole, or replaced wholesale together with its day key
and its valid flag by a chunk that completes a report and notifies. -/
def Obligations.ShrReplacedWholesale : Prop :=
  ∀ (s t : State) (i : Instr), s.buf.Ok s.cfg → exec i s = .next t →
    (t.shr = s.shr ∧ t.buf.shr = s.buf.shr) ∨
    (isChunkOp i = true ∧ t.shr = { valid := true, dayKey := t.byteAt .scr s.cfg.layout.dayKey.val } ∧
      (∀ a, a < s.cfg.reportLen → t.byteAt .shr a = t.byteAt .scr a) ∧ .notifyStatus ∈ newOutputs s t)

/-- R75, R76: the fields of the visible report are views of its bytes, whatever those are: a fraction is a sign bit and a 15-bit
magnitude, and the step code is a low nibble. That two bytes make a little-endian number is the spec's own decision D20
(20_memory.md R54, 30_encoding.md R74). -/
def Obligations.ReportFieldViews : Prop :=
  ∀ (s : State) (r : InboundReport), State.visibleReport s = some r →
    (∀ i : Fin 6,
      (r.axes[i].integerPart).toNat =
        (s.byteAt .shr (s.cfg.layout.axisInteger[i].val)).toNat +
          256 * (s.byteAt .shr (s.cfg.layout.axisInteger[i].val + 1)).toNat ∧
      (r.axes[i].fractionalPart).toNat =
        (s.byteAt .shr (s.cfg.layout.axisFraction[i].val)).toNat +
          256 * (s.byteAt .shr (s.cfg.layout.axisFraction[i].val + 1)).toNat ∧
      r.axes[i].magnitude.toNat = r.axes[i].fractionalPart.toNat % 2 ^ 15 ∧
      (r.axes[i].sign = true ↔ 2 ^ 15 ≤ r.axes[i].fractionalPart.toNat)) ∧
    r.stepMultiplier = s.byteAt .shr s.cfg.layout.stepMultiplier.val ∧
    r.stepCode.toNat = r.stepMultiplier.toNat % 16

/-! ## Scheduler (44_scheduler.md) -/

/-- R166: the flush that a mode change requested, otherwise nothing (decision D32). -/
def Obligations.PhEncoderFlushes : Prop :=
  ∀ s : State, s.ctx = .main →
    exec .phEncoder s = .next
      (if s.sch.flushPending then
        { s with
          acc := 0#32
          qs := { s.qs with res := 0#32, dataReady := false }
          sch := { s.sch with flushPending := false } }
      else s)

/-- R167: at the scan cadence a scan runs and its events become the current pair; the flag is set when the pair differs from
the last-sent pair and is otherwise left (decision D31); before the cadence nothing changes. -/
def Obligations.PhButtonsScans : Prop :=
  ∀ (s : State) (now : U32) (keys : BitVec 16), s.ctx = .main →
    ((now - s.sch.lastScan).toNat < s.cfg.timing.scanInterval → exec (.phButtons now keys) s = .next s) ∧
    (s.cfg.timing.scanInterval ≤ (now - s.sch.lastScan).toNat →
      ∃ u b1 b2, exec (.kmScan now keys) s = .next u ∧ u.ret = .scanned b1 b2 ∧
        exec (.phButtons now keys) s = .next
          { u with
            ret := s.ret
            sch := { s.sch with
              btn1 := b1, btn2 := b2, lastScan := now
              buttonChanged := s.sch.buttonChanged || decide (b1 ≠ s.sch.sentBtn1) || decide (b2 ≠ s.sch.sentBtn2) } })

/-- R168: at the poll cadence a read runs; an accepted change sets the two flags, drops the pending wheel (R169, decision
D28) and notifies with the new mode; before the cadence nothing changes. -/
def Obligations.PhRotaryReads : Prop :=
  ∀ (s : State) (now : U32) (rotN : BitVec 6), s.ctx = .main →
    ((now - s.sch.lastRot).toNat < s.cfg.timing.rotPoll → exec (.phRotary now rotN) s = .next s) ∧
    (s.cfg.timing.rotPoll ≤ (now - s.sch.lastRot).toNat →
      ∃ u mode changed, exec (.rmRead now rotN) s = .next u ∧ u.ret = .modeRead mode changed ∧ mode = u.rm.stable ∧
        exec (.phRotary now rotN) s = .next
          (if changed then
            { u with
              ret := s.ret
              sch := { s.sch with lastRot := now, modeChanged := true, flushPending := true, wheel := 0#8 }
              log := u.log ++ [.notifyMode mode] }
          else { u with ret := s.ret, sch := { s.sch with lastRot := now } }))

/-- R81: the speed code of every value under the default breakpoints. -/
def Obligations.SpeedCodeTable : Prop :=
  ∀ v : I32,
    (speedMap {} v).toInt =
      (if v.toInt < 0 then -1 else 1) *
        (if v.toInt.natAbs ≤ 2 then 1 else if v.toInt.natAbs ≤ 3 then 2 else if v.toInt.natAbs ≤ 5 then 3
          else if v.toInt.natAbs ≤ 8 then 6 else if v.toInt.natAbs ≤ 10 then 10 else if v.toInt.natAbs ≤ 15 then 20
          else if v.toInt.natAbs ≤ 20 then 30 else 50) ∧
    -127 ≤ (speedMap {} v).toInt ∧ (speedMap {} v).toInt ≤ 127

/-- R170: the map is monotonic in the magnitude and keeps the sign, so a value that is not 0 has a code that is not 0. -/
def Obligations.SpeedCodeMonotone : Prop :=
  (∀ v1 v2 : I32, v1.toInt.natAbs ≤ v2.toInt.natAbs →
    (speedMap {} v1).toInt.natAbs ≤ (speedMap {} v2).toInt.natAbs) ∧
  ∀ v : I32, v ≠ 0#32 → (speedMap {} v).toInt.sign = v.toInt.sign

/-- R172, R173: a phase USB_SEND that wants no send, or is held back by the interval, still takes the motion and keeps its
speed code; it changes nothing else (decisions D26 to D28). -/
def Obligations.UsbSendHeldBack : Prop :=
  ∀ (s : State) (now : U32) (tr : BitVec 2), s.ctx = .main → ¬ sendWanted s now →
    exec (.phUsbSend now tr) s = .next (takenState s)

/-- R172, R175, R176: a wanted send that the floor lets pass and the transport accepts hands over the report composed from
the current state, takes the snapshot and clears the flags and the pending wheel. -/
def Obligations.UsbSendAccepted : Prop :=
  ∀ (s : State) (now : U32), s.ctx = .main → s.buf.Ok s.cfg → sendWanted s now →
    s.cfg.timing.txFloor ≤ (now - s.txLast).toNat →
    ∃ b, exec (.phUsbSend now 0#2) s = .next
        { takenState s with
          sch := { s.sch with
            sentBtn1 := s.sch.btn1, sentBtn2 := s.sch.btn2, sentMode := s.rm.stable, sentWheel := wheelAfter s
            lastSend := now, buttonChanged := false, modeChanged := false, wheel := 0#8 }
          txLast := now
          buf := { s.buf with out := b }
          log := s.log ++ [.txReq (reportWith s (wheelAfter s))] } ∧
      ∀ a, b.get a = (reportWith s (wheelAfter s)).getD a 0#8

/-- R172, R176: a wanted send that the transport refuses (busy, failure or the reserved answer) offers the report and leaves
the state for the next round; one inside the floor does not offer it. -/
def Obligations.UsbSendRefused : Prop :=
  ∀ (s : State) (now : U32) (tr : BitVec 2), s.ctx = .main → s.buf.Ok s.cfg → sendWanted s now →
    (s.cfg.timing.txFloor ≤ (now - s.txLast).toNat → tr ≠ 0#2 →
      ∃ b, exec (.phUsbSend now tr) s = .next
          { takenState s with
            buf := { s.buf with out := b }
            log := s.log ++ [.txReq (reportWith s (wheelAfter s)), .raised (if tr = 1#2 then .txBusy else .txFailure)] } ∧
        ∀ a, b.get a = (reportWith s (wheelAfter s)).getD a 0#8) ∧
    ((now - s.txLast).toNat < s.cfg.timing.txFloor →
      ∃ b, exec (.phUsbSend now tr) s = .next
          { takenState s with buf := { s.buf with out := b }, log := s.log ++ [.raised .txFloor] } ∧
        ∀ a, b.get a = (reportWith s (wheelAfter s)).getD a 0#8)

/-- R79: in every report the scheduler offers, `xor_day` is the visible report's day key, 0 before any report, XOR the
`btn1` byte of that same report. -/
def Obligations.XorDayAtSend : Prop :=
  ∀ (s t : State) (i : Instr) (report : List Byte), s.Inv → phaseRun i s = some 3#2 → exec i s = .next t →
    .txReq report ∈ newOutputs s t →
    report.getD 5 0#8 = t.shr.dayKey ^^^ report.getD 1 0#8 ∧ (t.shr.valid = false → t.shr.dayKey = 0#8)

/-- R80: under the default breakpoints the pending and the last-sent wheel only ever hold 0 or plus or minus 1, 2, 3, 6, 10,
20, 30 or 50, and so does the wheel byte of every report the scheduler offers. -/
def Obligations.WheelHoldsOnlySpeedCodes : Prop :=
  (∀ s t : State, s.cfg.speed = {} → isSpeedCode s.sch.wheel → isSpeedCode s.sch.sentWheel → step s = .next t →
    isSpeedCode t.sch.wheel ∧ isSpeedCode t.sch.sentWheel) ∧
  (∀ (s t : State) (i : Instr) (report : List Byte), s.cfg.speed = {} → s.buf.Ok s.cfg → isSpeedCode s.sch.wheel →
    phaseRun i s = some 3#2 → exec i s = .next t → .txReq report ∈ newOutputs s t → isSpeedCode (report.getD 4 0#8))

/-- R174: when `KEEPALIVE_MS` has passed since the last send, phase USB_SEND offers a report of the current state whatever
else holds; the time of the last send moves only on success. The premises on the configuration hold of the defaults: the
keepalive is no shorter than any interval. -/
def Obligations.KeepaliveSends : Prop :=
  ∀ (s : State) (now : U32) (tr : BitVec 2), s.ctx = .main → s.buf.Ok s.cfg →
    s.cfg.timing.keepalive ≤ (now - s.sch.lastSend).toNat → s.cfg.timing.txFloor ≤ (now - s.txLast).toNat →
    s.cfg.timing.minIvFast ≤ s.cfg.timing.keepalive → s.cfg.timing.minIvMid ≤ s.cfg.timing.keepalive →
    s.cfg.timing.minIvSlow ≤ s.cfg.timing.keepalive →
    ∃ t, exec (.phUsbSend now tr) s = .next t ∧ .txReq (reportWith s (wheelAfter s)) ∈ newOutputs s t ∧
      t.sch.lastSend = if tr = 0#2 then now else s.sch.lastSend

/-- R169, R179: from an accepted mode change until the flush, no operation takes motion into the wheel: the pending wheel
stays 0, every report the scheduler offers carries wheel 0, and the request ends only with the accumulator and the residue
both 0 (decision D28). -/
def Obligations.NoMotionAcrossModeChange : Prop :=
  ∀ (s t : State) (i : Instr), s.Inv → s.sch.flushPending = true → exec i s = .next t →
    t.sch.wheel = 0#8 ∧
    (t.sch.flushPending = false → t.acc = 0#32 ∧ t.qs.res = 0#32) ∧
    (∀ report, phaseRun i s = some 3#2 → .txReq report ∈ newOutputs s t → report.getD 4 0#8 = 0#8)

/-- R176: the send primitive: the floor first, then one offer of the bytes of `OUT`; a failure and the reserved answer
count as busy (decisions D29, D30). -/
def Obligations.TxSendResults : Prop :=
  ∀ (s : State) (now : U32) (tr : BitVec 2), s.ctx = .main →
    exec (.txSend now tr) s = .next
      (if (now - s.txLast).toNat < s.cfg.timing.txFloor then
        { s with log := s.log ++ [.raised .txFloor], ret := .sent .busy }
      else if tr = 0#2 then
        { s with
          txLast := now
          log := s.log ++ [.txReq ((List.range s.cfg.outLen).map (s.byteAt .out))]
          ret := .sent .success }
      else
        { s with
          log := s.log ++ [.txReq ((List.range s.cfg.outLen).map (s.byteAt .out)),
            .raised (if tr = 1#2 then .txBusy else .txFailure)]
          ret := .sent .busy })

/-- R44, R177: while the scheduler is the only caller of the send primitive the two send times agree, and the floor, being no
longer than any interval, never fires. -/
def Obligations.FloorIsShadowed : Prop :=
  ∀ (s t : State) (i : Instr), s.txLast = s.sch.lastSend → ¬ isSendOp i →
    s.cfg.timing.txFloor ≤ s.cfg.timing.minIvFast → s.cfg.timing.txFloor ≤ s.cfg.timing.minIvMid →
    s.cfg.timing.txFloor ≤ s.cfg.timing.minIvSlow → exec i s = .next t →
    t.txLast = t.sch.lastSend ∧ .raised .txFloor ∉ newOutputs s t

/-! ## Who writes what (10_state.md) -/

/-- R35: only `SCH.STEP`, through its phase bodies and the send primitive, writes the scheduler's registers. -/
def Obligations.SchedulerRegistersHaveOneWriter : Prop :=
  ∀ (s t : State) (i : Instr), exec i s = .next t → phaseRun i s = none →
    t.sch = s.sch ∧ (¬ isSendOp i → t.txLast = s.txLast)

/-- R48: every register of the other components is written only by the operations its row names, called directly or by the
phase that runs them. -/
def Obligations.ComponentRegistersHaveTheirWriters : Prop :=
  ∀ (s t : State) (i : Instr), exec i s = .next t →
    (t.qs.prev ≠ s.qs.prev → ∃ cnt, i = .qsTick cnt) ∧
    (t.qs.res ≠ s.qs.res → (∃ cnt, i = .qsTick cnt) ∨ i = .accFlush ∨ phaseRun i s = some 0#2) ∧
    (t.acc ≠ s.acc → (∃ cnt, i = .qsTick cnt) ∨ (∃ d, i = .accAdd d) ∨ i = .accTake ∨ i = .accFlush ∨
      phaseRun i s = some 0#2 ∨ phaseRun i s = some 3#2) ∧
    (t.km ≠ s.km → (∃ now keys, i = .kmScan now keys) ∨ phaseRun i s = some 1#2) ∧
    (t.rm ≠ s.rm → (∃ now rotN, i = .rmRead now rotN) ∨ phaseRun i s = some 2#2) ∧
    ((t.rx ≠ s.rx ∨ t.shr ≠ s.shr) → isChunkOp i = true) ∧
    (t.txLast ≠ s.txLast → isSendOp i ∨ phaseRun i s = some 3#2) ∧
    t.cfg = s.cfg ∧ t.ctx = s.ctx ∧ t.inputs = s.inputs

/-- R46: the one-bit state: each flag is set and cleared only by the operations named for it, `SHR.valid` is never cleared,
and all are 0 at reset. -/
def Obligations.FlagsChangeOnlyByTheirRules : Prop :=
  (∀ (s t : State) (i : Instr), exec i s = .next t →
    (s.qs.dataReady = false → t.qs.dataReady = true → ∃ cnt, i = .qsTick cnt) ∧
    (s.qs.dataReady = true → t.qs.dataReady = false →
      i = .accTake ∨ i = .accFlush ∨ phaseRun i s = some 0#2 ∨ phaseRun i s = some 3#2) ∧
    (t.rm.offPending ≠ s.rm.offPending → (∃ now rotN, i = .rmRead now rotN) ∨ phaseRun i s = some 2#2) ∧
    (t.rx.syncFound ≠ s.rx.syncFound → isChunkOp i = true) ∧
    (s.shr.valid = true → t.shr.valid = true) ∧ (t.shr.valid ≠ s.shr.valid → isChunkOp i = true) ∧
    (s.sch.flushPending = false → t.sch.flushPending = true → phaseRun i s = some 2#2) ∧
    (s.sch.flushPending = true → t.sch.flushPending = false → phaseRun i s = some 0#2) ∧
    (s.sch.buttonChanged = false → t.sch.buttonChanged = true → phaseRun i s = some 1#2) ∧
    (s.sch.buttonChanged = true → t.sch.buttonChanged = false → phaseRun i s = some 3#2) ∧
    (s.sch.modeChanged = false → t.sch.modeChanged = true → phaseRun i s = some 2#2) ∧
    (s.sch.modeChanged = true → t.sch.modeChanged = false → phaseRun i s = some 3#2)) ∧
  (∀ (cfg : Config) (cnt : U16),
    (State.resetOf cfg cnt).qs.dataReady = false ∧ (State.resetOf cfg cnt).rm.offPending = false ∧
    (State.resetOf cfg cnt).rx.syncFound = false ∧ (State.resetOf cfg cnt).shr.valid = false ∧
    (State.resetOf cfg cnt).sch.flushPending = false ∧ (State.resetOf cfg cnt).sch.buttonChanged = false ∧
    (State.resetOf cfg cnt).sch.modeChanged = false)

/-- 20_memory.md R50: the scratch buffer and the shared report are written only by chunks, the outbound buffer only by phase
USB_SEND; every other operation leaves every byte of every buffer as it was. -/
def Obligations.BuffersHaveOneWriter : Prop :=
  ∀ (s t : State) (i : Instr), exec i s = .next t →
    (isChunkOp i = false → ∀ a, t.byteAt .scr a = s.byteAt .scr a ∧ t.byteAt .shr a = s.byteAt .shr a) ∧
    (phaseRun i s ≠ some 3#2 → ∀ a, t.byteAt .out a = s.byteAt .out a)

/-! ## The whole machine -/

/-- What reset leaves (10_state.md R48, 20_memory.md R52, 70_reset_and_hazards.md R221): the phase is ENCODER, the one value
the source states; the other values are the spec's own decisions (D11, D19, D23, D33); the fields of the model's own are
its choice (notes/assumptions/22.md). -/
def Obligations.ResetLeavesTheSpecsValues : Prop :=
  ∀ (cfg : Config) (cnt : U16),
    (State.resetOf cfg cnt).sch = {
      phase := 0#2, flushPending := false, lastScan := 0#32, lastRot := 0#32, lastSend := 0#32
      btn1 := 0#8, btn2 := 0#8, buttonChanged := false, modeChanged := false, wheel := 0#8
      sentBtn1 := 0#8, sentBtn2 := 0#8, sentMode := cfg.modeOff, sentWheel := 0#8 } ∧
    (State.resetOf cfg cnt).qs = { prev := cnt, res := 0#32, dataReady := false } ∧
    (State.resetOf cfg cnt).acc = 0#32 ∧
    (State.resetOf cfg cnt).km = {
      lastRaw := ⟨0#8, 0#8⟩, lastChange := 0#32, stable := ⟨0#8, 0#8⟩
      slot0 := ⟨0#8, 0#32, 0#32⟩, slot1 := ⟨0#8, 0#32, 0#32⟩ } ∧
    (State.resetOf cfg cnt).rm = { stable := cfg.modeOff, offPending := false, offSince := 0#32 } ∧
    (State.resetOf cfg cnt).rx = { offset := 0, syncFound := false } ∧
    (State.resetOf cfg cnt).shr = { valid := false, dayKey := 0#8 } ∧
    (State.resetOf cfg cnt).txLast = 0#32 ∧
    (∀ sp a, (State.resetOf cfg cnt).byteAt sp a = 0#8) ∧
    State.reset = State.resetOf Config.cfg0 0#16

/-- What every step keeps holds after reset, in every configuration that meets its constraints (R225). -/
def Obligations.ResetMeetsTheInvariant : Prop :=
  (∀ (cfg : Config) (cnt : U16), cfg.wf = true → (State.resetOf cfg cnt).Inv) ∧ State.reset.Inv

/-- Every step keeps the invariant: the configuration's constraints; residue in [-3, 3] (R107); pairs and hold slots as R15,
R29 and R130 say; a legal mode, pending only outside off (R30, R31); an offset that is a multiple of 7, below the report's
length while synced (R32, R153); buffers canonical and inside their bounds (R50); nothing visible before the first report
(R51); the wheel in [-127, 127] and 0 while a flush is pending (R41, R169). -/
def Obligations.StepKeepsTheInvariant : Prop :=
  ∀ s t : State, s.Inv → step s = .next t → t.Inv

/-- R89: `NOP` changes nothing, whoever issues it; the codes 0xA to 0xF are refused. -/
def Obligations.NopAndReservedCodes : Prop :=
  (∀ s : State, exec .nop s = .next s) ∧
  (∀ s : State,
    exec .reservedA s = .refused (.reservedOperation 0xA#4) ∧ exec .reservedB s = .refused (.reservedOperation 0xB#4) ∧
    exec .reservedC s = .refused (.reservedOperation 0xC#4) ∧ exec .reservedD s = .refused (.reservedOperation 0xD#4) ∧
    exec .reservedE s = .refused (.reservedOperation 0xE#4) ∧ exec .reservedF s = .refused (.reservedOperation 0xF#4))

/-- R195, R205: every operation is total: issued by a context that may issue it, it completes, on every value of its
operands; issued by another it is refused; no operation faults. -/
def Obligations.OperationsAreTotal : Prop :=
  ∀ (s : State) (i : Instr), s.cfg.reportLenOk = true →
    (mayIssue s.cfg s.ctx i = true → ∃ t, exec i s = .next t) ∧
    (mayIssue s.cfg s.ctx i = false → ∃ r, exec i s = .refused r ∧
      (r = .wrongContext s.ctx ∨ ∃ code, r = .reservedOperation code)) ∧
    ∀ f, exec i s ≠ .fault f

/-- R205: which contexts may issue which operation: the tick and the add the interrupt, a chunk `RX`, `NOP` any, a reserved
code none, everything else the main context. R205 says of `RX` only 'MAIN or THIRD'; that a chunk is accepted from the one of
them that `RX_CONTEXT` names is the model's inference from 00_scope.md R8 and 20_memory.md R60 (notes/assumptions/7.md). -/
def Obligations.ContextsMayIssueOnlyTheirOwn : Prop :=
  ∀ (s t : State) (i : Instr), exec i s = .next t →
    (s.ctx = .isr → i = .nop ∨ (∃ cnt, i = .qsTick cnt) ∨ ∃ d, i = .accAdd d) ∧
    (s.ctx = .third → i = .nop ∨ (isChunkOp i = true ∧ s.cfg.rxContext = .third)) ∧
    (s.ctx = .main → (∀ cnt, i ≠ .qsTick cnt) ∧ (∀ d, i ≠ .accAdd d) ∧
      (isChunkOp i = true → s.cfg.rxContext = .main))

/-- R225, 10_state.md R49: no step changes the configuration. That a step only appends to the record of outputs is the model's
choice: the record is its own (notes/assumptions/9.md), and a reset by a port sample keeps it (notes/assumptions/12.md). -/
def Obligations.ConfigurationNeverChanges : Prop :=
  ∀ s t : State, step s = .next t → t.cfg = s.cfg ∧ ∃ new, t.log = s.log ++ new
end

