-- ==== Sys2Proof/Laws/Memory.lean ====
section
/-! SUPPORT. The laws of one buffer's contents: reads after writes, the canonical form, and extensionality. -/

namespace Sys2Proof.Machine.Memory

theorem wfFrom_mono {lo lo' : Nat} {m : Memory} (h : Memory.wfFrom lo m = true) (hl : lo' ≤ lo) :
    Memory.wfFrom lo' m = true := by
  cases m with
  | nil => rfl
  | cons c rest =>
    simp only [Memory.wfFrom, Bool.and_eq_true, decide_eq_true_eq] at h ⊢
    exact ⟨⟨by omega, h.1.2⟩, h.2⟩

/-- A byte below the first listed offset reads as 0. -/
theorem get_below {lo a : Nat} {m : Memory} (h : Memory.wfFrom lo m = true) (ha : a < lo) : Memory.get m a = 0#8 := by
  induction m generalizing lo with
  | nil => rfl
  | cons c rest ih =>
    simp only [Memory.wfFrom, Bool.and_eq_true, decide_eq_true_eq] at h
    have hne : c.1 ≠ a := by omega
    simp only [Memory.get, if_neg hne]
    exact ih h.2 (by omega)

theorem wfFrom_set {lo a : Nat} {m : Memory} (v : Byte) (h : Memory.wfFrom lo m = true) (ha : lo ≤ a) :
    Memory.wfFrom lo (Memory.set m a v) = true := by
  induction m generalizing lo with
  | nil =>
    by_cases hv : v = 0#8
    · simp [Memory.set, hv, Memory.wfFrom]
    · simp [Memory.set, hv, Memory.wfFrom, ha]
  | cons c rest ih =>
    obtain ⟨b, w⟩ := c
    simp only [Memory.wfFrom, Bool.and_eq_true, decide_eq_true_eq] at h
    unfold Memory.set
    split
    · split
      · simp [Memory.wfFrom, h]
      · next hab hv =>
        simp only [Memory.wfFrom, Bool.and_eq_true, decide_eq_true_eq]
        exact ⟨⟨ha, hv⟩, ⟨by omega, h.1.2⟩, h.2⟩
    · split
      · split
        · exact wfFrom_mono h.2 (by omega)
        · next hab hv =>
          simp only [Memory.wfFrom, Bool.and_eq_true, decide_eq_true_eq]
          exact ⟨⟨ha, hv⟩, by simpa [‹a = b›] using h.2⟩
      · simp only [Memory.wfFrom, Bool.and_eq_true, decide_eq_true_eq]
        exact ⟨h.1, ih h.2 (by omega)⟩

/-- Storing a byte keeps the canonical form. -/
theorem wf_set {m : Memory} (a : Nat) (v : Byte) (h : m.wf = true) : (Memory.set m a v).wf = true :=
  wfFrom_set v h (Nat.zero_le a)

/-- A read after a write: the byte written, and every other byte as before. -/
theorem get_set_from {lo a b : Nat} {m : Memory} (v : Byte) (h : Memory.wfFrom lo m = true) :
    Memory.get (Memory.set m a v) b = if a = b then v else Memory.get m b := by
  induction m generalizing lo with
  | nil => by_cases hv : v = 0#8 <;> simp [Memory.set, Memory.get, hv]
  | cons c rest ih =>
    obtain ⟨x, w⟩ := c
    simp only [Memory.wfFrom, Bool.and_eq_true, decide_eq_true_eq] at h
    unfold Memory.set
    split
    · next hax =>
      split
      · next hv =>
        by_cases hab : a = b
        · have hne : x ≠ b := by omega
          simp [Memory.get, hab, hv, if_neg hne, get_below h.2 (show b < x + 1 by omega)]
        · simp [hab]
      · by_cases hab : a = b <;> simp [Memory.get, hab]
    · split
      · next hax =>
        subst hax
        split
        · next hv =>
          by_cases hab : a = b
          · subst hab; simp [hv, get_below h.2 (show a < a + 1 by omega)]
          · simp [Memory.get, hab]
        · by_cases hab : a = b <;> simp [Memory.get, hab]
      · next hax =>
        by_cases hxb : x = b
        · have hab : a ≠ b := by omega
          simp [Memory.get, hxb, hab]
        · simp [Memory.get, hxb, ih h.2]

theorem get_set {m : Memory} (a b : Nat) (v : Byte) (h : m.wf = true) :
    (Memory.set m a v).get b = if a = b then v else m.get b := get_set_from v h

theorem wf_setBytes {m : Memory} (a : Nat) (bs : List Byte) (h : m.wf = true) : (m.setBytes a bs).wf = true := by
  induction bs generalizing m a with
  | nil => exact h
  | cons v rest ih => exact ih (a + 1) (wf_set a v h)

/-- Reads after storing consecutive bytes. -/
theorem get_setBytes {m : Memory} (a b : Nat) (bs : List Byte) (h : m.wf = true) :
    (m.setBytes a bs).get b = if a ≤ b ∧ b < a + bs.length then bs.getD (b - a) 0#8 else m.get b := by
  induction bs generalizing m a with
  | nil => simp [Memory.setBytes]
  | cons v rest ih =>
    simp only [Memory.setBytes, ih (a + 1) (wf_set a v h), get_set a b v h, List.length_cons]
    by_cases hab : a = b
    · subst hab; simp
    · by_cases hin : a + 1 ≤ b ∧ b < a + 1 + rest.length
      · have h1 : a ≤ b ∧ b < a + (rest.length + 1) := by omega
        have h2 : b - a = (b - (a + 1)) + 1 := by omega
        simp [hin, h1, h2]
      · have h1 : ¬ (a ≤ b ∧ b < a + (rest.length + 1)) := by omega
        rw [if_neg hin, if_neg h1, if_neg hab]

@[simp] theorem length_getBytes (m : Memory) (a n : Nat) : (m.getBytes a n).length = n := by
  induction n generalizing a with
  | zero => rfl
  | succ n ih => simp [Memory.getBytes, ih]

theorem getD_getBytes (m : Memory) (a n i : Nat) (hi : i < n) : (m.getBytes a n).getD i 0#8 = m.get (a + i) := by
  induction n generalizing a i with
  | zero => omega
  | succ n ih =>
    cases i with
    | zero => simp [Memory.getBytes]
    | succ i => simpa [Memory.getBytes, Nat.add_assoc, Nat.add_comm 1] using ih (a + 1) i (by omega)

theorem below_cons (n : Nat) (c : Host.Cell) (m : Memory) :
    Memory.below n (c :: m) = true ↔ c.1 < n ∧ Memory.below n m = true := by
  simp [Memory.below]

theorem below_set {n a : Nat} {m : Memory} (v : Byte) (h : m.below n = true) (ha : a < n) :
    (Memory.set m a v).below n = true := by
  induction m with
  | nil => by_cases hv : v = 0#8 <;> simp [Memory.set, Memory.below, hv, ha]
  | cons c rest ih =>
    obtain ⟨x, w⟩ := c
    rw [below_cons] at h
    unfold Memory.set
    split_ifs
    · exact (below_cons _ _ _).2 h
    · exact (below_cons _ _ _).2 ⟨ha, (below_cons _ _ _).2 h⟩
    · exact h.2
    · exact (below_cons _ _ _).2 ⟨ha, h.2⟩
    · exact (below_cons _ _ _).2 ⟨h.1, ih h.2⟩

theorem below_setBytes {n a : Nat} {m : Memory} (bs : List Byte) (h : m.below n = true) (ha : a + bs.length ≤ n) :
    (m.setBytes a bs).below n = true := by
  induction bs generalizing m a with
  | nil => exact h
  | cons v rest ih =>
    simp only [List.length_cons] at ha
    exact ih (below_set v h (by omega)) (by omega)

/-- Two canonical contents that read alike everywhere are equal. -/
theorem ext_from {lo : Nat} {m m' : Memory} (h : Memory.wfFrom lo m = true) (h' : Memory.wfFrom lo m' = true)
    (hg : ∀ a, m.get a = m'.get a) : m = m' := by
  induction m generalizing lo m' with
  | nil =>
    cases m' with
    | nil => rfl
    | cons c rest =>
      simp only [Memory.wfFrom, Bool.and_eq_true, decide_eq_true_eq] at h'
      have := hg c.1
      simp [Memory.get] at this
      exact absurd this.symm h'.1.2
  | cons c rest ih =>
    obtain ⟨x, w⟩ := c
    cases m' with
    | nil =>
      simp only [Memory.wfFrom, Bool.and_eq_true, decide_eq_true_eq] at h
      have := hg x
      simp [Memory.get] at this
      exact absurd this h.1.2
    | cons d rest' =>
      obtain ⟨y, u⟩ := d
      simp only [Memory.wfFrom, Bool.and_eq_true, decide_eq_true_eq] at h h'
      have hxy : x = y := by
        rcases Nat.lt_trichotomy x y with hlt | heq | hgt
        · have h1 := hg x
          rw [get_below (lo := y) (m := (y, u) :: rest') (by simp [Memory.wfFrom, h'.1.2, h'.2]) hlt] at h1
          simp [Memory.get] at h1
          exact absurd h1 h.1.2
        · exact heq
        · have h1 := hg y
          rw [get_below (lo := x) (m := (x, w) :: rest) (by simp [Memory.wfFrom, h.1.2, h.2]) hgt] at h1
          simp [Memory.get] at h1
          exact absurd h1.symm h'.1.2
      subst hxy
      have hwu : w = u := by simpa [Memory.get] using hg x
      subst hwu
      congr 1
      refine ih h.2 h'.2 fun a => ?_
      by_cases hxa : x = a
      · subst hxa
        rw [get_below h.2 (Nat.lt_succ_self _), get_below h'.2 (Nat.lt_succ_self _)]
      · simpa [Memory.get, hxa] using hg a

theorem ext_of_get {m m' : Memory} (h : m.wf = true) (h' : m'.wf = true) (hg : ∀ a, m.get a = m'.get a) : m = m' :=
  ext_from h h' hg

end Sys2Proof.Machine.Memory
end

