-- ==== Sys2Proof/Laws/Check.lean ====
section
/-! SUPPORT. The terms of Sys2Proof/Safety.lean as checks that evaluate, each with the lemma that the check is enough: a
concrete state's well-formedness is then a computation. -/

namespace Sys2Proof.Machine

def KeyPair.check (cfg : Config) (p : KeyPair) : Bool :=
  decide ((p.first = 0#8 ∨ p.first ∈ cfg.keycode.toList) ∧ (p.second = 0#8 ∨ p.second ∈ cfg.keycode.toList) ∧
    (p.first = 0#8 → p.second = 0#8) ∧ (p.first = p.second → p.first = 0#8))

def HoldSlot.check (cfg : Config) (stable : KeyPair) (slot : HoldSlot) : Bool :=
  decide ((slot.code = 0#8 → slot.pressedAt = 0#32 ∧ slot.nextRepeatAt = 0#32) ∧
    (slot.code ≠ 0#8 → stable.has slot.code = true ∧ cfg.repeatEn slot.code = true))

def KeyScanner.check (cfg : Config) (km : KeyScanner) : Bool :=
  km.lastRaw.check cfg && km.stable.check cfg && km.slot0.check cfg km.stable && km.slot1.check cfg km.stable &&
    decide (km.slot0.code = km.slot1.code → km.slot0.code = 0#8)

def Sampler.check (qs : Sampler) : Bool := decide (-3 ≤ qs.res.toInt ∧ qs.res.toInt ≤ 3)

def Rotary.check (cfg : Config) (rm : Rotary) : Bool :=
  decide ((rm.stable = cfg.modeOff ∨ rm.stable ∈ cfg.modeCode.toList) ∧ (rm.offPending = true → rm.stable ≠ cfg.modeOff))

def Reassembler.check (cfg : Config) (rx : Reassembler) : Bool :=
  decide (rx.offset ≤ scratchLen ∧ chunkLen ∣ rx.offset ∧
    (rx.syncFound = true → chunkLen ≤ rx.offset ∧ rx.offset < cfg.reportLen))

def Buffers.check (cfg : Config) (b : Buffers) : Bool :=
  b.scr.wf && b.shr.wf && b.out.wf && b.scr.below scratchLen && b.shr.below cfg.reportLen && b.out.below cfg.outLen

def SharedReport.check (cfg : Config) (shrBytes : Memory) (shr : SharedReport) : Bool :=
  decide ((shr.valid = false → shr.dayKey = 0#8 ∧ shrBytes = []) ∧ shr.dayKey = shrBytes.get cfg.layout.dayKey.val)

def Scheduler.check (cfg : Config) (sch : Scheduler) : Bool :=
  decide ((-127 ≤ sch.wheel.toInt ∧ sch.wheel.toInt ≤ 127) ∧ (-127 ≤ sch.sentWheel.toInt ∧ sch.sentWheel.toInt ≤ 127) ∧
    (sch.sentMode = cfg.modeOff ∨ sch.sentMode ∈ cfg.modeCode.toList) ∧ (sch.flushPending = true → sch.wheel = 0#8))

def State.check (s : State) : Bool :=
  s.cfg.wf && s.qs.check && s.km.check s.cfg && s.rm.check s.cfg && s.rx.check s.cfg && s.buf.check s.cfg &&
    s.shr.check s.cfg s.buf.shr && s.sch.check s.cfg

theorem KeyPair.ok_of_check {cfg : Config} {p : KeyPair} (h : p.check cfg = true) : p.Ok cfg := by
  have h' := of_decide_eq_true h
  exact ⟨h'.1, h'.2.1, h'.2.2.1, h'.2.2.2⟩

theorem HoldSlot.ok_of_check {cfg : Config} {stable : KeyPair} {slot : HoldSlot} (h : slot.check cfg stable = true) :
    slot.Ok cfg stable := by
  have h' := of_decide_eq_true h
  refine ⟨fun hz => ?_, h'.2⟩
  obtain ⟨hp, hn⟩ := h'.1 hz
  cases slot
  simp_all

theorem KeyScanner.ok_of_check {cfg : Config} {km : KeyScanner} (h : km.check cfg = true) : km.Ok cfg := by
  simp only [KeyScanner.check, Bool.and_eq_true, decide_eq_true_eq] at h
  obtain ⟨⟨⟨⟨h1, h2⟩, h3⟩, h4⟩, h5⟩ := h
  exact ⟨KeyPair.ok_of_check h1, KeyPair.ok_of_check h2, HoldSlot.ok_of_check h3, HoldSlot.ok_of_check h4, h5⟩

theorem Sampler.ok_of_check {qs : Sampler} (h : qs.check = true) : qs.Ok := by
  simpa only [Sampler.check, Sampler.Ok, decide_eq_true_eq] using h

theorem Buffers.ok_of_check {cfg : Config} {b : Buffers} (h : b.check cfg = true) : b.Ok cfg := by
  simp only [Buffers.check, Bool.and_eq_true] at h
  obtain ⟨⟨⟨⟨⟨h1, h2⟩, h3⟩, h4⟩, h5⟩, h6⟩ := h
  exact ⟨fun sp => by cases sp <;> assumption, fun sp => by cases sp <;> assumption⟩

theorem State.inv_of_check {s : State} (h : s.check = true) : s.Inv := by
  simp only [State.check, Bool.and_eq_true] at h
  obtain ⟨⟨⟨⟨⟨⟨⟨h1, h2⟩, h3⟩, h4⟩, h5⟩, h6⟩, h7⟩, h8⟩ := h
  have h4' := of_decide_eq_true h4
  have h5' := of_decide_eq_true h5
  have h7' := of_decide_eq_true h7
  have h8' := of_decide_eq_true h8
  exact ⟨h1, Sampler.ok_of_check h2, KeyScanner.ok_of_check h3, ⟨h4'.1, h4'.2⟩, ⟨h5'.1, h5'.2.1, h5'.2.2⟩,
    Buffers.ok_of_check h6, ⟨h7'.1, h7'.2⟩, ⟨h8'.1, h8'.2.1, h8'.2.2.1, h8'.2.2.2⟩⟩

end Sys2Proof.Machine
end

