-- ==== Sys2Proof/Laws/State.lean ====
section
/-! SUPPORT. One lemma per field per update of State. -/

namespace Sys2Proof.Machine.State

variable (s : State)

section
variable (v : Context)
@[simp] theorem withCtx_cfg : (s.withCtx v).cfg = s.cfg := rfl
@[simp] theorem withCtx_ctx : (s.withCtx v).ctx = v := rfl
@[simp] theorem withCtx_inputs : (s.withCtx v).inputs = s.inputs := rfl
@[simp] theorem withCtx_qs : (s.withCtx v).qs = s.qs := rfl
@[simp] theorem withCtx_acc : (s.withCtx v).acc = s.acc := rfl
@[simp] theorem withCtx_km : (s.withCtx v).km = s.km := rfl
@[simp] theorem withCtx_rm : (s.withCtx v).rm = s.rm := rfl
@[simp] theorem withCtx_rx : (s.withCtx v).rx = s.rx := rfl
@[simp] theorem withCtx_shr : (s.withCtx v).shr = s.shr := rfl
@[simp] theorem withCtx_buf : (s.withCtx v).buf = s.buf := rfl
@[simp] theorem withCtx_sch : (s.withCtx v).sch = s.sch := rfl
@[simp] theorem withCtx_txLast : (s.withCtx v).txLast = s.txLast := rfl
@[simp] theorem withCtx_log : (s.withCtx v).log = s.log := rfl
@[simp] theorem withCtx_ret : (s.withCtx v).ret = s.ret := rfl
end

section
variable (v : List Input)
@[simp] theorem withInputs_cfg : (s.withInputs v).cfg = s.cfg := rfl
@[simp] theorem withInputs_ctx : (s.withInputs v).ctx = s.ctx := rfl
@[simp] theorem withInputs_inputs : (s.withInputs v).inputs = v := rfl
@[simp] theorem withInputs_qs : (s.withInputs v).qs = s.qs := rfl
@[simp] theorem withInputs_acc : (s.withInputs v).acc = s.acc := rfl
@[simp] theorem withInputs_km : (s.withInputs v).km = s.km := rfl
@[simp] theorem withInputs_rm : (s.withInputs v).rm = s.rm := rfl
@[simp] theorem withInputs_rx : (s.withInputs v).rx = s.rx := rfl
@[simp] theorem withInputs_shr : (s.withInputs v).shr = s.shr := rfl
@[simp] theorem withInputs_buf : (s.withInputs v).buf = s.buf := rfl
@[simp] theorem withInputs_sch : (s.withInputs v).sch = s.sch := rfl
@[simp] theorem withInputs_txLast : (s.withInputs v).txLast = s.txLast := rfl
@[simp] theorem withInputs_log : (s.withInputs v).log = s.log := rfl
@[simp] theorem withInputs_ret : (s.withInputs v).ret = s.ret := rfl
end

section
variable (v : Sampler)
@[simp] theorem withQs_cfg : (s.withQs v).cfg = s.cfg := rfl
@[simp] theorem withQs_ctx : (s.withQs v).ctx = s.ctx := rfl
@[simp] theorem withQs_inputs : (s.withQs v).inputs = s.inputs := rfl
@[simp] theorem withQs_qs : (s.withQs v).qs = v := rfl
@[simp] theorem withQs_acc : (s.withQs v).acc = s.acc := rfl
@[simp] theorem withQs_km : (s.withQs v).km = s.km := rfl
@[simp] theorem withQs_rm : (s.withQs v).rm = s.rm := rfl
@[simp] theorem withQs_rx : (s.withQs v).rx = s.rx := rfl
@[simp] theorem withQs_shr : (s.withQs v).shr = s.shr := rfl
@[simp] theorem withQs_buf : (s.withQs v).buf = s.buf := rfl
@[simp] theorem withQs_sch : (s.withQs v).sch = s.sch := rfl
@[simp] theorem withQs_txLast : (s.withQs v).txLast = s.txLast := rfl
@[simp] theorem withQs_log : (s.withQs v).log = s.log := rfl
@[simp] theorem withQs_ret : (s.withQs v).ret = s.ret := rfl
end

section
variable (v : I32)
@[simp] theorem withAcc_cfg : (s.withAcc v).cfg = s.cfg := rfl
@[simp] theorem withAcc_ctx : (s.withAcc v).ctx = s.ctx := rfl
@[simp] theorem withAcc_inputs : (s.withAcc v).inputs = s.inputs := rfl
@[simp] theorem withAcc_qs : (s.withAcc v).qs = s.qs := rfl
@[simp] theorem withAcc_acc : (s.withAcc v).acc = v := rfl
@[simp] theorem withAcc_km : (s.withAcc v).km = s.km := rfl
@[simp] theorem withAcc_rm : (s.withAcc v).rm = s.rm := rfl
@[simp] theorem withAcc_rx : (s.withAcc v).rx = s.rx := rfl
@[simp] theorem withAcc_shr : (s.withAcc v).shr = s.shr := rfl
@[simp] theorem withAcc_buf : (s.withAcc v).buf = s.buf := rfl
@[simp] theorem withAcc_sch : (s.withAcc v).sch = s.sch := rfl
@[simp] theorem withAcc_txLast : (s.withAcc v).txLast = s.txLast := rfl
@[simp] theorem withAcc_log : (s.withAcc v).log = s.log := rfl
@[simp] theorem withAcc_ret : (s.withAcc v).ret = s.ret := rfl
end

section
variable (v : KeyScanner)
@[simp] theorem withKm_cfg : (s.withKm v).cfg = s.cfg := rfl
@[simp] theorem withKm_ctx : (s.withKm v).ctx = s.ctx := rfl
@[simp] theorem withKm_inputs : (s.withKm v).inputs = s.inputs := rfl
@[simp] theorem withKm_qs : (s.withKm v).qs = s.qs := rfl
@[simp] theorem withKm_acc : (s.withKm v).acc = s.acc := rfl
@[simp] theorem withKm_km : (s.withKm v).km = v := rfl
@[simp] theorem withKm_rm : (s.withKm v).rm = s.rm := rfl
@[simp] theorem withKm_rx : (s.withKm v).rx = s.rx := rfl
@[simp] theorem withKm_shr : (s.withKm v).shr = s.shr := rfl
@[simp] theorem withKm_buf : (s.withKm v).buf = s.buf := rfl
@[simp] theorem withKm_sch : (s.withKm v).sch = s.sch := rfl
@[simp] theorem withKm_txLast : (s.withKm v).txLast = s.txLast := rfl
@[simp] theorem withKm_log : (s.withKm v).log = s.log := rfl
@[simp] theorem withKm_ret : (s.withKm v).ret = s.ret := rfl
end

section
variable (v : Rotary)
@[simp] theorem withRm_cfg : (s.withRm v).cfg = s.cfg := rfl
@[simp] theorem withRm_ctx : (s.withRm v).ctx = s.ctx := rfl
@[simp] theorem withRm_inputs : (s.withRm v).inputs = s.inputs := rfl
@[simp] theorem withRm_qs : (s.withRm v).qs = s.qs := rfl
@[simp] theorem withRm_acc : (s.withRm v).acc = s.acc := rfl
@[simp] theorem withRm_km : (s.withRm v).km = s.km := rfl
@[simp] theorem withRm_rm : (s.withRm v).rm = v := rfl
@[simp] theorem withRm_rx : (s.withRm v).rx = s.rx := rfl
@[simp] theorem withRm_shr : (s.withRm v).shr = s.shr := rfl
@[simp] theorem withRm_buf : (s.withRm v).buf = s.buf := rfl
@[simp] theorem withRm_sch : (s.withRm v).sch = s.sch := rfl
@[simp] theorem withRm_txLast : (s.withRm v).txLast = s.txLast := rfl
@[simp] theorem withRm_log : (s.withRm v).log = s.log := rfl
@[simp] theorem withRm_ret : (s.withRm v).ret = s.ret := rfl
end

section
variable (v : Reassembler)
@[simp] theorem withRx_cfg : (s.withRx v).cfg = s.cfg := rfl
@[simp] theorem withRx_ctx : (s.withRx v).ctx = s.ctx := rfl
@[simp] theorem withRx_inputs : (s.withRx v).inputs = s.inputs := rfl
@[simp] theorem withRx_qs : (s.withRx v).qs = s.qs := rfl
@[simp] theorem withRx_acc : (s.withRx v).acc = s.acc := rfl
@[simp] theorem withRx_km : (s.withRx v).km = s.km := rfl
@[simp] theorem withRx_rm : (s.withRx v).rm = s.rm := rfl
@[simp] theorem withRx_rx : (s.withRx v).rx = v := rfl
@[simp] theorem withRx_shr : (s.withRx v).shr = s.shr := rfl
@[simp] theorem withRx_buf : (s.withRx v).buf = s.buf := rfl
@[simp] theorem withRx_sch : (s.withRx v).sch = s.sch := rfl
@[simp] theorem withRx_txLast : (s.withRx v).txLast = s.txLast := rfl
@[simp] theorem withRx_log : (s.withRx v).log = s.log := rfl
@[simp] theorem withRx_ret : (s.withRx v).ret = s.ret := rfl
end

section
variable (v : SharedReport)
@[simp] theorem withShr_cfg : (s.withShr v).cfg = s.cfg := rfl
@[simp] theorem withShr_ctx : (s.withShr v).ctx = s.ctx := rfl
@[simp] theorem withShr_inputs : (s.withShr v).inputs = s.inputs := rfl
@[simp] theorem withShr_qs : (s.withShr v).qs = s.qs := rfl
@[simp] theorem withShr_acc : (s.withShr v).acc = s.acc := rfl
@[simp] theorem withShr_km : (s.withShr v).km = s.km := rfl
@[simp] theorem withShr_rm : (s.withShr v).rm = s.rm := rfl
@[simp] theorem withShr_rx : (s.withShr v).rx = s.rx := rfl
@[simp] theorem withShr_shr : (s.withShr v).shr = v := rfl
@[simp] theorem withShr_buf : (s.withShr v).buf = s.buf := rfl
@[simp] theorem withShr_sch : (s.withShr v).sch = s.sch := rfl
@[simp] theorem withShr_txLast : (s.withShr v).txLast = s.txLast := rfl
@[simp] theorem withShr_log : (s.withShr v).log = s.log := rfl
@[simp] theorem withShr_ret : (s.withShr v).ret = s.ret := rfl
end

section
variable (v : Buffers)
@[simp] theorem withBuf_cfg : (s.withBuf v).cfg = s.cfg := rfl
@[simp] theorem withBuf_ctx : (s.withBuf v).ctx = s.ctx := rfl
@[simp] theorem withBuf_inputs : (s.withBuf v).inputs = s.inputs := rfl
@[simp] theorem withBuf_qs : (s.withBuf v).qs = s.qs := rfl
@[simp] theorem withBuf_acc : (s.withBuf v).acc = s.acc := rfl
@[simp] theorem withBuf_km : (s.withBuf v).km = s.km := rfl
@[simp] theorem withBuf_rm : (s.withBuf v).rm = s.rm := rfl
@[simp] theorem withBuf_rx : (s.withBuf v).rx = s.rx := rfl
@[simp] theorem withBuf_shr : (s.withBuf v).shr = s.shr := rfl
@[simp] theorem withBuf_buf : (s.withBuf v).buf = v := rfl
@[simp] theorem withBuf_sch : (s.withBuf v).sch = s.sch := rfl
@[simp] theorem withBuf_txLast : (s.withBuf v).txLast = s.txLast := rfl
@[simp] theorem withBuf_log : (s.withBuf v).log = s.log := rfl
@[simp] theorem withBuf_ret : (s.withBuf v).ret = s.ret := rfl
end

section
variable (v : Scheduler)
@[simp] theorem withSch_cfg : (s.withSch v).cfg = s.cfg := rfl
@[simp] theorem withSch_ctx : (s.withSch v).ctx = s.ctx := rfl
@[simp] theorem withSch_inputs : (s.withSch v).inputs = s.inputs := rfl
@[simp] theorem withSch_qs : (s.withSch v).qs = s.qs := rfl
@[simp] theorem withSch_acc : (s.withSch v).acc = s.acc := rfl
@[simp] theorem withSch_km : (s.withSch v).km = s.km := rfl
@[simp] theorem withSch_rm : (s.withSch v).rm = s.rm := rfl
@[simp] theorem withSch_rx : (s.withSch v).rx = s.rx := rfl
@[simp] theorem withSch_shr : (s.withSch v).shr = s.shr := rfl
@[simp] theorem withSch_buf : (s.withSch v).buf = s.buf := rfl
@[simp] theorem withSch_sch : (s.withSch v).sch = v := rfl
@[simp] theorem withSch_txLast : (s.withSch v).txLast = s.txLast := rfl
@[simp] theorem withSch_log : (s.withSch v).log = s.log := rfl
@[simp] theorem withSch_ret : (s.withSch v).ret = s.ret := rfl
end

section
variable (v : U32)
@[simp] theorem withTxLast_cfg : (s.withTxLast v).cfg = s.cfg := rfl
@[simp] theorem withTxLast_ctx : (s.withTxLast v).ctx = s.ctx := rfl
@[simp] theorem withTxLast_inputs : (s.withTxLast v).inputs = s.inputs := rfl
@[simp] theorem withTxLast_qs : (s.withTxLast v).qs = s.qs := rfl
@[simp] theorem withTxLast_acc : (s.withTxLast v).acc = s.acc := rfl
@[simp] theorem withTxLast_km : (s.withTxLast v).km = s.km := rfl
@[simp] theorem withTxLast_rm : (s.withTxLast v).rm = s.rm := rfl
@[simp] theorem withTxLast_rx : (s.withTxLast v).rx = s.rx := rfl
@[simp] theorem withTxLast_shr : (s.withTxLast v).shr = s.shr := rfl
@[simp] theorem withTxLast_buf : (s.withTxLast v).buf = s.buf := rfl
@[simp] theorem withTxLast_sch : (s.withTxLast v).sch = s.sch := rfl
@[simp] theorem withTxLast_txLast : (s.withTxLast v).txLast = v := rfl
@[simp] theorem withTxLast_log : (s.withTxLast v).log = s.log := rfl
@[simp] theorem withTxLast_ret : (s.withTxLast v).ret = s.ret := rfl
end

section
variable (v : List Emission)
@[simp] theorem withLog_cfg : (s.withLog v).cfg = s.cfg := rfl
@[simp] theorem withLog_ctx : (s.withLog v).ctx = s.ctx := rfl
@[simp] theorem withLog_inputs : (s.withLog v).inputs = s.inputs := rfl
@[simp] theorem withLog_qs : (s.withLog v).qs = s.qs := rfl
@[simp] theorem withLog_acc : (s.withLog v).acc = s.acc := rfl
@[simp] theorem withLog_km : (s.withLog v).km = s.km := rfl
@[simp] theorem withLog_rm : (s.withLog v).rm = s.rm := rfl
@[simp] theorem withLog_rx : (s.withLog v).rx = s.rx := rfl
@[simp] theorem withLog_shr : (s.withLog v).shr = s.shr := rfl
@[simp] theorem withLog_buf : (s.withLog v).buf = s.buf := rfl
@[simp] theorem withLog_sch : (s.withLog v).sch = s.sch := rfl
@[simp] theorem withLog_txLast : (s.withLog v).txLast = s.txLast := rfl
@[simp] theorem withLog_log : (s.withLog v).log = v := rfl
@[simp] theorem withLog_ret : (s.withLog v).ret = s.ret := rfl
end

section
variable (v : Returned)
@[simp] theorem withRet_cfg : (s.withRet v).cfg = s.cfg := rfl
@[simp] theorem withRet_ctx : (s.withRet v).ctx = s.ctx := rfl
@[simp] theorem withRet_inputs : (s.withRet v).inputs = s.inputs := rfl
@[simp] theorem withRet_qs : (s.withRet v).qs = s.qs := rfl
@[simp] theorem withRet_acc : (s.withRet v).acc = s.acc := rfl
@[simp] theorem withRet_km : (s.withRet v).km = s.km := rfl
@[simp] theorem withRet_rm : (s.withRet v).rm = s.rm := rfl
@[simp] theorem withRet_rx : (s.withRet v).rx = s.rx := rfl
@[simp] theorem withRet_shr : (s.withRet v).shr = s.shr := rfl
@[simp] theorem withRet_buf : (s.withRet v).buf = s.buf := rfl
@[simp] theorem withRet_sch : (s.withRet v).sch = s.sch := rfl
@[simp] theorem withRet_txLast : (s.withRet v).txLast = s.txLast := rfl
@[simp] theorem withRet_log : (s.withRet v).log = s.log := rfl
@[simp] theorem withRet_ret : (s.withRet v).ret = v := rfl
end

end Sys2Proof.Machine.State
end

