-- ==== Sys2Proof/Laws/Ops.lean ====
section
/-! SUPPORT. What each shared operation of Machine/Ops.lean can do, said once. -/

namespace Sys2Proof.Machine

/-! ## Outcomes -/

section
variable {α β : Type}

@[simp] theorem chain_next (a : α) (f : α → Result β) : chain (.next a) f = f a := rfl

theorem chain_eq_next {x : Result α} {f : α → Result β} {b : β} :
    chain x f = .next b ↔ ∃ a, x = .next a ∧ f a = .next b := by
  cases x <;> simp [chain]

theorem chain_ne_fault {x : Result α} {f : α → Result β} (hx : ∀ r, x ≠ .fault r)
    (hf : ∀ a, x = .next a → ∀ r, f a ≠ .fault r) : ∀ r, chain x f ≠ .fault r := by
  cases x with
  | next a => exact hf a rfl
  | fault r => exact absurd rfl (hx r)
  | refused r => intro r' h; simp [chain] at h

end

/-- An operation goes on exactly in a context that may issue it. -/
theorem issued_eq_next {i : Instr} {s t : State} {k : Result State} :
    issued i s k = .next t ↔ mayIssue s.cfg s.ctx i = true ∧ k = .next t := by
  unfold issued
  split <;> simp_all

theorem issued_of_may {i : Instr} {s : State} {k : Result State} (h : mayIssue s.cfg s.ctx i = true) :
    issued i s k = k := by
  simp [issued, h]

/-! ## Buffers -/

/-- A read inside the buffer gives its bytes. -/
theorem readBytes_inside {sp : Space} {a n : Nat} {s : State} (h : a + n ≤ sp.size s.cfg) :
    readBytes sp a n s = .next ((s.buf.get sp).getBytes a n) := by
  simp [readBytes, h]

theorem readBytes_eq_next {sp : Space} {a n : Nat} {s : State} {bs : List Byte} :
    readBytes sp a n s = .next bs ↔ a + n ≤ sp.size s.cfg ∧ (s.buf.get sp).getBytes a n = bs := by
  unfold readBytes
  split <;> simp_all

/-- A store inside the buffer. -/
theorem writeBytes_inside {sp : Space} {a : Nat} {bs : List Byte} {s : State} (h : a + bs.length ≤ sp.size s.cfg) :
    writeBytes sp a bs s = .next (s.withBuf (s.buf.set sp ((s.buf.get sp).setBytes a bs))) := by
  simp [writeBytes, h]

theorem writeBytes_eq_next {sp : Space} {a : Nat} {bs : List Byte} {s t : State} :
    writeBytes sp a bs s = .next t ↔
      a + bs.length ≤ sp.size s.cfg ∧ t = s.withBuf (s.buf.set sp ((s.buf.get sp).setBytes a bs)) := by
  unfold writeBytes
  split <;> simp_all [eq_comm]

@[simp] theorem Buffers.get_set_same (b : Buffers) (sp : Space) (m : Memory) : (b.set sp m).get sp = m := by
  cases sp <;> rfl

theorem Buffers.get_set_other {sp sp' : Space} (b : Buffers) (m : Memory) (h : sp ≠ sp') :
    (b.set sp m).get sp' = b.get sp' := by
  cases sp <;> cases sp' <;> first | rfl | exact absurd rfl h

@[simp] theorem Buffers.set_shr_of_scr (b : Buffers) (m : Memory) : (b.set .scr m).shr = b.shr := rfl
@[simp] theorem Buffers.set_out_of_scr (b : Buffers) (m : Memory) : (b.set .scr m).out = b.out := rfl
@[simp] theorem Buffers.set_shr_of_out (b : Buffers) (m : Memory) : (b.set .out m).shr = b.shr := rfl
@[simp] theorem Buffers.set_shr_of_shr (b : Buffers) (m : Memory) : (b.set .shr m).shr = m := rfl

/-! ## Outputs -/

section
variable (s : State)

@[simp] theorem emits_cfg (es : List Emission) : (emits es s).cfg = s.cfg := rfl
@[simp] theorem emit_cfg (e : Emission) : (emit e s).cfg = s.cfg := rfl
@[simp] theorem raise_cfg (e : Event) : (raise e s).cfg = s.cfg := rfl
@[simp] theorem emits_ctx (es : List Emission) : (emits es s).ctx = s.ctx := rfl
@[simp] theorem emit_ctx (e : Emission) : (emit e s).ctx = s.ctx := rfl
@[simp] theorem raise_ctx (e : Event) : (raise e s).ctx = s.ctx := rfl
@[simp] theorem emits_inputs (es : List Emission) : (emits es s).inputs = s.inputs := rfl
@[simp] theorem emit_inputs (e : Emission) : (emit e s).inputs = s.inputs := rfl
@[simp] theorem raise_inputs (e : Event) : (raise e s).inputs = s.inputs := rfl
@[simp] theorem emits_qs (es : List Emission) : (emits es s).qs = s.qs := rfl
@[simp] theorem emit_qs (e : Emission) : (emit e s).qs = s.qs := rfl
@[simp] theorem raise_qs (e : Event) : (raise e s).qs = s.qs := rfl
@[simp] theorem emits_acc (es : List Emission) : (emits es s).acc = s.acc := rfl
@[simp] theorem emit_acc (e : Emission) : (emit e s).acc = s.acc := rfl
@[simp] theorem raise_acc (e : Event) : (raise e s).acc = s.acc := rfl
@[simp] theorem emits_km (es : List Emission) : (emits es s).km = s.km := rfl
@[simp] theorem emit_km (e : Emission) : (emit e s).km = s.km := rfl
@[simp] theorem raise_km (e : Event) : (raise e s).km = s.km := rfl
@[simp] theorem emits_rm (es : List Emission) : (emits es s).rm = s.rm := rfl
@[simp] theorem emit_rm (e : Emission) : (emit e s).rm = s.rm := rfl
@[simp] theorem raise_rm (e : Event) : (raise e s).rm = s.rm := rfl
@[simp] theorem emits_rx (es : List Emission) : (emits es s).rx = s.rx := rfl
@[simp] theorem emit_rx (e : Emission) : (emit e s).rx = s.rx := rfl
@[simp] theorem raise_rx (e : Event) : (raise e s).rx = s.rx := rfl
@[simp] theorem emits_shr (es : List Emission) : (emits es s).shr = s.shr := rfl
@[simp] theorem emit_shr (e : Emission) : (emit e s).shr = s.shr := rfl
@[simp] theorem raise_shr (e : Event) : (raise e s).shr = s.shr := rfl
@[simp] theorem emits_buf (es : List Emission) : (emits es s).buf = s.buf := rfl
@[simp] theorem emit_buf (e : Emission) : (emit e s).buf = s.buf := rfl
@[simp] theorem raise_buf (e : Event) : (raise e s).buf = s.buf := rfl
@[simp] theorem emits_sch (es : List Emission) : (emits es s).sch = s.sch := rfl
@[simp] theorem emit_sch (e : Emission) : (emit e s).sch = s.sch := rfl
@[simp] theorem raise_sch (e : Event) : (raise e s).sch = s.sch := rfl
@[simp] theorem emits_txLast (es : List Emission) : (emits es s).txLast = s.txLast := rfl
@[simp] theorem emit_txLast (e : Emission) : (emit e s).txLast = s.txLast := rfl
@[simp] theorem raise_txLast (e : Event) : (raise e s).txLast = s.txLast := rfl
@[simp] theorem emits_ret (es : List Emission) : (emits es s).ret = s.ret := rfl
@[simp] theorem emit_ret (e : Emission) : (emit e s).ret = s.ret := rfl
@[simp] theorem raise_ret (e : Event) : (raise e s).ret = s.ret := rfl
@[simp] theorem emits_log (es : List Emission) : (emits es s).log = s.log ++ es := rfl
@[simp] theorem emit_log (e : Emission) : (emit e s).log = s.log ++ [e] := rfl
@[simp] theorem raise_log (e : Event) : (raise e s).log = s.log ++ [.raised e] := rfl

end

/-! ## Integers and time -/

theorem tdiv_trem (a b : Int) : b * tdiv a b + trem a b = a := by
  simp [trem]

theorem trem_eq_tmod (a b : Int) : trem a b = a.tmod b := by
  simp only [trem, tdiv, Int.tmod_def]

theorem clamp_bounds {v lo hi : Int} (h : lo ≤ hi) : lo ≤ clamp v lo hi ∧ clamp v lo hi ≤ hi := by
  unfold clamp
  split
  · omega
  · split <;> omega

theorem toInt_ofInt32 {v : Int} (h : -2 ^ 31 ≤ v) (h' : v < 2 ^ 31) : (BitVec.ofInt 32 v).toInt = v := by
  rw [BitVec.toInt_ofInt]
  exact Int.bmod_eq_of_le (by norm_num; omega) (by norm_num; omega)

theorem toInt_ofInt8 {v : Int} (h : -2 ^ 7 ≤ v) (h' : v < 2 ^ 7) : (BitVec.ofInt 8 v).toInt = v := by
  rw [BitVec.toInt_ofInt]
  exact Int.bmod_eq_of_le (by norm_num; omega) (by norm_num; omega)

theorem sext32_of_bounds {v : Int} (h : -2 ^ 31 ≤ v) (h' : v < 2 ^ 31) : sext 32 v = v := toInt_ofInt32 h h'

end Sys2Proof.Machine
end

