-- ==== Sys2Proof/Laws/Keys.lean ====
section
/-! SUPPORT. What a key scan does: the raw pair, the debouncer, the hold slots and the events. -/

namespace Sys2Proof.Machine

/-! ## The raw scan -/

theorem scanOrder_nodup : scanOrder.Nodup := by decide

theorem pressedKeys_nodup (keys : BitVec 16) : (pressedKeys keys).Nodup := scanOrder_nodup.filter _

theorem keycode_mem (cfg : Config) (k : Fin 16) : cfg.keycode[k] ∈ cfg.keycode.toList := by
  simp [Vector.mem_toList_iff]

theorem keycode_ne_zero {cfg : Config} (h : cfg.keysOk = true) (k : Fin 16) : cfg.keycode[k] ≠ 0#8 := by
  simp only [Config.keysOk, decide_eq_true_eq] at h
  intro hz
  exact h.2 (hz ▸ keycode_mem cfg k)

theorem keycode_injective {cfg : Config} (h : cfg.keysOk = true) {a b : Fin 16}
    (he : cfg.keycode[a] = cfg.keycode[b]) : a = b := by
  simp only [Config.keysOk, decide_eq_true_eq] at h
  have hn := h.1
  have ha : a.val < cfg.keycode.toList.length := by simp
  have hb : b.val < cfg.keycode.toList.length := by simp
  have := (List.Nodup.getElem_inj_iff hn (hi := ha) (hj := hb)).1 (by simpa using he)
  exact Fin.ext this

/-- The raw pair is a pair of distinct key codes, first found first (R15, R121). -/
theorem rawScan_ok {cfg : Config} (h : cfg.keysOk = true) (keys : BitVec 16) : (rawScan cfg keys).Ok cfg := by
  have hn := pressedKeys_nodup keys
  unfold rawScan
  split
  · exact ⟨.inl rfl, .inl rfl, fun _ => rfl, fun _ => rfl⟩
  · exact ⟨.inr (keycode_mem cfg _), .inl rfl, fun _ => rfl, fun he => he⟩
  · next a b rest hp =>
    rw [hp] at hn
    have hab : a ≠ b := by
      simp only [List.nodup_cons, List.mem_cons, not_or] at hn
      exact hn.1.1
    exact ⟨.inr (keycode_mem cfg _), .inr (keycode_mem cfg _), fun hz => absurd hz (keycode_ne_zero h a),
      fun he => absurd (keycode_injective h he) hab⟩

/-! ## The debouncer -/

/-- Everything the debouncer can do (R123). -/
theorem debounce_cases (cfg : Config) (now : U32) (raw : KeyPair) (km : KeyScanner) :
    (raw ≠ km.lastRaw ∧ debounce cfg now raw km = { km with lastRaw := raw, lastChange := now }) ∨
    (raw = km.lastRaw ∧ cfg.timing.debounce ≤ elapsed now km.lastChange ∧
      debounce cfg now raw km = { km with stable := raw }) ∨
    (raw = km.lastRaw ∧ elapsed now km.lastChange < cfg.timing.debounce ∧ debounce cfg now raw km = km) := by
  unfold debounce
  split
  · next h => exact .inl ⟨h, rfl⟩
  · next h =>
    have h' : raw = km.lastRaw := by simpa using h
    split
    · next hw => exact .inr (.inl ⟨h', hw, rfl⟩)
    · next hw => exact .inr (.inr ⟨h', by omega, rfl⟩)

@[simp] theorem debounce_slot0 (cfg : Config) (now : U32) (raw : KeyPair) (km : KeyScanner) :
    (debounce cfg now raw km).slot0 = km.slot0 := by
  obtain ⟨-, h⟩ | ⟨-, -, h⟩ | ⟨-, -, h⟩ := debounce_cases cfg now raw km <;> rw [h]

@[simp] theorem debounce_slot1 (cfg : Config) (now : U32) (raw : KeyPair) (km : KeyScanner) :
    (debounce cfg now raw km).slot1 = km.slot1 := by
  obtain ⟨-, h⟩ | ⟨-, -, h⟩ | ⟨-, -, h⟩ := debounce_cases cfg now raw km <;> rw [h]

/-! ## The stages after the debouncer leave the pairs and the window alone -/

theorem takeSlot_pairs (cfg : Config) (now : U32) (c : Byte) (km : KeyScanner) :
    (takeSlot cfg now c km).lastRaw = km.lastRaw ∧ (takeSlot cfg now c km).lastChange = km.lastChange ∧
      (takeSlot cfg now c km).stable = km.stable := by
  unfold takeSlot
  split_ifs <;> exact ⟨rfl, rfl, rfl⟩

theorem pressEdge_pairs (cfg : Config) (now : U32) (old : KeyPair) (c : Byte) (st : KeyScanner × List Byte) :
    (pressEdge cfg now old c st).1.lastRaw = st.1.lastRaw ∧ (pressEdge cfg now old c st).1.lastChange = st.1.lastChange ∧
      (pressEdge cfg now old c st).1.stable = st.1.stable := by
  unfold pressEdge
  split_ifs
  · exact takeSlot_pairs cfg now c st.1
  · exact ⟨rfl, rfl, rfl⟩
  · exact ⟨rfl, rfl, rfl⟩

theorem repeatSlot0_pairs (cfg : Config) (now : U32) (st : KeyScanner × List Byte) :
    (repeatSlot0 cfg now st).1.lastRaw = st.1.lastRaw ∧ (repeatSlot0 cfg now st).1.lastChange = st.1.lastChange ∧
      (repeatSlot0 cfg now st).1.stable = st.1.stable := by
  unfold repeatSlot0
  split_ifs <;> exact ⟨rfl, rfl, rfl⟩

theorem repeatSlot1_pairs (cfg : Config) (now : U32) (st : KeyScanner × List Byte) :
    (repeatSlot1 cfg now st).1.lastRaw = st.1.lastRaw ∧ (repeatSlot1 cfg now st).1.lastChange = st.1.lastChange ∧
      (repeatSlot1 cfg now st).1.stable = st.1.stable := by
  unfold repeatSlot1
  split_ifs <;> exact ⟨rfl, rfl, rfl⟩

/-- A scan's pairs and window are the debouncer's. -/
theorem scanKeys_pairs (cfg : Config) (now : U32) (raw : KeyPair) (km : KeyScanner) :
    (scanKeys cfg now raw km).1.lastRaw = (debounce cfg now raw km).lastRaw ∧
      (scanKeys cfg now raw km).1.lastChange = (debounce cfg now raw km).lastChange ∧
      (scanKeys cfg now raw km).1.stable = (debounce cfg now raw km).stable := by
  simp only [scanKeys, repeatSlot1_pairs, repeatSlot0_pairs, pressEdge_pairs, freeSlots, and_self]

/-! ## The hold slots -/

/-- What holds of the two slots between the stages: free ones are zeros, held ones carry a repeat-enabled code of the new
stable pair that satisfies `P`, and they differ. -/
structure SlotsOk (cfg : Config) (new : KeyPair) (P : Byte → Prop) (km : KeyScanner) : Prop where
  slot0 : km.slot0.Ok cfg new
  slot1 : km.slot1.Ok cfg new
  known0 : km.slot0.code ≠ 0#8 → P km.slot0.code
  known1 : km.slot1.code ≠ 0#8 → P km.slot1.code
  differ : km.slot0.code = km.slot1.code → km.slot0.code = 0#8

/-- Everything a slot's release can do (R126). -/
theorem release_cases (new : KeyPair) (slot : HoldSlot) :
    (slot.code ≠ 0#8 ∧ new.has slot.code = false ∧
      slot.release new = { code := 0#8, pressedAt := 0#32, nextRepeatAt := 0#32 }) ∨
    ((slot.code = 0#8 ∨ new.has slot.code = true) ∧ slot.release new = slot) := by
  unfold HoldSlot.release
  by_cases h0 : slot.code = 0#8 <;> by_cases hh : new.has slot.code = true <;> simp_all

theorem release_ok {cfg : Config} {old new : KeyPair} {slot : HoldSlot} (h : slot.Ok cfg old) :
    (slot.release new).Ok cfg new := by
  obtain ⟨-, -, he⟩ | ⟨hk, he⟩ := release_cases new slot
  · rw [he]; exact ⟨fun _ => rfl, fun hne => absurd rfl hne⟩
  · rw [he]
    exact ⟨h.free, fun hne => ⟨hk.resolve_left hne, (h.held hne).2⟩⟩

theorem release_code (new : KeyPair) (slot : HoldSlot) :
    (slot.release new).code = 0#8 ∨ (slot.release new).code = slot.code := by
  obtain ⟨-, -, he⟩ | ⟨-, he⟩ := release_cases new slot
  · exact .inl (by rw [he])
  · exact .inr (by rw [he])

theorem freeSlots_ok {cfg : Config} {old : KeyPair} {km : KeyScanner} (h0 : km.slot0.Ok cfg old)
    (h1 : km.slot1.Ok cfg old) (hd : km.slot0.code = km.slot1.code → km.slot0.code = 0#8) :
    SlotsOk cfg km.stable (fun c => old.has c = true) (freeSlots km) := by
  have c0 := release_code km.stable km.slot0
  have c1 := release_code km.stable km.slot1
  refine ⟨release_ok h0, release_ok h1, fun hne => ?_, fun hne => ?_, fun he => ?_⟩
  · have hc := c0.resolve_left hne
    simp only [freeSlots] at hne ⊢
    rw [hc] at hne ⊢
    exact (h0.held hne).1
  · have hc := c1.resolve_left hne
    simp only [freeSlots] at hne ⊢
    rw [hc] at hne ⊢
    exact (h1.held hne).1
  · simp only [freeSlots] at he ⊢
    rcases c0 with z | e0
    · exact z
    · rcases c1 with z | e1
      · rw [he]; exact z
      · rw [e0, e1] at he
        rw [e0]; exact hd he

theorem takeSlot_ok {cfg : Config} {now : U32} {new : KeyPair} {P : Byte → Prop} {km : KeyScanner} {c : Byte}
    (h : SlotsOk cfg new P km) (hc : new.has c = true) (hr : cfg.repeatEn c = true) (hP : ¬ P c) :
    SlotsOk cfg new (fun x => P x ∨ x = c) (takeSlot cfg now c km) := by
  have hc0 : c ≠ 0#8 := by
    simp only [KeyPair.has, decide_eq_true_eq] at hc
    exact hc.1
  have hnew : (newSlot cfg now c).Ok cfg new := ⟨fun hz => absurd hz hc0, fun _ => ⟨hc, hr⟩⟩
  unfold takeSlot
  split_ifs with hz0 hz1
  · refine ⟨hnew, h.slot1, fun _ => .inr rfl, fun hne => .inl (h.known1 hne), fun he => ?_⟩
    have he' : c = km.slot1.code := he
    exact absurd (he' ▸ h.known1 (he' ▸ hc0)) hP
  · refine ⟨h.slot0, hnew, fun hne => .inl (h.known0 hne), fun _ => .inr rfl, fun he => ?_⟩
    have he' : km.slot0.code = c := he
    exact absurd (he' ▸ h.known0 hz0) hP
  · exact ⟨h.slot0, h.slot1, fun hne => .inl (h.known0 hne), fun hne => .inl (h.known1 hne), h.differ⟩

theorem SlotsOk.weaken {cfg : Config} {new : KeyPair} {P Q : Byte → Prop} {km : KeyScanner}
    (h : SlotsOk cfg new P km) (hPQ : ∀ x, P x → Q x) : SlotsOk cfg new Q km :=
  ⟨h.slot0, h.slot1, fun hne => hPQ _ (h.known0 hne), fun hne => hPQ _ (h.known1 hne), h.differ⟩

theorem pressEdge_ok {cfg : Config} {now : U32} {old new : KeyPair} {P : Byte → Prop} {c : Byte}
    {st : KeyScanner × List Byte} (h : SlotsOk cfg new P st.1) (hc : c ≠ 0#8 → new.has c = true)
    (hP : c ≠ 0#8 → old.has c = false → ¬ P c) :
    SlotsOk cfg new (fun x => P x ∨ x = c) (pressEdge cfg now old c st).1 := by
  unfold pressEdge
  split_ifs with he hr
  · exact takeSlot_ok h (hc he.1) hr (hP he.1 (by simpa using he.2))
  · exact h.weaken fun _ => .inl
  · exact h.weaken fun _ => .inl

theorem repeatSlot0_ok {cfg : Config} {now : U32} {new : KeyPair} {P : Byte → Prop} {st : KeyScanner × List Byte}
    (h : SlotsOk cfg new P st.1) : SlotsOk cfg new P (repeatSlot0 cfg now st).1 := by
  unfold repeatSlot0
  split_ifs with hr
  · simp only [repeatDue, Bool.and_eq_true, decide_eq_true_eq] at hr
    exact ⟨⟨fun hz => absurd hz hr.1.1, h.slot0.held⟩, h.slot1, h.known0, h.known1, h.differ⟩
  · exact h

theorem repeatSlot1_ok {cfg : Config} {now : U32} {new : KeyPair} {P : Byte → Prop} {st : KeyScanner × List Byte}
    (h : SlotsOk cfg new P st.1) : SlotsOk cfg new P (repeatSlot1 cfg now st).1 := by
  unfold repeatSlot1
  split_ifs with hr
  · simp only [repeatDue, Bool.and_eq_true, decide_eq_true_eq] at hr
    exact ⟨h.slot0, ⟨fun hz => absurd hz hr.1.1, h.slot1.held⟩, h.known0, h.known1, h.differ⟩
  · exact h

/-- A scan keeps what holds of the scanner between operations (R15, R126, R130). -/
theorem scanKeys_ok {cfg : Config} {now : U32} {raw : KeyPair} {km : KeyScanner} (hraw : raw.Ok cfg) (h : km.Ok cfg) :
    (scanKeys cfg now raw km).1.Ok cfg := by
  obtain ⟨hl, -, hs⟩ := scanKeys_pairs cfg now raw km
  have hpairs : (debounce cfg now raw km).lastRaw.Ok cfg ∧ (debounce cfg now raw km).stable.Ok cfg := by
    obtain ⟨-, e⟩ | ⟨-, -, e⟩ | ⟨-, -, e⟩ := debounce_cases cfg now raw km <;> rw [e]
    · exact ⟨hraw, h.stable⟩
    · exact ⟨h.raw, hraw⟩
    · exact ⟨h.raw, h.stable⟩
  have hf : SlotsOk cfg (debounce cfg now raw km).stable (fun c => km.stable.has c = true)
      (freeSlots (debounce cfg now raw km)) :=
    freeSlots_ok (by simpa using h.slot0) (by simpa using h.slot1) (by simpa using h.slotsDiffer)
  have hnew := hpairs.2
  generalize hkm : debounce cfg now raw km = km1 at hf hl hs hpairs hnew
  have h1 := pressEdge_ok (now := now) (old := km.stable) (c := km1.stable.first) (st := (freeSlots km1, [])) hf
    (fun hne => by simp [KeyPair.has, hne]) (fun _ hno => by simp [hno])
  have h2 := pressEdge_ok (now := now) (old := km.stable) (c := km1.stable.second) h1
    (fun hne => by simp [KeyPair.has, hne])
    (fun hne hno => by
      simp only [hno, Bool.false_eq_true, false_or]
      intro he
      exact hne (he.trans (hnew.distinct he.symm)))
  have h3 := repeatSlot1_ok (now := now) (repeatSlot0_ok (now := now) h2)
  have hscan : (scanKeys cfg now raw km).1 = (repeatSlot1 cfg now (repeatSlot0 cfg now
      (pressEdge cfg now km.stable km1.stable.second (pressEdge cfg now km.stable km1.stable.first (freeSlots km1, []))))).1 := by
    simp only [scanKeys, hkm]
  rw [← hscan] at h3
  exact ⟨hl ▸ hpairs.1, hs ▸ hnew, hs ▸ h3.slot0, hs ▸ h3.slot1, h3.differ⟩

/-! ## The events -/

/-- A press edge appends at most its own code (R124). -/
theorem pressEdge_events (cfg : Config) (now : U32) (old : KeyPair) (c : Byte) (st : KeyScanner × List Byte) :
    (pressEdge cfg now old c st).2 = st.2 ++ (if c ≠ 0#8 ∧ ¬ old.has c then [c] else []) := by
  unfold pressEdge
  split_ifs <;> simp

/-- A repeat appends at most its slot's code (R127). -/
theorem repeatSlot0_events (cfg : Config) (now : U32) (st : KeyScanner × List Byte) :
    (repeatSlot0 cfg now st).2 = st.2 ++ (if repeatDue now st.1.slot0 st.2.length then [st.1.slot0.code] else []) := by
  unfold repeatSlot0
  split_ifs <;> simp

theorem repeatSlot1_events (cfg : Config) (now : U32) (st : KeyScanner × List Byte) :
    (repeatSlot1 cfg now st).2 = st.2 ++ (if repeatDue now st.1.slot1 st.2.length then [st.1.slot1.code] else []) := by
  unfold repeatSlot1
  split_ifs <;> simp

@[simp] theorem repeatSlot0_slot1 (cfg : Config) (now : U32) (st : KeyScanner × List Byte) :
    (repeatSlot0 cfg now st).1.slot1 = st.1.slot1 := by
  unfold repeatSlot0
  split_ifs <;> rfl

/-- Rearming keeps the code of slot 0. -/
theorem repeatSlot0_code (cfg : Config) (now : U32) (st : KeyScanner × List Byte) :
    (repeatSlot0 cfg now st).1.slot0.code = st.1.slot0.code := by
  unfold repeatSlot0
  split_ifs <;> rfl

@[simp] theorem repeatSlot1_slot0 (cfg : Config) (now : U32) (st : KeyScanner × List Byte) :
    (repeatSlot1 cfg now st).1.slot0 = st.1.slot0 := by
  unfold repeatSlot1
  split_ifs <;> rfl

/-- Rearming keeps the code of slot 1. -/
theorem repeatSlot1_code (cfg : Config) (now : U32) (st : KeyScanner × List Byte) :
    (repeatSlot1 cfg now st).1.slot1.code = st.1.slot1.code := by
  unfold repeatSlot1
  split_ifs <;> rfl

/-- A press edge leaves each slot alone, or takes it while free (R125). -/
theorem pressEdge_slots (cfg : Config) (now : U32) (old : KeyPair) (c : Byte) (st : KeyScanner × List Byte) :
    ((pressEdge cfg now old c st).1.slot0 = st.1.slot0 ∨
      (st.1.slot0.code = 0#8 ∧ c ≠ 0#8 ∧ (pressEdge cfg now old c st).1.slot0 = newSlot cfg now c)) ∧
    ((pressEdge cfg now old c st).1.slot1 = st.1.slot1 ∨
      (st.1.slot1.code = 0#8 ∧ c ≠ 0#8 ∧ (pressEdge cfg now old c st).1.slot1 = newSlot cfg now c)) := by
  unfold pressEdge takeSlot
  split_ifs with h hr h0 h1
  · exact ⟨.inr ⟨h0, h.1, rfl⟩, .inl rfl⟩
  · exact ⟨.inl rfl, .inr ⟨h1, h.1, rfl⟩⟩
  · exact ⟨.inl rfl, .inl rfl⟩
  · exact ⟨.inl rfl, .inl rfl⟩
  · exact ⟨.inl rfl, .inl rfl⟩

end Sys2Proof.Machine
end

