-- ==== Sys2Proof/Laws/PerInstr.lean ====
section
/-! SUPPORT. Facts about every operation as syntax, one lemma per constructor: decoding an encoded operation gives it
back. -/

namespace Sys2Proof

/-- A field that lies inside the word's fields. -/
theorem wordOf_field {n : Nat} (x : BitVec n) (lo len : Nat) (h : lo + len ≤ 64) :
    (wordOf x).extractLsb' lo len = x.extractLsb' lo len :=
  BitVec.extractLsb'_setWidth_of_le h

/-- Bits above a word's fields are 0. -/
theorem extractLsb'_above {n : Nat} (x : BitVec n) (lo len : Nat) (h : n ≤ lo) : x.extractLsb' lo len = 0#len := by
  ext i hi
  simp only [BitVec.getElem_extractLsb', BitVec.getElem_zero]
  exact BitVec.getLsbD_of_ge _ _ (by omega)

theorem extractLsb'_all {n : Nat} (x : BitVec n) : x.extractLsb' 0 n = x := by
  ext i hi
  simp

theorem within_ok {f : Format} {unused : List (Nat × Nat)} {w : IssueWord} {i : Instr}
    (h : unused.all (fun u => decide (w.extractLsb' u.1 u.2 = 0#u.2)) = true) : within f unused w i = .ok i := by
  unfold within
  rw [if_pos h]

namespace Laws.DecodeEncode

/-- Decoding what `encode` gives for a well-formed operation answers that operation. -/
def Statement (i : Instr) : Prop := i.wf = true → decode (encode i).1 (encode i).2 = .ok i

theorem nop : Statement .nop := fun _ => by decide
theorem accTake : Statement .accTake := fun _ => by decide
theorem accFlush : Statement .accFlush := fun _ => by decide
theorem reservedA : Statement .reservedA := fun _ => by decide
theorem reservedB : Statement .reservedB := fun _ => by decide
theorem reservedC : Statement .reservedC := fun _ => by decide
theorem reservedD : Statement .reservedD := fun _ => by decide
theorem reservedE : Statement .reservedE := fun _ => by decide
theorem reservedF : Statement .reservedF := fun _ => by decide
theorem phEncoder : Statement .phEncoder := fun _ => by decide

theorem qsTick (cnt : U16) : Statement (.qsTick cnt) := by
  intro _
  simp (disch := decide) only [encode, decode, decodeOp4, fieldCnt, wordOf_field, BitVec.extractLsb'_append_eq_of_add_le,
    BitVec.extractLsb'_append_eq_of_le, Nat.reduceSub, extractLsb'_all, BitVec.toNat_ofNat, Nat.reducePow, Nat.reduceMod]
  exact within_ok (by
    simp (disch := decide) only [List.all_cons, List.all_nil, wordOf_field, extractLsb'_above,
      decide_true,
      Bool.and_self])

theorem accAdd (d : I32) : Statement (.accAdd d) := by
  intro _
  simp (disch := decide) only [encode, decode, decodeOp4, fieldWord, wordOf_field, BitVec.extractLsb'_append_eq_of_add_le,
    BitVec.extractLsb'_append_eq_of_le, Nat.reduceSub, extractLsb'_all, BitVec.toNat_ofNat, Nat.reducePow, Nat.reduceMod]
  exact within_ok (by
    simp (disch := decide) only [List.all_cons, List.all_nil, wordOf_field, extractLsb'_above,
      decide_true,
      Bool.and_self])

theorem kmScan (now : U32) (keys : BitVec 16) : Statement (.kmScan now keys) := by
  intro _
  simp (disch := decide) only [encode, decode, decodeOp4, fieldWord, fieldKeys, wordOf_field, BitVec.extractLsb'_append_eq_of_add_le,
    BitVec.extractLsb'_append_eq_of_le, Nat.reduceSub, extractLsb'_all, BitVec.toNat_ofNat, Nat.reducePow, Nat.reduceMod]
  exact within_ok (by
    simp (disch := decide) only [List.all_cons, List.all_nil, wordOf_field, extractLsb'_above,
      decide_true,
      Bool.and_self])

theorem rmRead (now : U32) (rotN : BitVec 6) : Statement (.rmRead now rotN) := by
  intro _
  simp (disch := decide) only [encode, decode, decodeOp4, fieldWord, fieldRot, wordOf_field, BitVec.extractLsb'_append_eq_of_add_le,
    BitVec.extractLsb'_append_eq_of_le, Nat.reduceSub, extractLsb'_all, BitVec.toNat_ofNat, Nat.reducePow, Nat.reduceMod]
  exact within_ok (by
    simp (disch := decide) only [List.all_cons, List.all_nil, wordOf_field, extractLsb'_above,
      decide_true,
      Bool.and_self])

theorem rxChunk (c : Chunk) : Statement (.rxChunk c) := by
  intro _
  simp (disch := decide) only [encode, decode, decodeOp4, fieldChunk, wordOf_field, BitVec.extractLsb'_append_eq_of_add_le,
    BitVec.extractLsb'_append_eq_of_le, Nat.reduceSub, extractLsb'_all, BitVec.toNat_ofNat, Nat.reducePow, Nat.reduceMod]
  exact within_ok (by
    simp (disch := decide) only [List.all_cons, List.all_nil, wordOf_field, extractLsb'_above,
      decide_true,
      Bool.and_self])

theorem schStep (now : U32) (keys : BitVec 16) (rotN : BitVec 6) (tr : BitVec 2) : Statement (.schStep now keys rotN tr) := by
  intro _
  simp (disch := decide) only [encode, decode, decodeOp4, fieldWord, fieldKeys, fieldStepRot, fieldStepTr, wordOf_field, BitVec.extractLsb'_append_eq_of_add_le,
    BitVec.extractLsb'_append_eq_of_le, Nat.reduceSub, extractLsb'_all, BitVec.toNat_ofNat, Nat.reducePow, Nat.reduceMod]
  exact within_ok (by
    simp (disch := decide) only [List.all_cons, List.all_nil, wordOf_field, extractLsb'_above,
      BitVec.extractLsb'_append_eq_of_add_le, BitVec.extractLsb'_append_eq_of_le, Nat.reduceSub, extractLsb'_all, decide_true,
      Bool.and_self])

theorem txSend (now : U32) (tr : BitVec 2) : Statement (.txSend now tr) := by
  intro _
  simp (disch := decide) only [encode, decode, decodeOp4, fieldWord, fieldTr, wordOf_field, BitVec.extractLsb'_append_eq_of_add_le,
    BitVec.extractLsb'_append_eq_of_le, Nat.reduceSub, extractLsb'_all, BitVec.toNat_ofNat, Nat.reducePow, Nat.reduceMod]
  exact within_ok (by
    simp (disch := decide) only [List.all_cons, List.all_nil, wordOf_field, extractLsb'_above,
      decide_true,
      Bool.and_self])

theorem phButtons (now : U32) (keys : BitVec 16) : Statement (.phButtons now keys) := by
  intro _
  simp (disch := decide) only [encode, decode, decodePhase2, fieldWord, fieldKeys, wordOf_field, BitVec.extractLsb'_append_eq_of_add_le,
    BitVec.extractLsb'_append_eq_of_le, Nat.reduceSub, extractLsb'_all, BitVec.toNat_ofNat, Nat.reducePow, Nat.reduceMod]
  exact within_ok (by
    simp (disch := decide) only [List.all_cons, List.all_nil, wordOf_field, extractLsb'_above,
      BitVec.extractLsb'_append_eq_of_add_le, BitVec.extractLsb'_append_eq_of_le, Nat.reduceSub, extractLsb'_all, decide_true,
      Bool.and_self])

theorem phRotary (now : U32) (rotN : BitVec 6) : Statement (.phRotary now rotN) := by
  intro _
  simp (disch := decide) only [encode, decode, decodePhase2, fieldWord, fieldRot, wordOf_field, BitVec.extractLsb'_append_eq_of_add_le,
    BitVec.extractLsb'_append_eq_of_le, Nat.reduceSub, extractLsb'_all, BitVec.toNat_ofNat, Nat.reducePow, Nat.reduceMod]
  exact within_ok (by
    simp (disch := decide) only [List.all_cons, List.all_nil, wordOf_field, extractLsb'_above,
      BitVec.extractLsb'_append_eq_of_add_le, BitVec.extractLsb'_append_eq_of_le, Nat.reduceSub, extractLsb'_all, decide_true,
      Bool.and_self])

theorem phUsbSend (now : U32) (tr : BitVec 2) : Statement (.phUsbSend now tr) := by
  intro _
  simp (disch := decide) only [encode, decode, decodePhase2, fieldWord, fieldTr, wordOf_field, BitVec.extractLsb'_append_eq_of_add_le,
    BitVec.extractLsb'_append_eq_of_le, Nat.reduceSub, extractLsb'_all, BitVec.toNat_ofNat, Nat.reducePow, Nat.reduceMod]
  exact within_ok (by
    simp (disch := decide) only [List.all_cons, List.all_nil, wordOf_field, extractLsb'_above,
      BitVec.extractLsb'_append_eq_of_add_le, BitVec.extractLsb'_append_eq_of_le, Nat.reduceSub, extractLsb'_all, decide_true,
      Bool.and_self])

theorem rxcSync (tail : BitVec 40) : Statement (.rxcSync tail) := by
  intro _
  have hw : (wordOf (tail ++ magic)).extractLsb' 0 56 = tail ++ magic := by
    rw [wordOf_field _ _ _ (by decide), extractLsb'_all]
  have hm : Chunk.head16 (tail ++ magic) = magic := by
    unfold Chunk.head16
    rw [BitVec.extractLsb'_append_eq_of_add_le (by decide), extractLsb'_all]
  have ht : (tail ++ magic : Chunk).extractLsb' 16 40 = tail := by
    rw [BitVec.extractLsb'_append_eq_of_le (by decide), Nat.sub_self, extractLsb'_all]
  simp only [encode, decode, decodeChunk56, hw, chunkInstr, hm, ht, if_true]
  exact within_ok (by
    simp (disch := decide) only [List.all_cons, List.all_nil, wordOf_field, extractLsb'_above, decide_true, Bool.and_self])

theorem rxcData (c : Chunk) : Statement (.rxcData c) := by
  intro hc
  have hw : (wordOf c).extractLsb' 0 56 = c := by rw [wordOf_field _ _ _ (by decide), extractLsb'_all]
  have hm : Chunk.head16 c ≠ magic := of_decide_eq_true hc
  simp only [encode, decode, decodeChunk56, hw, chunkInstr, if_neg hm]
  exact within_ok (by
    simp (disch := decide) only [List.all_cons, List.all_nil, wordOf_field, extractLsb'_above, decide_true, Bool.and_self])

end Laws.DecodeEncode
end Sys2Proof
end

