-- ==== Sys2Proof/Laws/Reassembler.lean ====
section
/-! SUPPORT. What a chunk does. No chunk faults, and a completed report replaces the shared one. -/

namespace Sys2Proof.Machine

@[simp] theorem length_chunkBytes (c : Chunk) : (chunkBytes c).length = 7 := rfl

/-- The state after a completed report. -/
def completed (s : State) : State :=
  emit .notifyStatus
    (((s.withBuf (s.buf.set .shr (s.buf.shr.setBytes 0 (s.buf.scr.getBytes 0 s.cfg.reportLen)))).withShr
      { valid := true, dayKey := s.byteAt .scr s.cfg.layout.dayKey.val }).withRx { s.rx with syncFound := false })

theorem completeReport_eq {s : State} (h : s.cfg.reportLen ≤ scratchLen) : completeReport s = .next (completed s) := by
  unfold completeReport
  rw [readBytes_inside (by simpa [Space.size] using h)]
  simp only [chain_next, Buffers.get]
  rw [writeBytes_inside (by simp [Space.size])]
  rfl

/-- The state after a chunk is stored, before completion. -/
def stored (c : Chunk) (s : State) : State :=
  (s.withBuf (s.buf.set .scr (s.buf.scr.setBytes s.rx.offset (chunkBytes c)))).withRx
    { s.rx with offset := s.rx.offset + chunkLen }

/-- Everything storing a chunk can do (R152, R154); it never faults. -/
theorem storeChunk_cases (c : Chunk) (s : State) :
    (scratchLen < s.rx.offset + chunkLen ∧
      storeChunk c s = .next (raise (.rxOverflow s.rx.offset) (s.withRx { s.rx with syncFound := false }))) ∨
    (s.rx.offset + chunkLen ≤ scratchLen ∧ s.cfg.reportLen ≤ s.rx.offset + chunkLen ∧
      storeChunk c s = .next (completed (stored c s))) ∨
    (s.rx.offset + chunkLen ≤ scratchLen ∧ s.rx.offset + chunkLen < s.cfg.reportLen ∧
      storeChunk c s = .next (stored c s)) := by
  unfold storeChunk
  split
  · next h => exact .inl ⟨h, rfl⟩
  · next h =>
    have h' : s.rx.offset + chunkLen ≤ scratchLen := by omega
    rw [writeBytes_inside (by simpa [Space.size] using h')]
    have hf : finishChunk (stored c s) = if s.cfg.reportLen ≤ s.rx.offset + chunkLen then completeReport (stored c s)
        else .next (stored c s) := rfl
    refine .inr ?_
    simp only [chain_next]
    change (_ ∧ _ ∧ finishChunk (stored c s) = _) ∨ (_ ∧ _ ∧ finishChunk (stored c s) = _)
    rw [hf]
    split
    · next hr => exact .inl ⟨h', hr, completeReport_eq (by simp only [stored, State.withRx_cfg, State.withBuf_cfg]; omega)⟩
    · next hr => exact .inr ⟨h', by omega, rfl⟩

theorem storeChunk_next (c : Chunk) (s : State) : ∃ t, storeChunk c s = .next t := by
  obtain ⟨-, h⟩ | ⟨-, -, h⟩ | ⟨-, -, h⟩ := storeChunk_cases c s <;> exact ⟨_, h⟩

theorem rxChunk_next (c : Chunk) (s : State) : ∃ t, rxChunk c s = .next t := by
  unfold rxChunk syncChunk dataChunk
  split_ifs
  all_goals first
    | exact storeChunk_next _ _
    | exact ⟨_, rfl⟩

end Sys2Proof.Machine
end

