-- ==== Sys2Proof/Laws/Rotary.lean ====
section
/-! SUPPORT. What a rotary read does. -/

namespace Sys2Proof.Machine

theorem rotDecode_isMode (cfg : Config) (rotN : BitVec 6) : isMode cfg (rotDecode cfg rotN) := by
  unfold rotDecode
  split
  · exact .inl rfl
  · exact .inr (by simp [Vector.mem_toList_iff])

/-- Everything a read can do to the latch (R141). -/
theorem latch_cases (cfg : Config) (now : U32) (raw : Byte) (rm : Rotary) :
    (raw ≠ cfg.modeOff ∧ raw ≠ rm.stable ∧ latch cfg now raw rm = ({ rm with offPending := false, stable := raw }, true)) ∨
    (raw ≠ cfg.modeOff ∧ raw = rm.stable ∧ latch cfg now raw rm = ({ rm with offPending := false }, false)) ∨
    (raw = cfg.modeOff ∧ rm.stable = cfg.modeOff ∧ latch cfg now raw rm = ({ rm with offPending := false }, false)) ∨
    (raw = cfg.modeOff ∧ rm.stable ≠ cfg.modeOff ∧ rm.offPending = false ∧
      latch cfg now raw rm = ({ rm with offPending := true, offSince := now }, false)) ∨
    (raw = cfg.modeOff ∧ rm.stable ≠ cfg.modeOff ∧ rm.offPending = true ∧ cfg.timing.rotSettle ≤ elapsed now rm.offSince ∧
      latch cfg now raw rm = ({ rm with stable := cfg.modeOff, offPending := false }, true)) ∨
    (raw = cfg.modeOff ∧ rm.stable ≠ cfg.modeOff ∧ rm.offPending = true ∧ elapsed now rm.offSince < cfg.timing.rotSettle ∧
      latch cfg now raw rm = (rm, false)) := by
  unfold latch
  by_cases h1 : raw = cfg.modeOff
  · by_cases h2 : rm.stable = cfg.modeOff
    · simp [h1, h2]
    · cases h3 : rm.offPending
      · simp [h1, h2]
      · by_cases h4 : cfg.timing.rotSettle ≤ elapsed now rm.offSince
        · simp [h1, h2, h4]
        · simp [h1, h2, h4]
          omega
  · by_cases h2 : raw = rm.stable
    · simp [h2, h2 ▸ h1]
    · simp [h1, h2]

/-- A read keeps what holds of the latch between operations (R30, R31). -/
theorem latch_ok {cfg : Config} {now : U32} {raw : Byte} {rm : Rotary} (hraw : isMode cfg raw) (h : rm.Ok cfg) :
    (latch cfg now raw rm).1.Ok cfg := by
  obtain ⟨_, _, e⟩ | ⟨_, _, e⟩ | ⟨_, _, e⟩ | ⟨_, hs, _, e⟩ | ⟨_, _, _, _, e⟩ | ⟨_, _, _, _, e⟩ :=
    latch_cases cfg now raw rm <;> rw [e]
  · exact ⟨hraw, fun hp => by simp at hp⟩
  · exact ⟨h.mode, fun hp => by simp at hp⟩
  · exact ⟨h.mode, fun hp => by simp at hp⟩
  · exact ⟨h.mode, fun _ => hs⟩
  · exact ⟨.inl rfl, fun hp => by simp at hp⟩
  · exact h

end Sys2Proof.Machine
end

