-- ==== Sys2Proof/Laws/Sampler.lean ====
section
/-! SUPPORT. What a tick and the accumulator operations do. -/

namespace Sys2Proof.Machine

theorem sampleDelta_bounds (prev cnt : U16) : -32768 ≤ sampleDelta prev cnt ∧ sampleDelta prev cnt ≤ 32767 := by
  unfold sampleDelta
  constructor
  · have := BitVec.le_toInt (cnt - prev); omega
  · have := BitVec.toInt_lt (x := cnt - prev); omega

theorem trem_four_bounds (b : Int) : -3 ≤ trem b 4 ∧ trem b 4 ≤ 3 := by
  rw [trem_eq_tmod]
  have h1 := Int.tmod_lt_of_pos b (show (0 : Int) < 4 by omega)
  have h2 := Int.lt_tmod_of_pos b (show (0 : Int) < 4 by omega)
  omega

/-- From a residue, the pulse buffer is the plain sum (40_quadrature.md R107). -/
theorem pulseBuffer_of_ok {qs : Sampler} (cnt : U16) (h : qs.Ok) :
    pulseBuffer qs cnt = qs.res.toInt + sampleDelta qs.prev cnt := by
  have hd := sampleDelta_bounds qs.prev cnt
  unfold Sampler.Ok at h
  exact sext32_of_bounds (by omega) (by omega)

@[simp] theorem qsTick_prev (cnt : U16) (s : State) : (qsTick cnt s).qs.prev = cnt := by
  unfold qsTick setDataReady accAdd
  dsimp only
  split <;> simp

/-- The new residue is the remainder of the pulse buffer. -/
theorem qsTick_res (cnt : U16) (s : State) : (qsTick cnt s).qs.res = BitVec.ofInt 32 (trem (pulseBuffer s.qs cnt) 4) := by
  unfold qsTick setDataReady accAdd
  dsimp only
  split <;> simp [trem, ppd]

/-- Whole detents go to the accumulator. -/
theorem qsTick_acc (cnt : U16) (s : State) :
    (qsTick cnt s).acc = s.acc + BitVec.ofInt 32 (tdiv (pulseBuffer s.qs cnt) 4) := by
  unfold qsTick setDataReady accAdd
  dsimp only
  split
  · simp [ppd]
  · next h => simp only [ppd, Decidable.not_not, Nat.cast_ofNat] at h; simp [h]

/-- The data-ready flag is set by exactly the ticks that add detents. -/
theorem qsTick_dataReady (cnt : U16) (s : State) :
    (qsTick cnt s).qs.dataReady = (decide (tdiv (pulseBuffer s.qs cnt) 4 ≠ 0) || s.qs.dataReady) := by
  unfold qsTick setDataReady accAdd
  dsimp only
  split
  · next h => simp only [ppd, Nat.cast_ofNat] at h; simp [h]
  · next h => simp only [ppd, Decidable.not_not, Nat.cast_ofNat] at h; simp [h]

/-- A tick writes the sampler and the accumulator and nothing else. -/
theorem qsTick_frame (cnt : U16) (s : State) :
    qsTick cnt s = (s.withQs (qsTick cnt s).qs).withAcc (qsTick cnt s).acc := by
  unfold qsTick setDataReady accAdd
  dsimp only
  split <;> rfl

theorem qsTick_ok (cnt : U16) (s : State) : (qsTick cnt s).qs.Ok := by
  have h := trem_four_bounds (pulseBuffer s.qs cnt)
  unfold Sampler.Ok
  rw [qsTick_res, toInt_ofInt32 (by omega) (by omega)]
  exact h

theorem accFlush_ok (s : State) : (accFlush s).qs.Ok := by
  simp [accFlush, clearDataReady, Sampler.Ok]

theorem accTake_res (s : State) : (accTake s).1.qs.res = s.qs.res := by
  simp [accTake, clearDataReady]

end Sys2Proof.Machine
end

