-- ==== Sys2Proof/Laws/Scheduler.lean ====
section
/-! SUPPORT. What the send primitive and the phase bodies can do; none of them faults. -/

namespace Sys2Proof.Machine

theorem length_outReport (s : State) : (outReport s).length = s.cfg.outLen := by
  unfold outReport Config.outLen
  cases s.cfg.outPad <;> rfl

/-- The state after `TX.COMPOSE`. -/
def composed (s : State) : State := s.withBuf (s.buf.set .out (s.buf.out.setBytes 0 (outReport s)))

theorem txCompose_eq (s : State) : txCompose s = .next (composed s) := by
  unfold txCompose
  rw [writeBytes_inside (by simp [length_outReport, Space.size])]
  rfl

/-- The bytes of `OUT`. -/
def outBytes (s : State) : List Byte := s.buf.out.getBytes 0 s.cfg.outLen

/-- Everything `TX.SEND` can do (R176). -/
theorem txSend_cases (now : U32) (tr : BitVec 2) (s : State) :
    (elapsed now s.txLast < s.cfg.timing.txFloor ∧ txSend now tr s = .next (raise .txFloor s, .busy)) ∨
    (s.cfg.timing.txFloor ≤ elapsed now s.txLast ∧ answerOf tr = .success ∧
      txSend now tr s = .next ((emit (.txReq (outBytes s)) s).withTxLast now, .success)) ∨
    (s.cfg.timing.txFloor ≤ elapsed now s.txLast ∧ answerOf tr = .busy ∧
      txSend now tr s = .next (raise .txBusy (emit (.txReq (outBytes s)) s), .busy)) ∨
    (s.cfg.timing.txFloor ≤ elapsed now s.txLast ∧ answerOf tr = .failure ∧
      txSend now tr s = .next (raise .txFailure (emit (.txReq (outBytes s)) s), .busy)) := by
  unfold txSend
  split
  · next h => exact .inl ⟨h, rfl⟩
  · next h =>
    rw [readBytes_inside (by simp [Space.size])]
    simp only [chain_next]
    refine .inr ?_
    cases hA : answerOf tr
    · exact .inl ⟨by omega, rfl, rfl⟩
    · exact .inr (.inl ⟨by omega, rfl, rfl⟩)
    · exact .inr (.inr ⟨by omega, rfl, rfl⟩)

/-- Everything an attempted send can do (R172, R176). -/
theorem attemptSend_cases (now : U32) (tr : BitVec 2) (s : State) :
    (elapsed now s.txLast < s.cfg.timing.txFloor ∧ attemptSend now tr s = .next (raise .txFloor (composed s))) ∨
    (s.cfg.timing.txFloor ≤ elapsed now s.txLast ∧ answerOf tr = .success ∧
      attemptSend now tr s = .next (((emit (.txReq (outBytes (composed s))) (composed s)).withTxLast now).withSch
        (noteSent s.sch s.rm.stable now))) ∨
    (s.cfg.timing.txFloor ≤ elapsed now s.txLast ∧ answerOf tr = .busy ∧
      attemptSend now tr s = .next (raise .txBusy (emit (.txReq (outBytes (composed s))) (composed s)))) ∨
    (s.cfg.timing.txFloor ≤ elapsed now s.txLast ∧ answerOf tr = .failure ∧
      attemptSend now tr s = .next (raise .txFailure (emit (.txReq (outBytes (composed s))) (composed s)))) := by
  unfold attemptSend
  rw [txCompose_eq]
  simp only [chain_next]
  obtain ⟨h, e⟩ | ⟨h, ha, e⟩ | ⟨h, ha, e⟩ | ⟨h, ha, e⟩ := txSend_cases now tr (composed s) <;> rw [e] <;>
    simp only [composed, State.withBuf_txLast, State.withBuf_cfg] at h
  · exact .inl ⟨h, rfl⟩
  · exact .inr (.inl ⟨h, ha, rfl⟩)
  · exact .inr (.inr (.inl ⟨h, ha, rfl⟩))
  · exact .inr (.inr (.inr ⟨h, ha, rfl⟩))

/-- The composed buffer reads as the report. -/
theorem composed_out (s : State) (h : s.buf.out.wf = true) (i : Nat) (hi : i < s.cfg.outLen) :
    (composed s).buf.out.get i = (outReport s).getD i 0#8 := by
  have hset : (composed s).buf.out = s.buf.out.setBytes 0 (outReport s) := rfl
  rw [hset, Memory.get_setBytes _ _ _ h, length_outReport, if_pos (by omega)]
  simp

/-- A phase USB_SEND either attempts a send or ends after its take (R172). -/
theorem phUsbSend_cases (now : U32) (tr : BitVec 2) (s : State) :
    phUsbSend now tr s = attemptSend now tr (setWheel (takeMotion s).2 (takeMotion s).1) ∨
    phUsbSend now tr s = .next (setWheel (takeMotion s).2 (takeMotion s).1) := by
  unfold phUsbSend
  dsimp only
  split
  · exact .inl rfl
  · exact .inr rfl

theorem attemptSend_next (now : U32) (tr : BitVec 2) (s : State) : ∃ t, attemptSend now tr s = .next t := by
  obtain ⟨-, h⟩ | ⟨-, -, h⟩ | ⟨-, -, h⟩ | ⟨-, -, h⟩ := attemptSend_cases now tr s <;> exact ⟨_, h⟩

theorem phUsbSend_next (now : U32) (tr : BitVec 2) (s : State) : ∃ t, phUsbSend now tr s = .next t := by
  obtain h | h := phUsbSend_cases now tr s
  · rw [h]; exact attemptSend_next _ _ _
  · exact ⟨_, h⟩

theorem phaseBody_next (now : U32) (keys : BitVec 16) (rotN : BitVec 6) (tr : BitVec 2) (s : State) :
    ∃ t, phaseBody now keys rotN tr s = .next t := by
  unfold phaseBody
  split
  · exact ⟨_, rfl⟩
  · exact ⟨_, rfl⟩
  · exact ⟨_, rfl⟩
  · exact phUsbSend_next _ _ _

/-- `SCH.STEP` runs the operation its phase register selects (R72, R165). -/
theorem phaseBody_of_phase (now : U32) (keys : BitVec 16) (rotN : BitVec 6) (tr : BitVec 2) (s : State) :
    (s.sch.phase = 0#2 ∧ phaseBody now keys rotN tr s = .next (phEncoder s)) ∨
    (s.sch.phase = 1#2 ∧ phaseBody now keys rotN tr s = .next (phButtons now keys s)) ∨
    (s.sch.phase = 2#2 ∧ phaseBody now keys rotN tr s = .next (phRotary now rotN s)) ∨
    (s.sch.phase = 3#2 ∧ phaseBody now keys rotN tr s = phUsbSend now tr s) := by
  have h : s.sch.phase = 0#2 ∨ s.sch.phase = 1#2 ∨ s.sch.phase = 2#2 ∨ s.sch.phase = 3#2 := by
    generalize s.sch.phase = p
    revert p
    decide
  unfold phaseBody
  rcases h with h | h | h | h <;> simp [h]

/-! ## The speed code -/

theorem speedMap_bounds (t : SpeedTable) (v : I32) : -127 ≤ (speedMap t v).toInt ∧ (speedMap t v).toInt ≤ 127 := by
  unfold speedMap
  dsimp only
  have hc := clamp_bounds (v := if v.toInt < 0 then -(speedCode t.points t.other (mag32 v) : Int)
    else (speedCode t.points t.other (mag32 v) : Int)) (show -wheelMax ≤ wheelMax by decide)
  simp only [wheelMax] at hc ⊢
  rw [toInt_ofInt8 (by omega) (by omega)]
  exact hc

end Sys2Proof.Machine
end

