-- ==== Sys2Proof/Machine/Qdec.lean ====
section
/-! DEFINITION. The optional quadrature front end QDEC.EDGE (40_quadrature.md R112): general knowledge in the spec, no part
of the normative engine (00_scope.md R6), so it is a unit beside the engine and not in State. Its `cnt` is the `cnt`
operand of QS.TICK. -/

namespace Sys2Proof.Machine

/-- `QDEC.ab`, the previous levels `{a, b}`, and `QDEC.cnt`. -/
structure QuadDecoder where
  ab : BitVec 2
  cnt : U16
  deriving DecidableEq, Repr

/-- The place of a pair of levels in the sequence 00, 01, 11, 10. -/
def quadPlace (ab : BitVec 2) : BitVec 2 :=
  match ab.toNat with
  | 0 => 0
  | 1 => 1
  | 3 => 2
  | _ => 3

/-- The count step of a transition: +1 forward, -1 backward, 0 for none or for an invalid double change. -/
def quadDelta (old new : BitVec 2) : Int :=
  match (quadPlace new - quadPlace old).toNat with
  | 1 => 1
  | 3 => -1
  | _ => 0

/-- `QDEC.EDGE a b` with `QDEC_DIR` = `dir`. -/
def QuadDecoder.edge (dir : Int) (new : BitVec 2) (q : QuadDecoder) : QuadDecoder where
  ab := new
  cnt := q.cnt + BitVec.ofInt 16 (dir * quadDelta q.ab new)

end Sys2Proof.Machine
end

