-- ==== Sys2Proof/Machine/Trace.lean ====
section
/-! DEFINITION. Operation traces (30_encoding.md R91) and the pseudo-operations of R92, as lists of inputs. -/

namespace Sys2Proof.Machine

/-- One line of a trace: the operation issued by the context that may issue it. -/
def traceOp (cfg : Config) (i : Instr) : Input := .issue (issuerOf cfg (issueWord i)) (issueWord i)

/-- The operands of SCH.STEP that a line may leave out (R91): no key down, nothing selected, SUCCESS. -/
structure StepOperands where
  keys : BitVec 16 := 0x0000#16
  rotN : BitVec 6 := 0b111111#6
  tr : BitVec 2 := 0#2
  deriving DecidableEq, Repr

/-- `SCH.STEP now …`. -/
def traceStep (cfg : Config) (now : U32) (o : StepOperands) : Input :=
  traceOp cfg (.schStep now o.keys o.rotN o.tr)

/-- `SCH.ROUND`: four steps with the same operands. -/
def schRound (cfg : Config) (now : U32) (o : StepOperands) : List Input := List.replicate 4 (traceStep cfg now o)

/-- `RX.REPORT b`: six chunks. -/
def rxReport (cfg : Config) (bs : List Byte) : List Input := (reportChunks bs).map fun c => traceOp cfg (.rxChunk c)

/-- `QS.TICKS`: one tick per listed value. -/
def qsTicks (cfg : Config) (cnts : List U16) : List Input := cnts.map fun c => traceOp cfg (.qsTick c)

/-- `IDLE from to`: one round with default operands for each of the `n` instants from `t0` on. -/
def idleRounds (cfg : Config) (t0 n : Nat) : List Input :=
  (List.range n).flatMap fun k => schRound cfg (BitVec.ofNat 32 (t0 + k)) {}

end Sys2Proof.Machine
end

