-- ==== Sys2Proof/Tests/Slice0.lean ====
section
/-! SUPPORT. Tests with expected results from the spec (95_test_vectors.md unless another place is named), and a witness for
the hypotheses of every statement of Certificates/Slice0/Obligations.lean. -/

namespace Sys2Proof.Tests

open Sys2Proof.Machine

/-! ## Helpers -/

/-- A view of the next state, if there is one. -/
def observe {α : Type} (view : State → α) (r : Result State) : Option α :=
  match r with
  | .next t => some (view t)
  | .fault _ => none
  | .refused _ => none

/-- The refusal, if there is one. -/
def refusal (r : Result State) : Option Refusal :=
  match r with
  | .next _ => none
  | .fault _ => none
  | .refused x => some x

/-- The operation a word decodes to, if any. -/
def decoded (f : Format) (w : IssueWord) : Option Instr :=
  match decode f w with
  | .ok i => some i
  | .error _ => none

/-- Reset, as the main context and as the interrupt sees it. -/
def main0 : State := State.reset
def isr0 : State := { State.reset with ctx := .isr }

/-! ## WellFormed refuses what it should -/

theorem smoke_data_chunk_with_marker : Instr.wf (.rxcData 0x0300020001fdfe#56) = false := by decide
theorem smoke_data_chunk : Instr.wf (.rxcData 0x00060005000400#56) = true := by decide
theorem smoke_keys_repeated : Config.keysOk { Config.cfg0 with keycode := Config.cfg0.keycode.set 5 0x01#8 } = false := by
  decide
theorem smoke_key_zero : Config.keysOk { Config.cfg0 with keycode := Config.cfg0.keycode.set 0 0x00#8 } = false := by decide
theorem smoke_modes_repeated : Config.modesOk { Config.cfg0 with modeOff := 0x14#8 } = false := by decide
theorem smoke_report_too_long : Config.reportLenOk { Config.cfg0 with reportLen := 43 } = false := by decide
theorem smoke_report_too_short : Config.reportLenOk { Config.cfg0 with reportLen := 6 } = false := by decide
theorem smoke_layout_outside : Config.layoutOk { Config.cfg0 with layout := { dayKey := 37 } } = false := by decide
theorem smoke_word_field_outside : Config.layoutOk { Config.cfg0 with layout := { feedRate := 36 } } = false := by decide
theorem smoke_cfg0 : Config.cfg0.wf = true := by decide

/-! ## Decode: the words of part 3, code digit lowest (30_encoding.md R71 to R73) -/

theorem decode_nop : decoded .op4 0b0000#64 = some .nop := by decide
theorem decode_qsTick : decoded .op4 0xfffe1#64 = some (.qsTick 0xfffe#16) := by decide
theorem decode_accAdd : decoded .op4 0xfffffffe2#64 = some (.accAdd 0xfffffffe#32) := by decide
theorem decode_accTake : decoded .op4 0b0011#64 = some .accTake := by decide
theorem decode_accFlush : decoded .op4 0b0100#64 = some .accFlush := by decide
theorem decode_kmScan : decoded .op4 0x1000000000785#64 = some (.kmScan 0x78#32 0x1000#16) := by decide
theorem decode_rmRead : decoded .op4 0x3d000000646#64 = some (.rmRead 0x64#32 0b111101#6) := by decide
theorem decode_rxChunk : decoded .op4 0x0300020001fdfe7#64 = some (.rxChunk 0x0300020001fdfe#56) := by decide
theorem decode_schStep :
    decoded .op4 0x13d0001000000528#64 = some (.schStep 0x52#32 0x0001#16 0b111101#6 0b01#2) := by decide
theorem decode_txSend : decoded .op4 0x20000025d9#64 = some (.txSend 0x25d#32 0b10#2) := by decide
theorem decode_reservedA : decoded .op4 0b1010#64 = some .reservedA := by decide
theorem decode_reservedB : decoded .op4 0b1011#64 = some .reservedB := by decide
theorem decode_reservedC : decoded .op4 0b1100#64 = some .reservedC := by decide
theorem decode_reservedD : decoded .op4 0b1101#64 = some .reservedD := by decide
theorem decode_reservedE : decoded .op4 0b1110#64 = some .reservedE := by decide
theorem decode_reservedF : decoded .op4 0b1111#64 = some .reservedF := by decide
theorem decode_phEncoder : decoded .phase2 0b00#64 = some .phEncoder := by decide
theorem decode_phButtons : decoded .phase2 0b01#64 = some (.phButtons 0#32 0#16) := by decide
theorem decode_phRotary : decoded .phase2 0b10#64 = some (.phRotary 0#32 0#6) := by decide
theorem decode_phUsbSend : decoded .phase2 0b11#64 = some (.phUsbSend 0#32 0#2) := by decide
theorem decode_rxcSync : decoded .chunk56 0x0300020001fdfe#64 = some (.rxcSync 0x0300020001#40) := by decide
theorem decode_rxcData : decoded .chunk56 0x00060005000400#64 = some (.rxcData 0x00060005000400#56) := by decide
/-- Byte 0 alone does not make a marker chunk. -/
theorem decode_half_marker : decoded .chunk56 0x0300020001fcfe#64 = some (.rxcData 0x0300020001fcfe#56) := by decide
/-- A bit outside every field is refused. -/
theorem decode_stray_bit : decoded .op4 0x13#64 = none := by decide
theorem decode_table_words :
    decodeTableWord 8 0x8 = some (.schStep 0#32 0#16 0#6 0#2) ∧ decodeTableWord 56 0xfdfe = some (.rxcSync 0#40) ∧
      decodeTableWord 2 2 = some (.phRotary 0#32 0#6) := by decide

/-! ## Sampler and accumulator -/

/-- Q1. -/
theorem test_qsTick_wrap :
    observe (fun t => (t.qs, t.acc)) (exec (.qsTick 2#16) { isr0 with qs := { prev := 65534#16 } }) =
      some ({ prev := 2#16, res := 0#32, dataReady := true }, 1#32) := by decide
/-- Q6. -/
theorem test_qsTick_reversal :
    observe (fun t => (t.qs, t.acc)) (exec (.qsTick 95#16) { isr0 with qs := { prev := 100#16, res := 3#32 } }) =
      some ({ prev := 95#16, res := BitVec.ofInt 32 (-2), dataReady := false }, 0#32) := by decide
/-- A5. -/
theorem test_accAdd_wraps :
    observe (fun t => (t.acc, t.qs.dataReady))
      (exec (.accAdd 1#32) { isr0 with acc := 0x7FFFFFFF#32, qs := { prev := 0#16, dataReady := true } }) =
      some (0x80000000#32, true) := by decide
/-- A1. -/
theorem test_accTake :
    observe (fun t => (t.acc, t.qs, t.ret))
      (exec .accTake { main0 with acc := 7#32, qs := { prev := 500#16, res := 2#32, dataReady := true } }) =
      some (0#32, { prev := 500#16, res := 2#32, dataReady := false }, .taken 7#32) := by decide
/-- A3. -/
theorem test_accFlush :
    observe (fun t => (t.acc, t.qs))
      (exec .accFlush { main0 with
        acc := BitVec.ofInt 32 (-12), qs := { prev := 500#16, res := BitVec.ofInt 32 (-3), dataReady := true } }) =
      some (0#32, { prev := 500#16, res := 0#32, dataReady := false }) := by decide
/-- 40_quadrature.md R112: the four transitions of one cycle forward count 4, and a double change none. -/
theorem test_quadrature_cycle :
    ((((({ ab := 0#2, cnt := 65534#16 } : QuadDecoder).edge 1 1#2).edge 1 3#2).edge 1 2#2).edge 1 0#2 =
      { ab := 0#2, cnt := 2#16 }) ∧
    (({ ab := 0#2, cnt := 5#16 } : QuadDecoder).edge 1 3#2 = { ab := 3#2, cnt := 5#16 }) := by decide

/-! ## Keys -/

/-- K2, the scan at 145: the window is just reached. -/
theorem test_kmScan_press :
    observe (fun t => (t.ret, t.km.stable))
      (exec (.kmScan 145#32 0x0001#16) { main0 with km := { lastRaw := ⟨1#8, 0#8⟩, lastChange := 130#32 } }) =
      some (.scanned 1#8 0#8, ⟨1#8, 0#8⟩) := by decide
/-- K4, the scan at 520: the REPEAT of the second key of the pair comes out first. -/
theorem test_kmScan_repeat :
    observe (fun t => (t.ret, t.km.slot0))
      (exec (.kmScan 520#32 0x1001#16) { main0 with km := {
        lastRaw := ⟨1#8, 0x0D#8⟩, lastChange := 100#32, stable := ⟨1#8, 0x0D#8⟩, slot0 := ⟨0x0D#8, 120#32, 520#32⟩ } }) =
      some (.scanned 0x0D#8 0#8, ⟨0x0D#8, 120#32, 700#32⟩) := by decide
/-- R13: three keys down in a column; rows 2 and 3 are not driven. -/
theorem test_kmScan_short_circuit :
    observe (fun t => (t.km.lastRaw, t.log)) (exec (.kmScan 5#32 0x0111#16) main0) =
      some (⟨1#8, 5#8⟩, [.rowDriven 0, .rowDriven 1, .raised .kmExtraKey]) := by decide

/-! ## Rotary switch -/

/-- M3, the read at 150: off is accepted. -/
theorem test_rmRead_off :
    observe (fun t => (t.ret, t.rm.offPending))
      (exec (.rmRead 150#32 0b111111#6) { main0 with rm := ⟨0x12#8, true, 50#32⟩ }) =
      some (.modeRead 0x00#8 true, false) := by decide
/-- M1, 001111: the lowest low line wins. -/
theorem test_rmRead_multi :
    observe (fun t => (t.ret, t.log)) (exec (.rmRead 0#32 0b001111#6) main0) =
      some (.modeRead 0x15#8 true, [.raised .rotMulti]) := by decide

/-! ## Inbound report -/

/-- X2, the marker while synced. -/
theorem test_rxChunk_resync :
    observe (fun t => (t.rx, t.log, t.byteAt .scr 2))
      (exec (.rxChunk 0x070d80000cfdfe#56) { main0 with rx := ⟨21, true⟩ }) =
      some (⟨7, true⟩, [.raised (.rxResync 21)], 0x0c#8) := by decide
/-- X5, the guard from offset 36. -/
theorem test_rxChunk_overflow :
    observe (fun t => (t.rx, t.log, t.buf))
      (exec (.rxChunk 0x07060504030201#56) { main0 with rx := ⟨36, true⟩ }) =
      some (⟨36, false⟩, [.raised (.rxOverflow 36)], {}) := by decide
theorem test_rxcSync :
    observe (fun t => (t.rx, t.byteAt .scr 0, t.byteAt .scr 1, t.byteAt .scr 6)) (exec (.rxcSync 0x0300020001#40) main0) =
      some (⟨7, true⟩, 0xFE#8, 0xFD#8, 0x03#8) := by decide
/-- X2, the last row: the sixth chunk completes the report. -/
theorem test_rxcData_completes :
    observe (fun t => (t.rx, t.shr, t.byteAt .shr 36, t.byteAt .shr 37, t.log))
      (exec (.rxcData 0xeeeeeeeeeea701#56) { main0 with rx := ⟨35, true⟩ }) =
      some (⟨42, false⟩, ⟨true, 0xA7#8⟩, 0xA7#8, 0x00#8, [.notifyStatus]) := by decide
/-- X1: `axes[1]` and `axes[5]` of report `B`. -/
theorem test_report_axes :
    let r := decodeReport {} (Memory.setBytes [] 0 ([0xfe, 0xfd, 0x0c, 0x00, 0x80, 0x0d, 0x07, 0x00, 0xf4, 0x81, 0xff, 0xff,
      0x0f, 0x27, 0x00, 0x00, 0x00, 0x00, 0x2c, 0x01, 0x01, 0x80, 0x00, 0x80, 0xff, 0x7f] : List Byte))
    r.axes[1].integer = 7 ∧ r.axes[1].sign = true ∧ r.axes[1].magnitude = 500#15 ∧ r.axes[5].integer = -32768 ∧
      r.axes[5].sign = false ∧ r.axes[5].magnitude = 32767#15 := by decide

/-! ## Scheduler -/

/-- 44_scheduler.md R166, the example. -/
theorem test_phEncoder :
    observe (fun t => (t.acc, t.qs.res, t.sch.flushPending))
      (exec .phEncoder { main0 with
        acc := 5#32, qs := { prev := 0#16, res := 2#32 }, sch := { main0.sch with flushPending := true } }) =
      some (0#32, 0#32, false) := by decide
/-- 44_scheduler.md R167, the example. -/
theorem test_phButtons :
    observe (fun t => (t.sch.btn1, t.sch.btn2, t.sch.buttonChanged, t.sch.lastScan))
      (exec (.phButtons 120#32 0x0001#16) { main0 with
        km := { lastRaw := ⟨1#8, 0#8⟩, lastChange := 100#32 }, sch := { main0.sch with lastScan := 100#32 } }) =
      some (1#8, 0#8, true, 120#32) := by decide
/-- 44_scheduler.md R168, the example. -/
theorem test_phRotary :
    observe (fun t => (t.rm.stable, t.sch.modeChanged, t.sch.flushPending, t.sch.lastRot, t.log))
      (exec (.phRotary 50#32 0b111110#6) main0) = some (0x11#8, true, true, 50#32, [.notifyMode 0x11#8]) := by decide
/-- 44_scheduler.md R172, the example. -/
theorem test_phUsbSend :
    observe (fun t => (t.acc, t.sch.wheel, t.sch.lastSend, t.sch.sentWheel, t.log))
      (exec (.phUsbSend 600#32 0#2) { main0 with acc := 9#32, rm := { stable := 0x11#8 }, shr := ⟨true, 0x5A#8⟩ }) =
      some (0#32, 0#8, 600#32, 10#8, [.txReq [0x04, 0x00, 0x00, 0x11, 0x0a, 0x5a, 0x00]]) := by decide
/-- H1, step 3. -/
theorem test_schStep_rotary :
    observe (fun t => (t.sch.phase, t.rm.stable, t.sch.flushPending))
      (exec (.schStep 60#32 0#16 0b110111#6 0#2) { main0 with sch := { main0.sch with phase := 2#2, lastScan := 60#32 } }) =
      some (3#2, 0x14#8, true) := by decide
/-- H1, step 4: the phase wraps and the flush holds the take back. -/
theorem test_schStep_usbSend :
    observe (fun t => (t.sch.phase, t.acc, t.txLast, t.log))
      (exec (.schStep 60#32 0#16 0b110111#6 0#2) { main0 with
        acc := 3#32, rm := { stable := 0x14#8 }
        sch := { main0.sch with phase := 3#2, modeChanged := true, flushPending := true } }) =
      some (0#2, 3#32, 60#32, [.txReq [0x04, 0x00, 0x00, 0x14, 0x00, 0x00, 0x00]]) := by decide
/-- T2: the floor across the wrap of the tick. -/
theorem test_txSend_floor :
    observe (fun t => (t.ret, t.txLast, t.log)) (exec (.txSend 2#32 0#2) { main0 with txLast := 0xFFFFFFFE#32 }) =
      some (.sent .busy, 0xFFFFFFFE#32, [.raised .txFloor]) := by decide
/-- T2: the transport fails. -/
theorem test_txSend_failure :
    observe (fun t => (t.ret, t.txLast, t.log)) (exec (.txSend 100#32 2#2) { main0 with txLast := 95#32 }) =
      some (.sent .busy, 95#32, [.txReq [0, 0, 0, 0, 0, 0, 0], .raised .txFailure]) := by decide

/-! ## NOP, refusals, the step -/

theorem test_nop : observe id (exec .nop isr0) = some isr0 := by decide
theorem test_reserved : refusal (exec .reservedE main0) = some (.reservedOperation 0xE#4) := by decide
theorem test_wrong_context : refusal (exec .accTake isr0) = some (.wrongContext .isr) := by decide
/-- P1, row 2, as an issued word. -/
theorem test_step_issued :
    observe (fun t => (t.qs.prev, t.acc, t.ctx))
      (step { main0 with qs := { prev := 65534#16 }, inputs := [.issue .isr 0x00021#64] }) = some (2#16, 1#32, .main) := by
  decide
theorem test_step_ports :
    observe (fun t => t.inputs) (step { main0 with inputs := [.ports { tick1ms := true, cnt := 2#16 }] }) =
      some [.issue .isr 0x00021#64] := by decide
theorem test_step_ports_reset :
    observe (fun t => (t.qs.prev, t.acc)) (step { main0 with acc := 5#32, inputs := [.ports { rst := true, cnt := 9#16 }] }) =
      some (9#16, 0#32) := by decide
theorem test_withFetchWord :
    observe (fun t => (t.rx.offset, t.inputs)) (step (State.reset.withFetchWord 56 0x0300020001fdfe)) = some (7, []) ∧
    observe (fun t => (t.sch.phase, t.inputs)) (step (State.reset.withFetchWord 2 3)) = some (0#2, []) ∧
    observe (fun t => (t.ret, t.inputs)) (step (State.reset.withFetchWord 8 3)) = some (.taken 0#32, []) ∧
    refusal (step (State.reset.withFetchWord 8 0xB)) = some (.reservedOperation 0xB#4) := by decide
/-- 30_encoding.md R91: the operands a line may leave out. -/
theorem test_trace_defaults :
    traceStep Config.cfg0 20#32 {} = .issue .main 0x03f0000000000148#64 := by decide

/-! ## Witnesses: the hypotheses of each statement can be met -/

theorem witness_EncodeOfDecode : decode .op4 0x00021#64 = .ok (.qsTick 2#16) := rfl
theorem witness_MarkerChunkDecode_marker :
    (0x0300020001fdfe#56 : Chunk).extractLsb' 0 8 = 0xFE#8 ∧ (0x0300020001fdfe#56 : Chunk).extractLsb' 8 8 = 0xFD#8 := by decide
theorem witness_MarkerChunkDecode_data :
    ¬ ((0x0300020001fcfe#56 : Chunk).extractLsb' 0 8 = 0xFE#8 ∧ (0x0300020001fcfe#56 : Chunk).extractLsb' 8 8 = 0xFD#8) := by
  decide
theorem witness_RxChunkRunsDecodedChunk :
    decode .chunk56 ((0x0300020001fdfe#56 : Chunk).setWidth 64) = .ok (.rxcSync 0x0300020001#40) := rfl
theorem witness_StepRunsIssuedOperation :
    (encode (.qsTick 2#16)).1 = .op4 ∧ Instr.wf (.qsTick 2#16) = true ∧
      (∃ t, exec (.qsTick 2#16) { main0 with inputs := [], ctx := .isr } = .next t) ∧
      (∃ r, exec (.qsTick 2#16) { main0 with inputs := [], ctx := .main } = .refused r) ∧ main0.inputs = [] :=
  ⟨rfl, rfl, ⟨_, rfl⟩, ⟨_, rfl⟩, rfl⟩
theorem witness_PortsStrobeInOrder :
    ({ main0 with inputs := [.ports { rst := true }] } : State).inputs = .ports { rst := true } :: [] ∧
      ({ main0 with inputs := [.ports { tick1ms := true }] } : State).inputs = .ports { tick1ms := true } :: [] :=
  ⟨rfl, rfl⟩
/-- Also the hypothesis of every statement that asks only for the main context. -/
theorem witness_SchStepRunsSelectedPhase : main0.ctx = .main := rfl
theorem witness_QsTickResult :
    isr0.ctx = .isr ∧ (⟨0#16, 3#32, false⟩ : Sampler).Ok ∧ (⟨0#16, BitVec.ofInt 32 (-3), false⟩ : Sampler).Ok :=
  ⟨rfl, Sampler.ok_of_check (by decide), Sampler.ok_of_check (by decide)⟩
theorem witness_DetentDividerBounds :
    (⟨0#16, 3#32, false⟩ : Sampler).Ok ∧ ∃ t, exec (.qsTick 32767#16) { isr0 with qs := ⟨0#16, 3#32, false⟩ } = .next t :=
  ⟨Sampler.ok_of_check (by decide), _, rfl⟩
theorem witness_AccumulatorInterface : isr0.ctx = .isr ∧ main0.ctx = .main := ⟨rfl, rfl⟩
theorem witness_AccumulatorConservation : ∀ op ∈ [MotionOp.add 3#32, .take], ∀ cnt, op ≠ .tick cnt := by simp
theorem witness_RawScanTakesFirstTwo : main0.ctx = .main ∧ main0.cfg.keysOk = true := ⟨rfl, by decide⟩

/-- Key 0x01 has been seen since 130. -/
def keySeen : State := { main0 with km := { lastRaw := ⟨1#8, 0#8⟩, lastChange := 130#32 } }

theorem witness_DebounceWindow :
    (∃ t, exec (.kmScan 144#32 0#16) keySeen = .next t) ∧ rawScan keySeen.cfg 0#16 ≠ keySeen.km.lastRaw ∧
      rawScan keySeen.cfg 1#16 = keySeen.km.lastRaw ∧
      (∃ t, exec (.kmScan 144#32 1#16) keySeen = .next t ∧ t.km.stable = ⟨0#8, 0#8⟩) ∧
      ∃ t, exec (.kmScan 145#32 1#16) keySeen = .next t ∧ t.km.stable = ⟨1#8, 0#8⟩ :=
  ⟨⟨_, rfl⟩, by decide, by decide, ⟨_, rfl, by decide⟩, ⟨_, rfl, by decide⟩⟩
theorem witness_FlickerNeverPromoted :
    rawScan main0.cfg 1#16 ≠ main0.km.lastRaw ∧ rawScan main0.cfg 0#16 ≠ rawScan main0.cfg 1#16 ∧
      ∀ n ∈ [105#32, 114#32], (n - 100#32 : U32).toNat < main0.cfg.timing.debounce :=
  ⟨by decide, by decide, List.forall_mem_cons.2 ⟨by decide, List.forall_mem_singleton.2 (by decide)⟩⟩

/-- The repeat key of `CFG0` is held in slot 0, next due at 520. -/
def keyHeld : State := { main0 with km := {
  lastRaw := ⟨0x0D#8, 0#8⟩, lastChange := 100#32, stable := ⟨0x0D#8, 0#8⟩, slot0 := ⟨0x0D#8, 120#32, 520#32⟩ } }

theorem witness_PressEvents :
    (∃ t, exec (.kmScan 145#32 1#16) keySeen = .next t ∧ newlyPressed keySeen t 1#8) ∧
      ∃ t, exec (.kmScan 520#32 0x1000#16) keyHeld = .next t ∧ emitted t 0x0D#8 :=
  ⟨⟨_, rfl, by decide, by decide⟩, ⟨_, rfl, .inl (by decide)⟩⟩
/-- Keys (0,0) and (0,1) are promoted together: two PRESSes, the earlier in scan order first (R134). -/
theorem witness_PressEvents_twoPresses :
    ∃ t, exec (.kmScan 145#32 0x0003#16)
        { keySeen with km := { keySeen.km with lastRaw := ⟨1#8, 2#8⟩ } } = .next t ∧ t.ret = .scanned 1#8 2#8 :=
  ⟨_, rfl, by decide⟩
/-- Key 0x10 joins the held repeat key in the scan at its deadline: the PRESS first, though its key is second in the pair
(R128). -/
theorem witness_PressEvents_pressBeforeRepeat :
    ∃ t, exec (.kmScan 520#32 0x9000#16)
        { keyHeld with km := { keyHeld.km with lastRaw := ⟨0x0D#8, 0x10#8⟩, lastChange := 500#32 } } = .next t ∧
      t.ret = .scanned 0x10#8 0x0D#8 :=
  ⟨_, rfl, by decide⟩
theorem witness_HeldKeysAreSilent :
    keyHeld.km.Ok keyHeld.cfg ∧ (∃ t, exec (.kmScan 519#32 0x1000#16) keyHeld = .next t ∧ (∀ c, ¬ newlyPressed keyHeld t c) ∧
      ∀ slot ∈ [keyHeld.km.slot0, keyHeld.km.slot1], slot.code ≠ 0#8 → (519#32 - slot.nextRepeatAt).toInt < 0) ∧
    (⟨⟨1#8, 0#8⟩, 0#32, ⟨1#8, 0#8⟩, {}, {}⟩ : KeyScanner).Ok main0.cfg ∧ (⟨1#8, 0#8⟩ : KeyPair).has 1#8 = true ∧
      main0.cfg.repeatEn 1#8 = false := by
  refine ⟨KeyScanner.ok_of_check (by decide), ⟨_, rfl, ?_, by decide⟩, KeyScanner.ok_of_check (by decide), by decide, by decide⟩
  rintro c ⟨h1, h2⟩
  have h3 : keyHeld.km.stable.has c = true := h1
  rw [h3] at h2
  exact absurd h2 (by decide)
/-- The key has gone from the raw pair since 500 and leaves the stable pair at 520. -/
theorem witness_SlotRelease :
    ∃ t, exec (.kmScan 520#32 0#16) { keyHeld with km := { keyHeld.km with lastRaw := ⟨0#8, 0#8⟩, lastChange := 500#32 } } =
      .next t ∧ keyHeld.km.slot0.code ≠ 0#8 ∧ t.km.stable.has keyHeld.km.slot0.code = false :=
  ⟨_, rfl, by decide, by decide⟩
/-- The repeat key has been seen since 100 and is promoted at 120. -/
theorem witness_SlotCreation :
    ∃ s t, s.km.Ok s.cfg ∧ s.cfg.keysOk = true ∧ 0 < s.cfg.timing.repeatDelay ∧ s.cfg.timing.repeatDelay < 2 ^ 31 ∧
      exec (.kmScan 120#32 0x1000#16) s = .next t ∧ newlyPressed s t 0x0D#8 ∧ s.cfg.repeatEn 0x0D#8 = true :=
  ⟨{ main0 with km := { lastRaw := ⟨0x0D#8, 0#8⟩, lastChange := 100#32 } }, _, KeyScanner.ok_of_check (by decide), by decide,
    by decide, by decide, rfl, ⟨by decide, by decide⟩, by decide⟩
theorem witness_RepeatEvents :
    keyHeld.km.Ok keyHeld.cfg ∧ keyHeld.cfg.keysOk = true ∧ keyHeld.km.slot0.code ≠ 0#8 ∧
      (∃ t, exec (.kmScan 520#32 0x1000#16) keyHeld = .next t ∧ t.km.stable.has keyHeld.km.slot0.code = true ∧
        0 ≤ (520#32 - keyHeld.km.slot0.nextRepeatAt).toInt) ∧
      ∃ t, exec (.kmScan 519#32 0x1000#16) keyHeld = .next t ∧ t.km.stable.has keyHeld.km.slot0.code = true ∧
        (519#32 - keyHeld.km.slot0.nextRepeatAt).toInt < 0 :=
  ⟨KeyScanner.ok_of_check (by decide), by decide, by decide, ⟨_, rfl, by decide, by decide⟩, ⟨_, rfl, by decide, by decide⟩⟩

theorem witness_IntoPositionIsImmediate :
    main0.ctx = .main ∧ main0.cfg.modesOk = true ∧
      ((0b000000#6).getLsbD 0 = false ∧ ∀ j : Fin 6, j < (0 : Fin 6) → (0b000000#6).getLsbD j.val = true) ∧
      (0b011111#6).getLsbD 5 = false ∧ ∀ j : Fin 6, j < (5 : Fin 6) → (0b011111#6).getLsbD j.val = true := by
  refine ⟨rfl, ?_, ?_, ?_, ?_⟩ <;> decide
/-- At position 0x11, off pending since 50. -/
def settling : State := { main0 with rm := ⟨0x11#8, true, 50#32⟩ }

theorem witness_OffOnlyAfterSettling :
    (main0.ctx = .main ∧ main0.rm.stable = main0.cfg.modeOff) ∧
    (({ main0 with rm := ⟨0x11#8, false, 0#32⟩ } : State).rm.stable ≠ main0.cfg.modeOff) ∧
    (settling.ctx = .main ∧ settling.rm.stable ≠ settling.cfg.modeOff ∧ settling.rm.offPending = true) ∧
    settling.cfg.timing.rotSettle ≤ (150#32 - settling.rm.offSince).toNat ∧
    ¬ settling.cfg.timing.rotSettle ≤ (149#32 - settling.rm.offSince).toNat := by decide
/-- At position 0x11, the lines open from 150 to 249, then back. -/
def atPosition : State := { main0 with rm := ⟨0x11#8, false, 0#32⟩ }

theorem witness_RotaryFlickerNeverReportsOff :
    atPosition.cfg.modesOk = true ∧ atPosition.rm.stable = atPosition.cfg.modeCode[(0 : Fin 6)] ∧
      atPosition.rm.offPending = false ∧
      (∀ n ∈ [200#32, 249#32], (n - 150#32 : U32).toNat < atPosition.cfg.timing.rotSettle) ∧
      (0b111110#6).getLsbD 0 = false ∧ ∀ j : Fin 6, j < (0 : Fin 6) → (0b111110#6).getLsbD j.val = true :=
  ⟨by decide, by decide, rfl, List.forall_mem_cons.2 ⟨by decide, List.forall_mem_singleton.2 (by decide)⟩, by decide,
    by decide⟩

theorem witness_MarkerRestartsReport :
    mayIssue main0.cfg main0.ctx (.rxChunk (0x0300020001#40 ++ 0xFDFE#16)) = true ∧
      mayIssue main0.cfg main0.ctx (.rxcSync 0x0300020001#40) = true ∧ main0.buf.Ok main0.cfg ∧
      chunkLen < main0.cfg.reportLen :=
  ⟨by decide, by decide, Buffers.ok_of_check (by decide), by decide⟩
/-- Synced at offset `n`. -/
def synced (n : Nat) : State := { main0 with rx := ⟨n, true⟩ }

/-- Offset 28 is the last that does not complete the report. -/
theorem witness_DataChunkIsStored :
    mayIssue (synced 28).cfg (synced 28).ctx (.rxChunk 0x07060504030201#56) = true ∧
      mayIssue (synced 28).cfg (synced 28).ctx (.rxcData 0x07060504030201#56) = true ∧ (synced 28).buf.Ok (synced 28).cfg ∧
      (0x07060504030201#56 : Chunk).extractLsb' 0 16 ≠ 0xFDFE#16 ∧ (synced 28).rx.syncFound = true ∧
      (synced 28).rx.offset + 7 ≤ 42 ∧ (synced 28).rx.offset + 7 < (synced 28).cfg.reportLen :=
  ⟨by decide, by decide, Buffers.ok_of_check (by decide), by decide, rfl, by decide, by decide⟩
theorem witness_DiscardedChunks :
    (mayIssue main0.cfg main0.ctx (.rxcData 0x07060504030201#56) = true ∧
      (0x07060504030201#56 : Chunk).extractLsb' 0 16 ≠ 0xFDFE#16 ∧ main0.rx.syncFound = false) ∧
    (mayIssue (synced 36).cfg (synced 36).ctx (.rxChunk 0x07060504030201#56) = true ∧ (synced 36).rx.syncFound = true ∧
      42 < (synced 36).rx.offset + 7) := by decide
/-- Offset 30 is the least that completes the report, 35 the one a run has. -/
theorem witness_ReportCompletes :
    (mayIssue (synced 30).cfg (synced 30).ctx (.rxChunk 0xa701#56) = true ∧ (synced 30).buf.Ok (synced 30).cfg ∧
      (synced 30).cfg.wf = true ∧ (0xa701#56 : Chunk).extractLsb' 0 16 ≠ 0xFDFE#16 ∧ (synced 30).rx.syncFound = true ∧
      (synced 30).rx.offset + 7 ≤ 42 ∧ (synced 30).cfg.reportLen ≤ (synced 30).rx.offset + 7) ∧
    (synced 35).rx.offset + 7 ≤ 42 ∧ (synced 35).cfg.reportLen ≤ (synced 35).rx.offset + 7 :=
  ⟨⟨by decide, Buffers.ok_of_check (by decide), by decide, by decide, rfl, by decide, by decide⟩, by decide, by decide⟩
theorem witness_OverflowNeverRaised : (synced 35).Inv ∧ ∃ t, exec (.rxChunk 0x07060504030201#56) (synced 35) = .next t :=
  ⟨State.inv_of_check (by decide), _, rfl⟩
theorem witness_MarkerMidReportRestarts :
    (synced 21).buf.Ok (synced 21).cfg ∧ (synced 21).cfg.reportLen = 37 ∧
      (0x070d80000cfdfe#56 : Chunk).extractLsb' 0 16 = 0xFDFE#16 ∧
      ∀ c ∈ ([0x270fffff81f400, 0x01012c00000000, 0x05dc7fff800080, 0x03005a2ee00064, 0xa701] : List Chunk),
        c.extractLsb' 0 16 ≠ 0xFDFE#16 :=
  ⟨Buffers.ok_of_check (by decide), rfl, by decide, by
    intro c hc
    simp only [List.mem_cons, List.not_mem_nil, or_false] at hc
    rcases hc with rfl | rfl | rfl | rfl | rfl <;> decide⟩

/-- A report with every field 0 but the day key. -/
def plainReport : InboundReport where
  axes := Vector.replicate 6 ⟨0#16, 0#16⟩
  feedRate := 0#16
  feedOverride := 0#16
  spindleSpeed := 0#16
  spindleOverride := 0#16
  stepMultiplier := 0#8
  machineState := 0#8
  dayKey := 0xA7#8

theorem witness_ReportRoundTrip :
    main0.buf.Ok main0.cfg ∧ main0.cfg.reportLen = 37 ∧ main0.cfg.layout = {} ∧
      ∀ k ∈ [7, 14, 21, 28, 35],
        ((encodeReport plainReport).getD k 0#8, (encodeReport plainReport).getD (k + 1) 0#8) ≠ (0xFE#8, 0xFD#8) :=
  ⟨Buffers.ok_of_check (by decide), rfl, rfl, by decide⟩
theorem witness_ShrReplacedWholesale :
    main0.buf.Ok main0.cfg ∧ (∃ t, exec .accTake main0 = .next t) ∧
      ∃ t, exec (.rxcData 0xa701#56) (synced 35) = .next t ∧ t.shr ≠ main0.shr :=
  ⟨Buffers.ok_of_check (by decide), ⟨_, rfl⟩, ⟨_, rfl, by decide⟩⟩
theorem witness_ReportFieldViews : ∃ r, State.visibleReport { main0 with shr := ⟨true, 0#8⟩ } = some r := ⟨_, rfl⟩

theorem witness_PhButtonsScans :
    main0.ctx = .main ∧ (19#32 - main0.sch.lastScan).toNat < main0.cfg.timing.scanInterval ∧
      main0.cfg.timing.scanInterval ≤ (20#32 - main0.sch.lastScan).toNat := by decide
theorem witness_PhRotaryReads :
    main0.ctx = .main ∧ (49#32 - main0.sch.lastRot).toNat < main0.cfg.timing.rotPoll ∧
      main0.cfg.timing.rotPoll ≤ (50#32 - main0.sch.lastRot).toNat := by decide
theorem witness_SpeedCodeMonotone :
    (3#32 : I32).toInt.natAbs ≤ (0x80000000#32 : I32).toInt.natAbs ∧ (0x80000000#32 : I32) ≠ 0#32 := by decide
/-- Nine detents wait; the last send was at 0 and the send primitive's at `t`. -/
def moving (t : U32) : State := { main0 with acc := 9#32, txLast := t }

theorem witness_UsbSendHeldBack : (moving 0#32).ctx = .main ∧ ¬ sendWanted (moving 0#32) 14#32 :=
  ⟨rfl, by unfold sendWanted; decide⟩
theorem witness_UsbSendAccepted :
    (moving 10#32).ctx = .main ∧ (moving 10#32).buf.Ok (moving 10#32).cfg ∧ sendWanted (moving 10#32) 15#32 ∧
      (moving 10#32).cfg.timing.txFloor ≤ (15#32 - (moving 10#32).txLast).toNat :=
  ⟨rfl, Buffers.ok_of_check (by decide), by unfold sendWanted; decide, by decide⟩
theorem witness_UsbSendRefused :
    ((moving 10#32).ctx = .main ∧ (moving 10#32).buf.Ok (moving 10#32).cfg ∧ sendWanted (moving 10#32) 15#32 ∧
      (moving 10#32).cfg.timing.txFloor ≤ (15#32 - (moving 10#32).txLast).toNat ∧ (3#2 : BitVec 2) ≠ 0#2) ∧
    (moving 11#32).buf.Ok (moving 11#32).cfg ∧ sendWanted (moving 11#32) 15#32 ∧
      (15#32 - (moving 11#32).txLast).toNat < (moving 11#32).cfg.timing.txFloor :=
  ⟨⟨rfl, Buffers.ok_of_check (by decide), by unfold sendWanted; decide, by decide, by decide⟩,
    Buffers.ok_of_check (by decide), by unfold sendWanted; decide, by decide⟩

/-- Phase USB_SEND with a day key known and a mode change flagged. -/
def sending : State := { main0 with
  shr := ⟨true, 0xA7#8⟩, buf := { shr := [(36, 0xA7#8)] }, sch := { main0.sch with phase := 3#2, btn1 := 1#8, modeChanged := true } }

theorem witness_XorDayAtSend :
    sending.Inv ∧ phaseRun (.schStep 20#32 0#16 63#6 0#2) sending = some 3#2 ∧
      ∃ t, exec (.schStep 20#32 0#16 63#6 0#2) sending = .next t ∧
        .txReq [0x04, 0x01, 0x00, 0x00, 0x00, 0xA6, 0x00] ∈ newOutputs sending t :=
  ⟨State.inv_of_check (by decide), rfl, _, rfl, by decide⟩
theorem witness_WheelHoldsOnlySpeedCodes :
    sending.cfg.speed = {} ∧ isSpeedCode sending.sch.wheel ∧ isSpeedCode sending.sch.sentWheel ∧ sending.buf.Ok sending.cfg ∧
      (∃ t, step sending = .next t) ∧ phaseRun (.phUsbSend 20#32 0#2) sending = some 3#2 ∧
      ∃ t, exec (.phUsbSend 20#32 0#2) sending = .next t ∧
        .txReq [0x04, 0x01, 0x00, 0x00, 0x00, 0xA6, 0x00] ∈ newOutputs sending t :=
  ⟨rfl, by unfold isSpeedCode; decide, by unfold isSpeedCode; decide, Buffers.ok_of_check (by decide), ⟨_, rfl⟩, rfl, _, rfl,
    by decide⟩
theorem witness_KeepaliveSends :
    main0.ctx = .main ∧ main0.buf.Ok main0.cfg ∧ main0.cfg.timing.keepalive ≤ (500#32 - main0.sch.lastSend).toNat ∧
      main0.cfg.timing.txFloor ≤ (500#32 - main0.txLast).toNat ∧
      main0.cfg.timing.minIvFast ≤ main0.cfg.timing.keepalive ∧ main0.cfg.timing.minIvMid ≤ main0.cfg.timing.keepalive ∧
      main0.cfg.timing.minIvSlow ≤ main0.cfg.timing.keepalive :=
  ⟨rfl, Buffers.ok_of_check (by decide), by decide, by decide, by decide, by decide, by decide⟩

/-- A flush is pending, with motion waiting. -/
def changing : State := { sending with acc := 5#32, sch := { sending.sch with flushPending := true } }

theorem witness_NoMotionAcrossModeChange :
    changing.Inv ∧ changing.sch.flushPending = true ∧ (∃ t, exec .phEncoder changing = .next t ∧ t.sch.flushPending = false) ∧
      phaseRun (.phUsbSend 20#32 0#2) changing = some 3#2 ∧
      ∃ t, exec (.phUsbSend 20#32 0#2) changing = .next t ∧
        .txReq [0x04, 0x01, 0x00, 0x00, 0x00, 0xA6, 0x00] ∈ newOutputs changing t :=
  ⟨State.inv_of_check (by decide), rfl, ⟨_, rfl, by decide⟩, rfl, ⟨_, rfl, by decide⟩⟩
theorem witness_FloorIsShadowed :
    sending.txLast = sending.sch.lastSend ∧ ¬ isSendOp (.phUsbSend 20#32 0#2) ∧
      sending.cfg.timing.txFloor ≤ sending.cfg.timing.minIvFast ∧ sending.cfg.timing.txFloor ≤ sending.cfg.timing.minIvMid ∧
      sending.cfg.timing.txFloor ≤ sending.cfg.timing.minIvSlow ∧ ∃ t, exec (.phUsbSend 20#32 0#2) sending = .next t := by
  refine ⟨rfl, ?_, by decide, by decide, by decide, ⟨_, rfl⟩⟩
  rintro ⟨now, tr, h⟩
  cases h

theorem witness_SchedulerRegistersHaveOneWriter :
    (∃ t, exec (.kmScan 20#32 1#16) main0 = .next t) ∧ phaseRun (.kmScan 20#32 1#16) main0 = none ∧
      ¬ isSendOp (.kmScan 20#32 1#16) := by
  refine ⟨⟨_, rfl⟩, rfl, ?_⟩
  rintro ⟨now, tr, h⟩
  cases h
theorem witness_ComponentRegistersHaveTheirWriters :
    (∃ t, exec (.qsTick 7#16) isr0 = .next t ∧ t.qs.prev ≠ isr0.qs.prev ∧ t.qs.res ≠ isr0.qs.res ∧ t.acc ≠ isr0.acc) ∧
    (∃ t, exec (.kmScan 20#32 1#16) main0 = .next t ∧ t.km ≠ main0.km) ∧
    (∃ t, exec (.rmRead 20#32 62#6) main0 = .next t ∧ t.rm ≠ main0.rm) ∧
    (∃ t, exec (.rxcSync 0#40) main0 = .next t ∧ t.rx ≠ main0.rx) ∧
    ∃ t, exec (.txSend 20#32 0#2) main0 = .next t ∧ t.txLast ≠ main0.txLast :=
  ⟨⟨_, rfl, by decide, by decide, by decide⟩, ⟨_, rfl, by decide⟩, ⟨_, rfl, by decide⟩, ⟨_, rfl, by decide⟩,
    ⟨_, rfl, by decide⟩⟩
theorem witness_FlagsChangeOnlyByTheirRules :
    (∃ t, exec (.qsTick 4#16) isr0 = .next t ∧ isr0.qs.dataReady = false ∧ t.qs.dataReady = true) ∧
    (∃ t, exec (.phRotary 50#32 62#6) main0 = .next t ∧ t.sch.flushPending = true ∧ t.sch.modeChanged = true) ∧
    (∃ t, exec (.phUsbSend 20#32 0#2) sending = .next t ∧ sending.sch.modeChanged = true ∧ t.sch.modeChanged = false) ∧
    ∃ t, exec (.rxcData 0xa701#56) (synced 35) = .next t ∧ t.shr.valid = true ∧ t.rx.syncFound = false :=
  ⟨⟨_, rfl, by decide, by decide⟩, ⟨_, rfl, by decide, by decide⟩, ⟨_, rfl, by decide, by decide⟩,
    ⟨_, rfl, by decide, by decide⟩⟩
theorem witness_BuffersHaveOneWriter :
    (∃ t, exec .accFlush main0 = .next t) ∧ isChunkOp .accFlush = false ∧ phaseRun .accFlush main0 ≠ some 3#2 :=
  ⟨⟨_, rfl⟩, rfl, by decide⟩

theorem witness_ResetMeetsTheInvariant : Config.cfg0.wf = true := by decide
theorem witness_StepKeepsTheInvariant :
    ∃ t, ({ changing with inputs := [.ports { schedStep := true }] } : State).Inv ∧
      step { changing with inputs := [.ports { schedStep := true }] } = .next t :=
  ⟨_, State.inv_of_check (by decide), rfl⟩
theorem witness_OperationsAreTotal :
    main0.cfg.reportLenOk = true ∧ mayIssue main0.cfg main0.ctx .accTake = true ∧
      mayIssue main0.cfg main0.ctx (.qsTick 0#16) = false := by decide
theorem witness_ContextsMayIssueOnlyTheirOwn :
    (∃ t, exec (.accAdd 1#32) isr0 = .next t ∧ isr0.ctx = .isr) ∧ (∃ t, exec .accTake main0 = .next t ∧ main0.ctx = .main) ∧
      ∃ t, exec (.rxcSync 0#40) { main0 with ctx := .third, cfg := { Config.cfg0 with rxContext := .third } } = .next t :=
  ⟨⟨_, rfl, rfl⟩, ⟨_, rfl, rfl⟩, ⟨_, rfl⟩⟩
theorem witness_ConfigurationNeverChanges : ∃ t, step { main0 with inputs := [.issue .main 0x3#64] } = .next t := ⟨_, rfl⟩

end Sys2Proof.Tests
end

/-! ## Who writes the scheduler's registers and the flags (10_state.md R35, R46)

What a completed operation has done is said once (`exec_cases`): a direct operation is one of `DirectRan`, and an operation
that runs a phase body is one of `BodyRan`, with the phase advanced after it when the operation is `SCH.STEP`. Frame
equations say which fields of the state each operation writes; the statements about registers and flags are read off
them. -/

namespace Sys2Proof.Machine

section Chunks
variable {c : Chunk} {s t : State}

/-- Storing a chunk writes the reassembler, the shared report, the buffers and the outputs. -/
theorem storeChunk_frame (h : storeChunk c s = .next t) :
    t = (((s.withRx t.rx).withShr t.shr).withBuf t.buf).withLog t.log := by
  obtain ⟨-, e⟩ | ⟨-, -, e⟩ | ⟨-, -, e⟩ := storeChunk_cases c s <;> cases e.symm.trans h <;> rfl

theorem storeChunk_valid (h : storeChunk c s = .next t) : t.shr.valid = true ∨ t.shr = s.shr := by
  obtain ⟨-, e⟩ | ⟨-, -, e⟩ | ⟨-, -, e⟩ := storeChunk_cases c s <;> cases e.symm.trans h
  · exact .inr rfl
  · exact .inl rfl
  · exact .inr rfl

/-- `t` is what a chunk leaves of `s`, handled as a marker chunk or as a data chunk (R150). -/
def ChunkRan (s t : State) : Prop := ∃ c, syncChunk c s = .next t ∨ dataChunk c s = .next t

/-- A chunk is discarded, or stored from a state that differs in the reassembler and the outputs only (R150, R151). -/
theorem ChunkRan.cases (h : ChunkRan s t) :
    t = raise .rxNoSync s ∨ ∃ c rx log, storeChunk c ((s.withRx rx).withLog log) = .next t := by
  obtain ⟨c, h | h⟩ := h
  · unfold syncChunk at h
    dsimp only at h
    split at h
    · exact .inr ⟨c, _, _, h⟩
    · exact .inr ⟨c, _, s.log, h⟩
  · unfold dataChunk at h
    split at h
    · exact .inr ⟨c, s.rx, s.log, h⟩
    · cases h; exact .inl rfl

/-- A chunk writes the reassembler, the shared report, the buffers and the outputs. -/
theorem ChunkRan.frame (h : ChunkRan s t) :
    ∃ rx shr buf log, t = (((s.withRx rx).withShr shr).withBuf buf).withLog log := by
  obtain rfl | ⟨c, rx, log, h⟩ := h.cases
  · exact ⟨s.rx, s.shr, s.buf, _, rfl⟩
  · have e := storeChunk_frame h
    exact ⟨t.rx, t.shr, t.buf, t.log, e⟩

theorem ChunkRan.keeps_valid (h : ChunkRan s t) (hv : s.shr.valid = true) : t.shr.valid = true := by
  obtain rfl | ⟨c, rx, log, h⟩ := h.cases
  · exact hv
  · obtain hv' | hs := storeChunk_valid h
    · exact hv'
    · exact (congrArg SharedReport.valid hs).trans hv

end Chunks

section Reads
variable (now : U32) (keys : BitVec 16) (rotN : BitVec 6) (s : State)

/-- A key scan writes the key scanner and the outputs. -/
theorem kmScan_frame : ∃ km log, (kmScan now keys s).1 = (s.withKm km).withLog log := ⟨_, _, rfl⟩

/-- A rotary read writes the rotary reader and the outputs. -/
theorem rmRead_frame : ∃ rm log, (rmRead now rotN s).1 = (s.withRm rm).withLog log := ⟨_, _, rfl⟩

end Reads

section Bodies
variable {now : U32} {tr : BitVec 2} {s t : State}

/-- The send primitive writes `TX.last` and the outputs. -/
theorem txSend_frame {r : State × SendResult} (h : txSend now tr s = .next r) :
    r.1 = (s.withTxLast r.1.txLast).withLog r.1.log := by
  obtain ⟨-, e⟩ | ⟨-, -, e⟩ | ⟨-, -, e⟩ | ⟨-, -, e⟩ := txSend_cases now tr s <;> cases e.symm.trans h <;> rfl

/-- Phase ENCODER writes the sampler, the accumulator and the scheduler, and leaves no flush pending (R166). -/
theorem phEncoder_frame (s : State) :
    ∃ qs acc, phEncoder s = ((s.withQs qs).withAcc acc).withSch { s.sch with flushPending := false } ∧
      (qs = s.qs ∨ qs.dataReady = false) := by
  unfold phEncoder
  split
  · exact ⟨_, _, rfl, .inr rfl⟩
  · next h =>
    rw [← Bool.eq_false_of_not_eq_true h]
    exact ⟨s.qs, s.acc, rfl, .inl rfl⟩

/-- Phase BUTTONS writes the key scanner, the scheduler and the outputs; to the scheduler it does nothing before its
interval, and else it notes the scan (R167). -/
theorem phButtons_frame (now : U32) (keys : BitVec 16) (s : State) :
    ∃ km log sch, phButtons now keys s = ((s.withKm km).withLog log).withSch sch ∧
      (sch = s.sch ∨ ∃ b1 b2, sch =
        { s.sch with btn1 := b1, btn2 := b2, buttonChanged := buttonChangedBy s.sch b1 b2, lastScan := now }) := by
  unfold phButtons
  dsimp only
  split
  · obtain ⟨km, log, e⟩ := kmScan_frame now keys s
    rw [e]
    exact ⟨km, log, _, rfl, .inr ⟨_, _, rfl⟩⟩
  · exact ⟨s.km, s.log, s.sch, rfl, .inl rfl⟩

theorem buttonChangedBy_cases (sch : Scheduler) (b1 b2 : Byte) :
    buttonChangedBy sch b1 b2 = sch.buttonChanged ∨ buttonChangedBy sch b1 b2 = true := by
  unfold buttonChangedBy
  split
  · exact .inr rfl
  · exact .inl rfl

/-- Phase ROTARY writes the rotary reader, the scheduler and the outputs; to the scheduler it does nothing before its poll,
and else it notes the poll, and with it an accepted mode change (R168). -/
theorem phRotary_frame (now : U32) (rotN : BitVec 6) (s : State) :
    ∃ rm log sch, phRotary now rotN s = ((s.withRm rm).withLog log).withSch sch ∧
      (sch = s.sch ∨ sch = { s.sch with lastRot := now } ∨ sch = markModeChange { s.sch with lastRot := now }) := by
  unfold phRotary
  dsimp only
  split
  · obtain ⟨rm, log, e⟩ := rmRead_frame now rotN s
    rw [e]
    split
    · exact ⟨rm, _, _, rfl, .inr (.inr rfl)⟩
    · exact ⟨rm, log, _, rfl, .inr (.inl rfl)⟩
  · exact ⟨s.rm, s.log, s.sch, rfl, .inl rfl⟩

/-- The take of phase USB_SEND, with the wheel it leaves pending, is `takenState` (R169, R172). -/
theorem setWheel_takeMotion (s : State) : setWheel (takeMotion s).2 (takeMotion s).1 = takenState s := by
  unfold setWheel takeMotion takenState wheelAfter motionTaken
  cases hf : s.sch.flushPending
  · by_cases ha : s.acc = 0#32
    · simp [ha, accTake]; rfl
    · simp [ha, accTake]; rfl
  · simp

/-- The take writes the sampler, the accumulator and the pending wheel. -/
theorem takenState_frame (s : State) :
    ∃ qs acc, takenState s = ((s.withQs qs).withAcc acc).withSch { s.sch with wheel := wheelAfter s } ∧
      (qs = s.qs ∨ qs.dataReady = false) := by
  unfold takenState
  split
  · next h =>
    have hw : wheelAfter s = s.sch.wheel := by simp [wheelAfter, motionTaken, h]
    rw [hw]
    exact ⟨s.qs, s.acc, rfl, .inl rfl⟩
  · exact ⟨{ s.qs with dataReady := false }, 0#32, rfl, .inr rfl⟩

/-- An attempted send writes `TX.last`, the buffers and the outputs, and the scheduler when it is accepted (R172). -/
theorem attemptSend_frame (h : attemptSend now tr s = .next t) :
    t = (((s.withTxLast t.txLast).withBuf t.buf).withLog t.log).withSch t.sch ∧
      (t.sch = s.sch ∨ t.sch = noteSent s.sch s.rm.stable now) := by
  obtain ⟨-, e⟩ | ⟨-, -, e⟩ | ⟨-, -, e⟩ | ⟨-, -, e⟩ := attemptSend_cases now tr s <;> cases e.symm.trans h
  · exact ⟨rfl, .inl rfl⟩
  · exact ⟨rfl, .inr rfl⟩
  · exact ⟨rfl, .inl rfl⟩
  · exact ⟨rfl, .inl rfl⟩

/-- Phase USB_SEND ends after its take or attempts a send from there. -/
theorem phUsbSend_from_takenState (h : phUsbSend now tr s = .next t) :
    t = takenState s ∨ attemptSend now tr (takenState s) = .next t := by
  obtain e | e := phUsbSend_cases now tr s <;> rw [setWheel_takeMotion] at e
  · exact .inr (e.symm.trans h)
  · cases e.symm.trans h; exact .inl rfl

/-- Phase USB_SEND leaves the key scanner, the rotary reader, the reassembler and the shared report alone; in the scheduler
it replaces the pending wheel and notes an accepted send (R172). -/
theorem phUsbSend_frame (h : phUsbSend now tr s = .next t) :
    ∃ qs acc txLast buf log sch,
      t = (((((s.withQs qs).withAcc acc).withTxLast txLast).withBuf buf).withLog log).withSch sch ∧
      (qs = s.qs ∨ qs.dataReady = false) ∧
      (sch = { s.sch with wheel := wheelAfter s } ∨
        sch = noteSent { s.sch with wheel := wheelAfter s } s.rm.stable now) := by
  obtain ⟨qs, acc, e, hq⟩ := takenState_frame s
  obtain ht | ht := phUsbSend_from_takenState h <;> rw [e] at ht
  · exact ⟨qs, acc, s.txLast, s.buf, s.log, _, ht, hq, .inl rfl⟩
  · obtain ⟨ht, hs⟩ := attemptSend_frame ht
    exact ⟨qs, acc, t.txLast, t.buf, t.log, t.sch, ht, hq, hs⟩

end Bodies

/-! ### What a completed operation has done -/

/-- The states the body of a phase can leave (R72). -/
inductive BodyRan (s : State) : BitVec 2 → State → Prop
  | encoder : BodyRan s 0#2 (phEncoder s)
  | buttons (now : U32) (keys : BitVec 16) : BodyRan s 1#2 (phButtons now keys s)
  | rotary (now : U32) (rotN : BitVec 6) : BodyRan s 2#2 (phRotary now rotN s)
  | usbSend {now : U32} {tr : BitVec 2} {u : State} (sent : phUsbSend now tr s = .next u) : BodyRan s 3#2 u

/-- The states an operation can leave that runs no phase body. -/
inductive DirectRan (s : State) : Instr → State → Prop
  | nop : DirectRan s .nop s
  | qsTick (cnt : U16) : DirectRan s (.qsTick cnt) (qsTick cnt s)
  | accAdd (d : I32) : DirectRan s (.accAdd d) (accAdd d s)
  | accTake : DirectRan s .accTake ((accTake s).1.withRet (.taken (accTake s).2))
  | accFlush : DirectRan s .accFlush (accFlush s)
  | kmScan (now : U32) (keys : BitVec 16) : DirectRan s (.kmScan now keys)
      ((kmScan now keys s).1.withRet (.scanned (kmScan now keys s).2.first (kmScan now keys s).2.second))
  | rmRead (now : U32) (rotN : BitVec 6) : DirectRan s (.rmRead now rotN)
      ((rmRead now rotN s).1.withRet (.modeRead (rmRead now rotN s).1.rm.stable (rmRead now rotN s).2))
  | txSend {now : U32} {tr : BitVec 2} {r : State × SendResult} (sent : txSend now tr s = .next r) :
      DirectRan s (.txSend now tr) (r.1.withRet (.sent r.2))
  | chunk {i : Instr} {t : State} (chunkOp : isChunkOp i = true) (ran : ChunkRan s t) : DirectRan s i t

theorem bodyRan_of_phaseBody {now : U32} {keys : BitVec 16} {rotN : BitVec 6} {tr : BitVec 2} {s u : State}
    (h : phaseBody now keys rotN tr s = .next u) : BodyRan s s.sch.phase u := by
  obtain ⟨hp, e⟩ | ⟨hp, e⟩ | ⟨hp, e⟩ | ⟨hp, e⟩ := phaseBody_of_phase now keys rotN tr s <;> rw [e] at h <;> rw [hp]
  · cases h; exact .encoder
  · cases h; exact .buttons now keys
  · cases h; exact .rotary now rotN
  · exact .usbSend h

section Exec
variable {i : Instr} {s t u : State} {p : BitVec 2}

/-- Everything an operation that completes can have done. -/
theorem exec_cases (h : exec i s = .next t) :
    (phaseRun i s = none ∧ DirectRan s i t) ∨
    ∃ p u, phaseRun i s = some p ∧ BodyRan s p u ∧ (t = u ∨ t = advancePhase u) := by
  cases i with
  | nop => cases h; exact .inl ⟨rfl, .nop⟩
  | qsTick cnt => obtain ⟨-, ⟨⟩⟩ := issued_eq_next.1 h; exact .inl ⟨rfl, .qsTick cnt⟩
  | accAdd d => obtain ⟨-, ⟨⟩⟩ := issued_eq_next.1 h; exact .inl ⟨rfl, .accAdd d⟩
  | accTake => obtain ⟨-, ⟨⟩⟩ := issued_eq_next.1 h; exact .inl ⟨rfl, .accTake⟩
  | accFlush => obtain ⟨-, ⟨⟩⟩ := issued_eq_next.1 h; exact .inl ⟨rfl, .accFlush⟩
  | kmScan now keys => obtain ⟨-, ⟨⟩⟩ := issued_eq_next.1 h; exact .inl ⟨rfl, .kmScan now keys⟩
  | rmRead now rotN => obtain ⟨-, ⟨⟩⟩ := issued_eq_next.1 h; exact .inl ⟨rfl, .rmRead now rotN⟩
  | txSend now tr =>
    obtain ⟨-, h⟩ := issued_eq_next.1 h
    obtain ⟨r, hr, ⟨⟩⟩ := chain_eq_next.1 h
    exact .inl ⟨rfl, .txSend hr⟩
  | rxChunk c =>
    obtain ⟨-, h⟩ := issued_eq_next.1 h
    unfold rxChunk at h
    split at h
    · exact .inl ⟨rfl, .chunk rfl ⟨c, .inl h⟩⟩
    · exact .inl ⟨rfl, .chunk rfl ⟨c, .inr h⟩⟩
  | rxcSync tail => exact .inl ⟨rfl, .chunk rfl ⟨_, .inl (issued_eq_next.1 h).2⟩⟩
  | rxcData c => exact .inl ⟨rfl, .chunk rfl ⟨c, .inr (issued_eq_next.1 h).2⟩⟩
  | schStep now keys rotN tr =>
    obtain ⟨-, h⟩ := issued_eq_next.1 h
    obtain ⟨u, hu, ⟨⟩⟩ := chain_eq_next.1 h
    exact .inr ⟨_, u, rfl, bodyRan_of_phaseBody hu, .inr rfl⟩
  | phEncoder => obtain ⟨-, ⟨⟩⟩ := issued_eq_next.1 h; exact .inr ⟨_, _, rfl, .encoder, .inl rfl⟩
  | phButtons now keys => obtain ⟨-, ⟨⟩⟩ := issued_eq_next.1 h; exact .inr ⟨_, _, rfl, .buttons now keys, .inl rfl⟩
  | phRotary now rotN => obtain ⟨-, ⟨⟩⟩ := issued_eq_next.1 h; exact .inr ⟨_, _, rfl, .rotary now rotN, .inl rfl⟩
  | phUsbSend now tr => exact .inr ⟨_, _, rfl, .usbSend (issued_eq_next.1 h).2, .inl rfl⟩
  | reservedA | reservedB | reservedC | reservedD | reservedE | reservedF => cases h

/-! ### Who writes what -/

/-- Who writes what among the direct operations (R48): none writes the scheduler, the send primitive alone `TX.last`, a read
alone the rotary reader, a chunk alone the reassembler and the shared report. -/
theorem DirectRan.frame (h : DirectRan s i t) :
    t.sch = s.sch ∧ (isSendOp i ∨ t.txLast = s.txLast) ∧ ((∃ now rotN, i = .rmRead now rotN) ∨ t.rm = s.rm) ∧
      ((isChunkOp i = true ∧ ChunkRan s t) ∨ t.rx = s.rx ∧ t.shr = s.shr) := by
  cases h with
  | qsTick cnt => rw [qsTick_frame]; exact ⟨rfl, .inr rfl, .inr rfl, .inr ⟨rfl, rfl⟩⟩
  | kmScan now keys =>
    obtain ⟨_, _, e⟩ := kmScan_frame now keys s
    rw [e]; exact ⟨rfl, .inr rfl, .inr rfl, .inr ⟨rfl, rfl⟩⟩
  | rmRead now rotN =>
    obtain ⟨_, _, e⟩ := rmRead_frame now rotN s
    rw [e]; exact ⟨rfl, .inr rfl, .inl ⟨now, rotN, rfl⟩, .inr ⟨rfl, rfl⟩⟩
  | txSend sent => rw [txSend_frame sent]; exact ⟨rfl, .inl ⟨_, _, rfl⟩, .inr rfl, .inr ⟨rfl, rfl⟩⟩
  | chunk chunkOp ran =>
    obtain ⟨_, _, _, _, rfl⟩ := ran.frame
    exact ⟨rfl, .inr rfl, .inr rfl, .inl ⟨chunkOp, ran⟩⟩
  | nop | accAdd | accTake | accFlush => exact ⟨rfl, .inr rfl, .inr rfl, .inr ⟨rfl, rfl⟩⟩

/-- Who writes what among the phase bodies (R48): ROTARY alone the rotary reader, and none the reassembler or the shared
report. -/
theorem BodyRan.frame (h : BodyRan s p u) : (p = 2#2 ∨ u.rm = s.rm) ∧ u.rx = s.rx ∧ u.shr = s.shr := by
  cases h with
  | encoder => obtain ⟨_, _, e, -⟩ := phEncoder_frame s; rw [e]; exact ⟨.inr rfl, rfl, rfl⟩
  | buttons now keys => obtain ⟨_, _, _, e, -⟩ := phButtons_frame now keys s; rw [e]; exact ⟨.inr rfl, rfl, rfl⟩
  | rotary now rotN => obtain ⟨_, _, _, e, -⟩ := phRotary_frame now rotN s; rw [e]; exact ⟨.inl rfl, rfl, rfl⟩
  | usbSend sent => obtain ⟨_, _, _, _, _, _, rfl, -⟩ := phUsbSend_frame sent; exact ⟨.inr rfl, rfl, rfl⟩

/-- The rotary reader is written by reads, issued directly or run by phase ROTARY. -/
theorem exec_rm (h : exec i s = .next t) :
    ((∃ now rotN, i = .rmRead now rotN) ∨ phaseRun i s = some 2#2) ∨ t.rm = s.rm := by
  obtain ⟨-, hd⟩ | ⟨p, u, hp, hb, ht⟩ := exec_cases h
  · obtain ⟨-, -, hrm, -⟩ := hd.frame
    exact hrm.imp_left .inl
  · obtain ⟨rfl | hrm, -⟩ := hb.frame
    · exact .inl (.inr hp)
    · exact .inr (by obtain rfl | rfl := ht <;> exact hrm)

/-- The reassembler and the shared report are written by chunks. -/
theorem exec_inbound (h : exec i s = .next t) :
    (isChunkOp i = true ∧ ChunkRan s t) ∨ t.rx = s.rx ∧ t.shr = s.shr := by
  obtain ⟨-, hd⟩ | ⟨p, u, -, hb, ht⟩ := exec_cases h
  · obtain ⟨-, -, -, hin⟩ := hd.frame
    exact hin
  · obtain ⟨-, hin⟩ := hb.frame
    exact .inr (by obtain rfl | rfl := ht <;> exact hin)

/-- `SHR.valid` is never cleared (R46). -/
theorem exec_keeps_valid (h : exec i s = .next t) (hv : s.shr.valid = true) : t.shr.valid = true := by
  obtain ⟨-, ran⟩ | ⟨-, hshr⟩ := exec_inbound h
  · exact ran.keeps_valid hv
  · rw [hshr]; exact hv

end Exec

/-- Settles O49: what runs no phase body is a direct operation, and those leave the scheduler alone. -/
theorem schedulerRegistersHaveOneWriter : Obligations.SchedulerRegistersHaveOneWriter := by
  intro s t i h hp
  obtain ⟨-, hd⟩ | ⟨p, u, hp', -, -⟩ := exec_cases h
  · obtain ⟨hsch, htx, -⟩ := hd.frame
    exact ⟨hsch, htx.resolve_left⟩
  · exact nomatch hp.symm.trans hp'

/-! ### The flags -/

/-- A flag that is `b` before and `b'` after: as it was, or set, which needs `set`, or cleared, which needs `clear`. -/
def FlagStep (b b' : Bool) (set clear : Prop) : Prop := b' = b ∨ (b' = true ∧ set) ∨ (b' = false ∧ clear)

theorem FlagStep.of_eq {b b' : Bool} {S C : Prop} (h : b' = b) : FlagStep b b' S C := .inl h

theorem FlagStep.of_set {b b' : Bool} {S C : Prop} (h : b' = true) (hs : S) : FlagStep b b' S C := .inr (.inl ⟨h, hs⟩)

theorem FlagStep.of_clear {b b' : Bool} {S C : Prop} (h : b' = false) (hc : C) : FlagStep b b' S C := .inr (.inr ⟨h, hc⟩)

theorem FlagStep.mono {b b' : Bool} {S C S' C' : Prop} (h : FlagStep b b' S C) (hs : S → S') (hc : C → C') :
    FlagStep b b' S' C' :=
  h.imp_right (.imp (And.imp_right hs) (And.imp_right hc))

theorem FlagStep.set_by {b b' : Bool} {S C : Prop} (h : FlagStep b b' S C) (hb : b = false) (hb' : b' = true) : S := by
  subst hb hb'
  simpa [FlagStep] using h

theorem FlagStep.cleared_by {b b' : Bool} {S C : Prop} (h : FlagStep b b' S C) (hb : b = true) (hb' : b' = false) : C := by
  subst hb hb'
  simpa [FlagStep] using h

section Flags
variable {i : Instr} {s t u : State} {p : BitVec 2}

/-- What running the phase `phase`, if any, may do to the scheduler's flags: ROTARY sets the flush request, ENCODER clears
it; BUTTONS sets the button flag and ROTARY the mode flag, USB_SEND clears both (R46). -/
structure SchFlagsStep (phase : Option (BitVec 2)) (sch sch' : Scheduler) : Prop where
  flush : FlagStep sch.flushPending sch'.flushPending (phase = some 2#2) (phase = some 0#2)
  button : FlagStep sch.buttonChanged sch'.buttonChanged (phase = some 1#2) (phase = some 3#2)
  mode : FlagStep sch.modeChanged sch'.modeChanged (phase = some 2#2) (phase = some 3#2)

theorem BodyRan.schFlags (h : BodyRan s p u) : SchFlagsStep (some p) s.sch u.sch := by
  cases h with
  | encoder =>
    obtain ⟨_, _, e, -⟩ := phEncoder_frame s
    rw [e]; exact ⟨.of_clear rfl rfl, .of_eq rfl, .of_eq rfl⟩
  | buttons now keys =>
    obtain ⟨_, _, _, e, rfl | ⟨b1, b2, rfl⟩⟩ := phButtons_frame now keys s <;> rw [e]
    · exact ⟨.of_eq rfl, .of_eq rfl, .of_eq rfl⟩
    · obtain hb | hb := buttonChangedBy_cases s.sch b1 b2
      · exact ⟨.of_eq rfl, .of_eq hb, .of_eq rfl⟩
      · exact ⟨.of_eq rfl, .of_set hb rfl, .of_eq rfl⟩
  | rotary now rotN =>
    obtain ⟨_, _, _, e, rfl | rfl | rfl⟩ := phRotary_frame now rotN s <;> rw [e]
    · exact ⟨.of_eq rfl, .of_eq rfl, .of_eq rfl⟩
    · exact ⟨.of_eq rfl, .of_eq rfl, .of_eq rfl⟩
    · exact ⟨.of_set rfl rfl, .of_eq rfl, .of_set rfl rfl⟩
  | usbSend sent =>
    obtain ⟨_, _, _, _, _, _, rfl, -, rfl | rfl⟩ := phUsbSend_frame sent
    · exact ⟨.of_eq rfl, .of_eq rfl, .of_eq rfl⟩
    · exact ⟨.of_eq rfl, .of_clear rfl rfl, .of_clear rfl rfl⟩

theorem exec_schFlags (h : exec i s = .next t) : SchFlagsStep (phaseRun i s) s.sch t.sch := by
  obtain ⟨-, hd⟩ | ⟨p, u, hp, hb, ht⟩ := exec_cases h
  · obtain ⟨hsch, -⟩ := hd.frame
    rw [hsch]; exact ⟨.of_eq rfl, .of_eq rfl, .of_eq rfl⟩
  · obtain ⟨hf, hbtn, hm⟩ := hb.schFlags
    rw [hp]
    obtain rfl | rfl := ht <;> exact ⟨hf, hbtn, hm⟩

/-- A direct operation sets `QS.data_ready` by a tick and clears it by a take or a flush (40_quadrature.md R103). -/
theorem DirectRan.dataReady (h : DirectRan s i t) :
    FlagStep s.qs.dataReady t.qs.dataReady (∃ cnt, i = .qsTick cnt) (i = .accTake ∨ i = .accFlush) := by
  cases h with
  | qsTick cnt =>
    by_cases hd : tdiv (pulseBuffer s.qs cnt) 4 = 0
    · exact .of_eq (by simp [qsTick_dataReady, hd])
    · exact .of_set (by simp [qsTick_dataReady, hd]) ⟨cnt, rfl⟩
  | accTake => exact .of_clear rfl (.inl rfl)
  | accFlush => exact .of_clear rfl (.inr rfl)
  | kmScan now keys => obtain ⟨_, _, e⟩ := kmScan_frame now keys s; exact .of_eq (by rw [e]; rfl)
  | rmRead now rotN => obtain ⟨_, _, e⟩ := rmRead_frame now rotN s; exact .of_eq (by rw [e]; rfl)
  | txSend sent => exact .of_eq (by rw [txSend_frame sent]; rfl)
  | chunk _ ran => obtain ⟨_, _, _, _, rfl⟩ := ran.frame; exact .of_eq rfl
  | nop | accAdd => exact .of_eq rfl

/-- A phase body leaves `QS.data_ready` or clears it by the flush of phase ENCODER or the take of phase USB_SEND. -/
theorem BodyRan.dataReady (h : BodyRan s p u) :
    FlagStep s.qs.dataReady u.qs.dataReady False (some p = some 0#2 ∨ some p = some 3#2) := by
  cases h with
  | encoder =>
    obtain ⟨_, _, e, rfl | hq⟩ := phEncoder_frame s <;> rw [e]
    · exact .of_eq rfl
    · exact .of_clear hq (.inl rfl)
  | buttons now keys => obtain ⟨_, _, _, e, -⟩ := phButtons_frame now keys s; exact .of_eq (by rw [e]; rfl)
  | rotary now rotN => obtain ⟨_, _, _, e, -⟩ := phRotary_frame now rotN s; exact .of_eq (by rw [e]; rfl)
  | usbSend sent =>
    obtain ⟨_, _, _, _, _, _, rfl, rfl | hq, -⟩ := phUsbSend_frame sent
    · exact .of_eq rfl
    · exact .of_clear hq (.inr rfl)

/-- `QS.data_ready` is set by a tick and cleared by a take or a flush, issued directly or run by a phase. -/
theorem exec_dataReady (h : exec i s = .next t) :
    FlagStep s.qs.dataReady t.qs.dataReady (∃ cnt, i = .qsTick cnt)
      (i = .accTake ∨ i = .accFlush ∨ phaseRun i s = some 0#2 ∨ phaseRun i s = some 3#2) := by
  obtain ⟨-, hd⟩ | ⟨p, u, hp, hb, ht⟩ := exec_cases h
  · exact hd.dataReady.mono id fun hc => hc.imp_right .inl
  · have hq : t.qs = u.qs := by obtain rfl | rfl := ht <;> rfl
    rw [hp, hq]
    exact hb.dataReady.mono False.elim fun hc => .inr (.inr hc)

end Flags

/-- Settles O51: each flag takes a `FlagStep`, and the rotary reader, the reassembler and the shared report change only by
their own operations. -/
theorem flagsChangeOnlyByTheirRules : Obligations.FlagsChangeOnlyByTheirRules := by
  refine ⟨fun s t i h => ?_, fun cfg cnt => ⟨rfl, rfl, rfl, rfl, rfl, rfl, rfl⟩⟩
  have ready := exec_dataReady h
  obtain ⟨flush, button, mode⟩ := exec_schFlags h
  have off : t.rm.offPending ≠ s.rm.offPending → _ := fun hne => (exec_rm h).resolve_right fun e => hne (by rw [e])
  have inbound : isChunkOp i = true ∨ t.rx = s.rx ∧ t.shr = s.shr := (exec_inbound h).imp_left And.left
  have sync : t.rx.syncFound ≠ s.rx.syncFound → _ := fun hne => inbound.resolve_right fun ⟨e, _⟩ => hne (by rw [e])
  have valid : t.shr.valid ≠ s.shr.valid → _ := fun hne => inbound.resolve_right fun ⟨_, e⟩ => hne (by rw [e])
  exact ⟨ready.set_by, ready.cleared_by, off, sync, exec_keeps_valid h, valid, flush.set_by, flush.cleared_by,
    button.set_by, button.cleared_by, mode.set_by, mode.cleared_by⟩

end Sys2Proof.Machine

/-! ## The shared report is replaced wholesale (20_memory.md R61)

An operation that is no chunk keeps the bytes of `SHR`, their day key and their valid flag (`exec_shr`). A chunk keeps all
three too unless it completes a report, and then it replaces all of them (`ChunkRan.shr`). -/

namespace Sys2Proof.Machine

/-- The shared report, its day key and its valid flag are as they were. -/
structure ShrKept (s t : State) : Prop where
  header : t.shr = s.shr
  bytes : t.buf.shr = s.buf.shr

/-- The shared report is valid and all of it is a copy of the scratch buffer, and the status notification is among what was
put out since `s` (R154). -/
structure ShrReplaced (s t : State) : Prop where
  header : t.shr = { valid := true, dayKey := t.byteAt .scr s.cfg.layout.dayKey.val }
  bytes : ∀ a, a < s.cfg.reportLen → t.byteAt .shr a = t.byteAt .scr a
  notified : .notifyStatus ∈ newOutputs s t

section Bodies
variable {now : U32} {tr : BitVec 2} {s t : State}

/-- An attempted send stores in `OUT` only. -/
theorem attemptSend_shrBytes (h : attemptSend now tr s = .next t) : t.buf.shr = s.buf.shr := by
  obtain ⟨-, e⟩ | ⟨-, -, e⟩ | ⟨-, -, e⟩ | ⟨-, -, e⟩ := attemptSend_cases now tr s <;> cases e.symm.trans h <;> rfl

@[simp] theorem takenState_buf (s : State) : (takenState s).buf = s.buf := by
  obtain ⟨_, _, e, -⟩ := takenState_frame s
  rw [e]; rfl

theorem phUsbSend_shrBytes (h : phUsbSend now tr s = .next t) : t.buf.shr = s.buf.shr := by
  obtain rfl | ht := phUsbSend_from_takenState h
  · rw [takenState_buf]
  · rw [attemptSend_shrBytes ht, takenState_buf]

end Bodies

section Exec
variable {i : Instr} {s t u : State} {p : BitVec 2}

theorem BodyRan.shrBytes (h : BodyRan s p u) : u.buf.shr = s.buf.shr := by
  cases h with
  | encoder => obtain ⟨_, _, e, -⟩ := phEncoder_frame s; rw [e]; rfl
  | buttons now keys => obtain ⟨_, _, _, e, -⟩ := phButtons_frame now keys s; rw [e]; rfl
  | rotary now rotN => obtain ⟨_, _, _, e, -⟩ := phRotary_frame now rotN s; rw [e]; rfl
  | usbSend sent => exact phUsbSend_shrBytes sent

/-- Among the direct operations a chunk alone stores in a buffer. -/
theorem DirectRan.buf (h : DirectRan s i t) : (isChunkOp i = true ∧ ChunkRan s t) ∨ t.buf = s.buf := by
  cases h with
  | qsTick cnt => rw [qsTick_frame]; exact .inr rfl
  | kmScan now keys => obtain ⟨_, _, e⟩ := kmScan_frame now keys s; rw [e]; exact .inr rfl
  | rmRead now rotN => obtain ⟨_, _, e⟩ := rmRead_frame now rotN s; rw [e]; exact .inr rfl
  | txSend sent => rw [txSend_frame sent]; exact .inr rfl
  | chunk chunkOp ran => exact .inl ⟨chunkOp, ran⟩
  | nop | accAdd | accTake | accFlush => exact .inr rfl

/-- The shared report is written by chunks. -/
theorem exec_shr (h : exec i s = .next t) : (isChunkOp i = true ∧ ChunkRan s t) ∨ ShrKept s t := by
  obtain ran | ⟨-, header⟩ := exec_inbound h
  · exact .inl ran
  · obtain ⟨-, hd⟩ | ⟨p, u, -, hb, ht⟩ := exec_cases h
    · exact hd.buf.imp_right fun hbuf => ⟨header, congrArg Buffers.shr hbuf⟩
    · exact .inr ⟨header, by obtain rfl | rfl := ht <;> exact hb.shrBytes⟩

end Exec

section Chunks
variable {c : Chunk} {s t : State}

/-- Completion copies the scratch buffer's report into the shared one. -/
theorem completed_bytes (hw : s.buf.shr.wf = true) {a : Nat} (ha : a < s.cfg.reportLen) :
    (completed s).byteAt .shr a = (completed s).byteAt .scr a := by
  have hshr : (completed s).buf.shr = s.buf.shr.setBytes 0 (s.buf.scr.getBytes 0 s.cfg.reportLen) := rfl
  have hscr : (completed s).buf.scr = s.buf.scr := rfl
  simp only [State.byteAt, Buffers.get, hshr, hscr, Memory.get_setBytes _ _ _ hw]
  simp [ha, -List.getD_eq_getElem?_getD, Memory.getD_getBytes]

theorem completed_replaces (hw : s.buf.shr.wf = true) : ShrReplaced s (completed s) where
  header := rfl
  bytes _ ha := completed_bytes hw ha
  notified := by simp [newOutputs, completed]

/-- Storing a chunk keeps the shared report, or completes and replaces it (R152, R154). -/
theorem storeChunk_shr (hw : s.buf.shr.wf = true) (h : storeChunk c s = .next t) : ShrKept s t ∨ ShrReplaced s t := by
  obtain ⟨-, e⟩ | ⟨-, -, e⟩ | ⟨-, -, e⟩ := storeChunk_cases c s <;> cases e.symm.trans h
  · exact .inl ⟨rfl, rfl⟩
  · obtain ⟨header, bytes, notified⟩ := completed_replaces (s := stored c s) hw
    exact .inr ⟨header, bytes, notified⟩
  · exact .inl ⟨rfl, rfl⟩

/-- A chunk is discarded, or stored from a state that differs in the reassembler and in outputs added (R150, R151):
`ChunkRan.cases`, and no output is lost before the store. -/
theorem ChunkRan.discarded_or_stored (h : ChunkRan s t) :
    t = raise .rxNoSync s ∨ ∃ c rx new, storeChunk c ((s.withRx rx).withLog (s.log ++ new)) = .next t := by
  obtain ⟨c, h | h⟩ := h
  · unfold syncChunk at h
    dsimp only at h
    split at h
    · exact .inr ⟨c, _, _, h⟩
    · exact .inr ⟨c, _, [], by rw [List.append_nil]; exact h⟩
  · unfold dataChunk at h
    split at h
    · exact .inr ⟨c, s.rx, [], by rw [List.append_nil]; exact h⟩
    · cases h; exact .inl rfl

/-- Outputs put out since a later point were put out since an earlier one. -/
theorem newOutputs_subset {u : State} {new : List Emission} (h : u.log = s.log ++ new) :
    newOutputs u t ⊆ newOutputs s t :=
  List.drop_subset_drop_left _ (by simp [h])

/-- A chunk keeps the shared report or replaces it wholesale. -/
theorem ChunkRan.shr (hw : s.buf.shr.wf = true) (h : ChunkRan s t) : ShrKept s t ∨ ShrReplaced s t := by
  obtain rfl | ⟨c, rx, new, h⟩ := h.discarded_or_stored
  · exact .inl ⟨rfl, rfl⟩
  · obtain ⟨header, bytes⟩ | ⟨header, bytes, notified⟩ :=
      storeChunk_shr (s := (s.withRx rx).withLog (s.log ++ new)) hw h
    · exact .inl ⟨header, bytes⟩
    · exact .inr ⟨header, bytes, newOutputs_subset rfl notified⟩

end Chunks

/-- Settles O33: an operation that is no chunk writes nothing of the shared report, and a chunk keeps or replaces it. -/
theorem shrReplacedWholesale : Obligations.ShrReplacedWholesale := by
  intro s t i hok h
  obtain ⟨chunkOp, ran⟩ | ⟨header, bytes⟩ := exec_shr h
  · obtain ⟨header, bytes⟩ | ⟨header, bytes, notified⟩ := ran.shr (hok.canonical .shr)
    · exact .inl ⟨header, bytes⟩
    · exact .inr ⟨chunkOp, header, bytes, notified⟩
  · exact .inl ⟨header, bytes⟩

end Sys2Proof.Machine

/-! ## The encodings of chunks, reports and speed codes (30_encoding.md R73 to R76, R81)

A decoded value is read off the bits it is formed from: the marker test and the little-endian words as arithmetic on
`toNat`, the speed code as the table's entry with the sign of the value. -/

namespace Sys2Proof

section Chunks
variable (c : Chunk)

/-- The marker test on the low 16 bits is the test on bytes 0 and 1 (R73). -/
theorem head16_eq_magic_iff :
    Chunk.head16 c = magic ↔ c.extractLsb' 0 8 = 0xFE#8 ∧ c.extractLsb' 8 8 = 0xFD#8 := by
  simp only [← BitVec.toNat_inj, Chunk.head16, BitVec.extractLsb'_toNat, Nat.shiftRight_eq_div_pow,
    BitVec.toNat_ofNat]
  omega

/-- The marker test on the low 16 bits is the table's mask and match (R73). -/
theorem head16_eq_magic_iff_masked :
    Chunk.head16 c = magic ↔ c &&& 0x0000000000FFFF#56 = 0x0000000000FDFE#56 := by
  have hmask : c.toNat &&& 0xFFFF = c.toNat % 2 ^ 16 := Nat.and_two_pow_sub_one_eq_mod c.toNat 16
  simp only [← BitVec.toNat_inj, Chunk.head16, BitVec.extractLsb'_toNat, Nat.shiftRight_zero, BitVec.toNat_and,
    BitVec.toNat_ofNat, Nat.reducePow, Nat.reduceMod] at hmask ⊢
  rw [hmask]

/-- A chunk as a word has no stray bit, so it decodes to its kind (R73). -/
theorem decode_chunk56 : decode .chunk56 (c.setWidth 64) = .ok (chunkInstr c) := by
  have hc : (wordOf c).extractLsb' 0 56 = c := by rw [wordOf_field _ _ _ (by decide), extractLsb'_all]
  have hrest : (wordOf c).extractLsb' 56 8 = 0#8 := by
    rw [wordOf_field _ _ _ (by decide), extractLsb'_above _ _ _ (by decide)]
  change within .chunk56 [(56, 8)] (wordOf c) (chunkInstr ((wordOf c).extractLsb' 0 56)) = _
  rw [hc, within_ok (by simp [hrest])]

end Chunks

/-- Settles O4: the byte test, the mask and match, and the decoder's test on the low 16 bits are one test. -/
theorem markerChunkDecode : Obligations.MarkerChunkDecode := by
  intro c
  rw [decode_chunk56, ← head16_eq_magic_iff]
  exact ⟨head16_eq_magic_iff_masked c, fun h => by rw [chunkInstr, if_pos h], fun h => by rw [chunkInstr, if_neg h]⟩

end Sys2Proof

namespace Sys2Proof.Machine

section Reports

/-- The number two bytes spell, the less significant first (decision D20). -/
theorem wordAt_toNat (m : Memory) (a : Nat) : (wordAt m a).toNat = (m.get a).toNat + 256 * (m.get (a + 1)).toNat := by
  rw [wordAt, BitVec.toNat_append, ← Nat.shiftLeft_add_eq_or_of_lt (m.get a).isLt, Nat.shiftLeft_eq]
  omega

/-- The sign of an axis is the top bit of its fraction (R75). -/
theorem Axis.sign_iff (x : Axis) : x.sign = true ↔ 2 ^ 15 ≤ x.fractionalPart.toNat := by
  have hmsb : x.sign = x.fractionalPart.msb := (BitVec.msb_eq_getLsbD_last _).symm
  rw [hmsb, BitVec.msb_eq_true_iff_two_mul_ge]
  omega

/-- The magnitude of an axis is the rest of its fraction (R75). -/
theorem Axis.magnitude_toNat (x : Axis) : x.magnitude.toNat = x.fractionalPart.toNat % 2 ^ 15 := by
  rw [Axis.magnitude, BitVec.extractLsb'_toNat, Nat.shiftRight_zero]

/-- The step code is the low nibble of the step multiplier (R76). -/
theorem InboundReport.stepCode_toNat (r : InboundReport) : r.stepCode.toNat = r.stepMultiplier.toNat % 16 := by
  rw [InboundReport.stepCode, BitVec.extractLsb'_toNat, Nat.shiftRight_zero]

theorem decodeReport_axis (l : Layout) (m : Memory) (i : Fin 6) : (decodeReport l m).axes[i] = axisAt l m i := by
  fin_cases i <;> rfl

theorem visibleReport_eq_some {s : State} {r : InboundReport} (h : State.visibleReport s = some r) :
    r = decodeReport s.cfg.layout s.buf.shr := by
  unfold State.visibleReport at h
  split at h
  · exact (Option.some.inj h).symm
  · cases h

end Reports

/-- Settles O34: every field of the visible report is read off the bytes of `SHR` at its offset. -/
theorem reportFieldViews : Obligations.ReportFieldViews := by
  intro s r h
  obtain rfl := visibleReport_eq_some h
  refine ⟨fun i => ?_, rfl, InboundReport.stepCode_toNat _⟩
  rw [decodeReport_axis]
  exact ⟨wordAt_toNat _ _, wordAt_toNat _ _, Axis.magnitude_toNat _, Axis.sign_iff _⟩

section SpeedCodes

/-- A speed table's codes bound every code it gives. -/
theorem speedCode_le {points : List (Nat × Nat)} {other b : Nat} (m : Nat) (hp : ∀ p ∈ points, p.2 ≤ b) (ho : other ≤ b) :
    speedCode points other m ≤ b := by
  induction points with
  | nil => exact ho
  | cons p rest ih =>
    obtain ⟨hhead, hrest⟩ := List.forall_mem_cons.1 hp
    rw [speedCode]
    split
    · exact hhead
    · exact ih hrest

/-- A code inside the range of `wheel` is neither clamped nor wrapped. -/
theorem clamp_wheel_toInt {v : Int} (h : v.natAbs ≤ 127) : (BitVec.ofInt 8 (clamp v (-wheelMax) wheelMax)).toInt = v := by
  have hclamp : clamp v (-wheelMax) wheelMax = v := by
    rw [clamp, wheelMax, if_neg (by omega), if_neg (by omega)]
  rw [hclamp, toInt_ofInt8 (by omega) (by omega)]

/-- With a table's codes inside that range, the speed code is the table's, signed as the value (R81). -/
theorem speedMap_toInt {t : SpeedTable} (hp : ∀ p ∈ t.points, p.2 ≤ 127) (ho : t.other ≤ 127) (v : I32) :
    (speedMap t v).toInt = (if v.toInt < 0 then -1 else 1) * (speedCode t.points t.other (mag32 v) : Int) := by
  have hle := speedCode_le (mag32 v) hp ho
  rw [speedMap, clamp_wheel_toInt (by split <;> omega), ite_mul, neg_one_mul, one_mul]

/-- The default breakpoints as a table (R81). -/
theorem speedCode_default (m : Nat) :
    speedCode ({} : SpeedTable).points ({} : SpeedTable).other m =
      if m ≤ 2 then 1 else if m ≤ 3 then 2 else if m ≤ 5 then 3 else if m ≤ 8 then 6 else if m ≤ 10 then 10
      else if m ≤ 15 then 20 else if m ≤ 20 then 30 else 50 := rfl

end SpeedCodes

/-- Settles O38: the default codes are at most 50, so no speed code is clamped. -/
theorem speedCodeTable : Obligations.SpeedCodeTable := by
  intro v
  refine ⟨?_, speedMap_bounds {} v⟩
  rw [speedMap_toInt (by decide) (by decide), speedCode_default, mag32]
  push_cast
  rfl

end Sys2Proof.Machine

/-! ## The report a phase USB_SEND offers (30_encoding.md R78, R79; 44_scheduler.md R172, R175)

The one report that phase USB_SEND can offer is composed from the state it was run in, with the wheel its own take leaves
pending (`exec_offers`); `xor_day` is then read off that report. -/

namespace Sys2Proof.Machine

section Bodies
variable {now : U32} {tr : BitVec 2} {s t : State} {report : List Byte}

@[simp] theorem composed_cfg (s : State) : (composed s).cfg = s.cfg := rfl
@[simp] theorem composed_log (s : State) : (composed s).log = s.log := rfl

/-- The report in `OUT` after `TX.COMPOSE` (R175). -/
theorem outBytes_composed (hw : s.buf.out.wf = true) : outBytes (composed s) = outReport s := by
  refine List.ext_getElem (by simp [outBytes, length_outReport]) fun i h _ => ?_
  have hi : i < s.cfg.outLen := by simpa [outBytes] using h
  rw [← List.getD_eq_getElem _ 0#8, ← List.getD_eq_getElem _ 0#8, outBytes, composed_cfg, Memory.getD_getBytes _ _ _ _ hi,
    Nat.zero_add, composed_out s hw i hi]

/-- An attempted send offers the report composed from the current state, if it offers one (R172). -/
theorem attemptSend_offers (hw : s.buf.out.wf = true) (h : attemptSend now tr s = .next t)
    (ho : .txReq report ∈ newOutputs s t) : report = outReport s := by
  rw [← outBytes_composed hw]
  obtain ⟨-, e⟩ | ⟨-, -, e⟩ | ⟨-, -, e⟩ | ⟨-, -, e⟩ := attemptSend_cases now tr s <;> cases e.symm.trans h
  · simp [newOutputs] at ho
  · simpa [newOutputs] using ho
  · simpa [newOutputs] using ho
  · simpa [newOutputs] using ho

/-- What is composed after the take of phase USB_SEND is the report with the wheel that take leaves (R78, R172). -/
theorem outReport_takenState (s : State) : outReport (takenState s) = reportWith s (wheelAfter s) := by
  obtain ⟨_, _, e, -⟩ := takenState_frame s
  rw [e, outReport, reportWith, Config.outLen]
  cases hpad : s.cfg.outPad <;> simp [wheelByte, hpad]

@[simp] theorem takenState_log (s : State) : (takenState s).log = s.log := by
  obtain ⟨_, _, e, -⟩ := takenState_frame s
  rw [e]; rfl

theorem phUsbSend_offers (hw : s.buf.out.wf = true) (h : phUsbSend now tr s = .next t)
    (ho : .txReq report ∈ newOutputs s t) : report = reportWith s (wheelAfter s) := by
  obtain rfl | ht := phUsbSend_from_takenState h
  · simp [newOutputs] at ho
  · rw [← outReport_takenState]
    exact attemptSend_offers (by rwa [takenState_buf]) ht (by rwa [newOutputs, takenState_log])

end Bodies

section Exec
variable {i : Instr} {s t : State} {report : List Byte}

/-- An operation that runs a phase body leaves what that body leaves, with the phase advanced when it is `SCH.STEP`. -/
theorem exec_bodyRan {p : BitVec 2} (hp : phaseRun i s = some p) (h : exec i s = .next t) :
    ∃ u, BodyRan s p u ∧ (t = u ∨ t = advancePhase u) := by
  obtain ⟨hp', -⟩ | ⟨p', u, hp', hb, ht⟩ := exec_cases h <;> cases hp.symm.trans hp'
  exact ⟨u, hb, ht⟩

/-- A report offered in phase USB_SEND, issued directly or run by `SCH.STEP`, is the one of the state before it. -/
theorem exec_offers (hw : s.buf.out.wf = true) (hp : phaseRun i s = some 3#2) (h : exec i s = .next t)
    (ho : .txReq report ∈ newOutputs s t) : report = reportWith s (wheelAfter s) := by
  obtain ⟨u, hb, ht⟩ := exec_bodyRan hp h
  cases hb with
  | usbSend sent => exact phUsbSend_offers hw sent (by obtain rfl | rfl := ht <;> exact ho)

/-- No phase writes the shared report's header. -/
theorem exec_phase_shr {p : BitVec 2} (hp : phaseRun i s = some p) (h : exec i s = .next t) : t.shr = s.shr := by
  obtain ⟨u, hb, ht⟩ := exec_bodyRan hp h
  obtain ⟨-, -, hshr⟩ := hb.frame
  obtain rfl | rfl := ht <;> exact hshr

end Exec

/-- Settles O43: bytes 1 and 5 of the offered report are `btn1` and its XOR with the day key, which the phase keeps. -/
theorem xorDayAtSend : Obligations.XorDayAtSend := by
  intro s t i report hinv hp h ho
  obtain rfl := exec_offers (hinv.buffers.canonical .out) hp h ho
  rw [exec_phase_shr hp h]
  exact ⟨rfl, fun hv => (hinv.shared.before hv).1⟩

end Sys2Proof.Machine

/-! ## The events and the hold slots of a key scan (41_keymatrix.md R124 to R128)

Where a hold slot can stand when the repeats of a scan begin is said once (`SlotStage`), and kept by each press edge. From
it follow what a slot then emits, which is what `repeatEvent` reads off the states before and after the scan, and what the
slot holds after the scan. -/

namespace Sys2Proof.Machine

section Slots
variable {cfg : Config} {now : U32} {old new : KeyPair} {slot x : HoldSlot} {st : KeyScanner × List Byte} {c : Byte}

theorem KeyPair.has_ne_zero {p : KeyPair} (h : p.has c = true) : c ≠ 0#8 := by
  simp only [KeyPair.has, decide_eq_true_eq] at h
  exact h.1

theorem KeyPair.has_of_mem {p : KeyPair} (hc : c ∈ [p.first, p.second]) : p.has c = true ↔ c ≠ 0#8 := by
  simp only [List.mem_cons, List.not_mem_nil, or_false] at hc
  simp [KeyPair.has, hc]

/-- Where the slot that was `slot` before a scan can stand when the repeats begin: still held by its code, which stays in the
stable pair `new`; free; or taken by a repeat-enabled code of `new` that `old` lacks (R124 to R126). -/
inductive SlotStage (cfg : Config) (now : U32) (old new : KeyPair) (slot : HoldSlot) : HoldSlot → Prop
  | held (stays : new.has slot.code = true) : SlotStage cfg now old new slot slot
  | free {x : HoldSlot} (gone : new.has slot.code = false) (empty : x.code = 0#8)
      (cleared : slot.code ≠ 0#8 → x = { code := 0#8, pressedAt := 0#32, nextRepeatAt := 0#32 }) :
      SlotStage cfg now old new slot x
  | taken {c : Byte} (gone : new.has slot.code = false) (inNew : new.has c = true) (notInOld : old.has c = false)
      (repeats : cfg.repeatEn c = true) : SlotStage cfg now old new slot (newSlot cfg now c)

theorem SlotStage.of_release : SlotStage cfg now old new slot (slot.release new) := by
  obtain ⟨-, gone, e⟩ | ⟨hz | stays, e⟩ := release_cases new slot <;> rw [e]
  · exact .free gone rfl fun _ => rfl
  · exact .free (by simp [KeyPair.has, hz]) hz fun hne => absurd hz hne
  · exact .held stays

/-- A slot that can be taken is free, and stays in a stage when a pressed code takes it (R125). -/
theorem SlotStage.take (h : SlotStage cfg now old new slot x) (hx : x.code = 0#8) (inNew : new.has c = true)
    (notInOld : old.has c = false) (repeats : cfg.repeatEn c = true) :
    SlotStage cfg now old new slot (newSlot cfg now c) := by
  cases h with
  | held stays => exact absurd hx (KeyPair.has_ne_zero stays)
  | free gone => exact .taken gone inNew notInOld repeats
  | taken gone => exact .taken gone inNew notInOld repeats

/-- Everything a press edge can do to the slots: nothing, or a repeat-enabled code that `old` lacks takes one that was free
(R124, R125). -/
theorem pressEdge_cases (cfg : Config) (now : U32) (old : KeyPair) (c : Byte) (st : KeyScanner × List Byte) :
    (pressEdge cfg now old c st).1 = st.1 ∨
    (c ≠ 0#8 ∧ old.has c = false ∧ cfg.repeatEn c = true ∧
      (st.1.slot0.code = 0#8 ∧ (pressEdge cfg now old c st).1 = { st.1 with slot0 := newSlot cfg now c } ∨
        st.1.slot1.code = 0#8 ∧ (pressEdge cfg now old c st).1 = { st.1 with slot1 := newSlot cfg now c })) := by
  unfold pressEdge takeSlot
  split_ifs with hp hr h0 h1
  · exact .inr ⟨hp.1, by simpa using hp.2, hr, .inl ⟨h0, rfl⟩⟩
  · exact .inr ⟨hp.1, by simpa using hp.2, hr, .inr ⟨h1, rfl⟩⟩
  · exact .inl rfl
  · exact .inl rfl
  · exact .inl rfl

/-- Both slots of `km` stand in a stage in `km'`. -/
def SlotStages (cfg : Config) (now : U32) (old new : KeyPair) (km km' : KeyScanner) : Prop :=
  SlotStage cfg now old new km.slot0 km'.slot0 ∧ SlotStage cfg now old new km.slot1 km'.slot1

theorem SlotStages.after_pressEdge {km : KeyScanner} (h : SlotStages cfg now old new km st.1) (hc : c ∈ [new.first, new.second]) :
    SlotStages cfg now old new km (pressEdge cfg now old c st).1 := by
  obtain ⟨h0, h1⟩ := h
  obtain e | ⟨hne, notInOld, repeats, ⟨hz, e⟩ | ⟨hz, e⟩⟩ := pressEdge_cases cfg now old c st <;> rw [e]
  · exact ⟨h0, h1⟩
  · exact ⟨h0.take hz ((KeyPair.has_of_mem hc).2 hne) notInOld repeats, h1⟩
  · exact ⟨h0, h1.take hz ((KeyPair.has_of_mem hc).2 hne) notInOld repeats⟩

theorem repeatDue_code {n : Nat} (h : repeatDue now slot n = true) : slot.code ≠ 0#8 := by
  simp only [repeatDue, Bool.and_eq_true, decide_eq_true_eq] at h
  obtain ⟨⟨hne, -⟩, -⟩ := h
  exact hne

end Slots

section Repeats
variable (cfg : Config) (now : U32) (st : KeyScanner × List Byte)

/-- The REPEAT of a slot with no cap on events (R127). -/
def slotRepeat (now : U32) (slot : HoldSlot) : List Byte := if repeatDue now slot 0 then [slot.code] else []

/-- The cap cuts a slot's REPEAT only when two events are out (R127). -/
theorem repeat_capped (slot : HoldSlot) (n : Nat) :
    (if repeatDue now slot n then [slot.code] else []) = if n < 2 then slotRepeat now slot else [] := by
  by_cases hn : n < 2 <;> simp [slotRepeat, repeatDue, hn]

/-- The first two events are those of the uncapped list: PRESSes, then the REPEATs of slot 0 and of slot 1 (R128). -/
theorem repeats_take_two :
    (repeatSlot1 cfg now (repeatSlot0 cfg now st)).2.take 2 =
      (st.2 ++ (slotRepeat now st.1.slot0 ++ slotRepeat now st.1.slot1)).take 2 := by
  rw [repeatSlot1_events, repeatSlot0_slot1, repeat_capped, repeatSlot0_events, repeat_capped]
  by_cases hn : st.2.length < 2
  · rw [if_pos hn, ← List.append_assoc]
    split
    · rfl
    · next hfull => rw [List.append_nil]; exact (List.take_append_of_le_length (Nat.le_of_not_lt hfull)).symm
  · rw [if_neg hn, List.append_nil, if_neg hn, List.append_nil, List.take_append_of_le_length (by omega)]

theorem eventPair_take_two (ev : List Byte) : eventPair (ev.take 2) = eventPair ev := by
  simp [eventPair]

/-- What the repeats leave of a slot: itself, or itself re-armed when it held a code (R127). -/
def RepeatRan (cfg : Config) (now : U32) (x y : HoldSlot) : Prop := y = x ∨ x.code ≠ 0#8 ∧ y = x.rearm cfg now

theorem repeats_slot0 : RepeatRan cfg now st.1.slot0 (repeatSlot1 cfg now (repeatSlot0 cfg now st)).1.slot0 := by
  rw [repeatSlot1_slot0, repeatSlot0]
  split
  · next hd => exact .inr ⟨repeatDue_code hd, rfl⟩
  · exact .inl rfl

theorem repeats_slot1 : RepeatRan cfg now st.1.slot1 (repeatSlot1 cfg now (repeatSlot0 cfg now st)).1.slot1 := by
  rw [← repeatSlot0_slot1 cfg now st, repeatSlot1]
  split
  · next hd => exact .inr ⟨repeatDue_code hd, rfl⟩
  · exact .inl rfl

variable {cfg now} {x y : HoldSlot}

theorem RepeatRan.code (h : RepeatRan cfg now x y) : y.code = x.code := by
  obtain rfl | ⟨-, rfl⟩ := h <;> rfl

theorem RepeatRan.pressedAt (h : RepeatRan cfg now x y) : y.pressedAt = x.pressedAt := by
  obtain rfl | ⟨-, rfl⟩ := h <;> rfl

theorem RepeatRan.of_free (h : RepeatRan cfg now x y) (hx : x.code = 0#8) : y = x :=
  h.resolve_right fun hr => hr.1 hx

end Repeats

section Scan
variable (cfg : Config) (now : U32) (raw : KeyPair) (km : KeyScanner)

/-- The scanner and the events when the repeats begin: slots freed, then the press edges of the new stable pair (R124 to
R126). -/
def afterPresses : KeyScanner × List Byte :=
  let km1 := debounce cfg now raw km
  pressEdge cfg now km.stable km1.stable.second (pressEdge cfg now km.stable km1.stable.first (freeSlots km1, []))

theorem scanKeys_eq : scanKeys cfg now raw km = repeatSlot1 cfg now (repeatSlot0 cfg now (afterPresses cfg now raw km)) := rfl

theorem afterPresses_stages :
    SlotStages cfg now km.stable (debounce cfg now raw km).stable km (afterPresses cfg now raw km).1 := by
  refine SlotStages.after_pressEdge (SlotStages.after_pressEdge ⟨?_, ?_⟩ (by simp)) (by simp)
  · simpa [freeSlots] using SlotStage.of_release
  · simpa [freeSlots] using SlotStage.of_release

/-- The PRESSes: the codes of the new stable pair, in its order, that the old one lacks (R124). -/
theorem afterPresses_events :
    (afterPresses cfg now raw km).2 =
      [(debounce cfg now raw km).stable.first, (debounce cfg now raw km).stable.second].filter
        fun c => (debounce cfg now raw km).stable.has c && !km.stable.has c := by
  have pressed_iff : ∀ c ∈ [(debounce cfg now raw km).stable.first, (debounce cfg now raw km).stable.second],
      ((debounce cfg now raw km).stable.has c && !km.stable.has c) = decide (c ≠ 0#8 ∧ ¬ km.stable.has c) := fun c hc => by
    rw [Bool.eq_iff_iff]
    simp [KeyPair.has_of_mem hc]
  rw [List.filter_congr pressed_iff, afterPresses, pressEdge_events, pressEdge_events]
  simp only [List.filter_cons, List.filter_nil, List.nil_append, decide_eq_true_eq]
  split_ifs <;> rfl

end Scan

section Exec
variable {s t : State} {now : U32} {keys : BitVec 16} {c : Byte}

/-- A completed scan leaves the scanner and returns the event pair of `scanKeys` (R120, R129). -/
theorem exec_kmScan (h : exec (.kmScan now keys) s = .next t) :
    t.km = (scanKeys s.cfg now (rawScan s.cfg keys) s.km).1 ∧
      t.ret = .scanned (eventPair (scanKeys s.cfg now (rawScan s.cfg keys) s.km).2).first
        (eventPair (scanKeys s.cfg now (rawScan s.cfg keys) s.km).2).second := by
  obtain ⟨-, ⟨⟩⟩ := issued_eq_next.1 h
  exact ⟨rfl, rfl⟩

theorem exec_kmScan_stable (h : exec (.kmScan now keys) s = .next t) :
    t.km.stable = (debounce s.cfg now (rawScan s.cfg keys) s.km).stable := by
  obtain ⟨-, -, e⟩ := scanKeys_pairs s.cfg now (rawScan s.cfg keys) s.km
  rw [(exec_kmScan h).1, e]

/-- `new` is what a scan from `s` to `t` at `now` can leave of the hold slot that was `old`. -/
def SlotScanned (s t : State) (now : U32) (old new : HoldSlot) : Prop :=
  ∃ x, SlotStage s.cfg now s.km.stable t.km.stable old x ∧ RepeatRan s.cfg now x new

theorem exec_kmScan_slots (h : exec (.kmScan now keys) s = .next t) :
    SlotScanned s t now s.km.slot0 t.km.slot0 ∧ SlotScanned s t now s.km.slot1 t.km.slot1 := by
  obtain ⟨h0, h1⟩ := afterPresses_stages s.cfg now (rawScan s.cfg keys) s.km
  rw [← exec_kmScan_stable h] at h0 h1
  rw [(exec_kmScan h).1, scanKeys_eq]
  exact ⟨⟨_, h0, repeats_slot0 ..⟩, ⟨_, h1, repeats_slot1 ..⟩⟩

/-- What a slot emits, read off the slot before and after the scan (R127). -/
theorem SlotStage.slotRepeat_eq {old x new : HoldSlot} (h : SlotStage s.cfg now s.km.stable t.km.stable old x)
    (hcode : new.code = x.code) : slotRepeat now x = repeatEvent s t now old new := by
  cases h with
  | held stays => simp [slotRepeat, repeatDue, due, repeatEvent, stays, KeyPair.has_ne_zero stays]
  | free gone empty => simp [slotRepeat, repeatDue, repeatEvent, gone, hcode, empty]
  | taken gone inNew =>
    simp [slotRepeat, repeatDue, due, after, repeatEvent, gone, hcode, newSlot, KeyPair.has_ne_zero inNew]

/-- A scan returns the first two of its events in order (R128). -/
theorem exec_kmScan_ret (h : exec (.kmScan now keys) s = .next t) :
    t.ret = .scanned (eventPair (eventsInOrder s t now)).first (eventPair (eventsInOrder s t now)).second := by
  obtain ⟨hkm, hret⟩ := exec_kmScan h
  obtain ⟨h0, h1⟩ := afterPresses_stages s.cfg now (rawScan s.cfg keys) s.km
  have hev := afterPresses_events s.cfg now (rawScan s.cfg keys) s.km
  have htake := repeats_take_two s.cfg now (afterPresses s.cfg now (rawScan s.cfg keys) s.km)
  have r0 := (repeats_slot0 s.cfg now (afterPresses s.cfg now (rawScan s.cfg keys) s.km)).code
  have r1 := (repeats_slot1 s.cfg now (afterPresses s.cfg now (rawScan s.cfg keys) s.km)).code
  rw [← scanKeys_eq] at htake r0 r1
  rw [← hkm] at r0 r1
  rw [← exec_kmScan_stable h] at h0 h1 hev
  rw [hev, h0.slotRepeat_eq r0, h1.slotRepeat_eq r1] at htake
  have hpair := congrArg eventPair htake
  rw [eventPair_take_two, eventPair_take_two] at hpair
  rw [hret, hpair]
  rfl

theorem exec_kmScan_emitted (h : exec (.kmScan now keys) s = .next t) :
    emitted t c ↔ (eventPair (eventsInOrder s t now)).first = c ∨ (eventPair (eventsInOrder s t now)).second = c := by
  rw [emitted, exec_kmScan_ret h, eventsOf]

theorem mem_pressEvents : c ∈ pressEvents s t ↔ newlyPressed s t c := by
  simp only [pressEvents, List.mem_filter, Bool.and_eq_true, Bool.not_eq_true', newlyPressed, and_iff_right_iff_imp]
  rintro ⟨hc, -⟩
  simp only [KeyPair.has, decide_eq_true_eq] at hc
  simpa using hc.2

/-- The PRESSes of a scan fit into its two events (R128). -/
theorem eventPair_of_mem_pressEvents (hc : c ∈ pressEvents s t) (rest : List Byte) :
    (eventPair (pressEvents s t ++ rest)).first = c ∨ (eventPair (pressEvents s t ++ rest)).second = c := by
  have hlen : (pressEvents s t).length ≤ 2 := List.length_filter_le _ _
  match hp : pressEvents s t, hc, hlen with
  | [a], hc, _ => exact .inl (by simpa [eventPair, eq_comm] using hc)
  | [a, b], hc, _ => simpa [eventPair, eq_comm] using hc

theorem mem_of_eventPair {ev : List Byte} (hne : c ≠ 0#8) (h : (eventPair ev).first = c ∨ (eventPair ev).second = c) :
    c ∈ ev := by
  match ev, h with
  | [], h => exact absurd (by simpa [eventPair] using h : 0#8 = c).symm hne
  | [a], h => simpa [eventPair, hne.symm, eq_comm] using h
  | a :: b :: rest, h =>
    obtain rfl | rfl := h
    · exact List.mem_cons_self
    · exact List.mem_cons_of_mem a List.mem_cons_self

/-- A slot whose code left the stable pair is free after the scan, cleared if it held a code, or taken by a repeat-enabled
newly pressed code (R125, R126). -/
theorem SlotScanned.of_gone {old new : HoldSlot} (h : SlotScanned s t now old new) (gone : t.km.stable.has old.code = false) :
    (new.code = 0#8 ∧ (old.code ≠ 0#8 → new = { code := 0#8, pressedAt := 0#32, nextRepeatAt := 0#32 })) ∨
    (newlyPressed s t new.code ∧ s.cfg.repeatEn new.code = true ∧ new.pressedAt = now) := by
  obtain ⟨x, hx, hr⟩ := h
  cases hx with
  | held stays => rw [gone] at stays; cases stays
  | free _ empty cleared =>
    obtain rfl := hr.of_free empty
    exact .inl ⟨empty, cleared⟩
  | taken _ inNew notInOld repeats =>
    rw [hr.code, hr.pressedAt]
    exact .inr ⟨⟨inNew, notInOld⟩, repeats, rfl⟩

/-- A slot that holds a code after a scan holds one of the stable pair (R126). -/
theorem SlotScanned.code_held {old new : HoldSlot} (h : SlotScanned s t now old new) (hne : new.code ≠ 0#8) :
    t.km.stable.has new.code = true := by
  obtain ⟨x, hx, hr⟩ := h
  rw [hr.code] at hne ⊢
  cases hx with
  | held stays => exact stays
  | free _ empty => exact absurd empty hne
  | taken _ inNew => exact inNew

/-- The REPEAT of a slot is the code of a held slot that is due, or of a slot that a newly pressed code has just taken
(R125, R127). -/
theorem SlotScanned.of_mem_repeatEvent {old new : HoldSlot} (h : SlotScanned s t now old new)
    (hc : c ∈ repeatEvent s t now old new) :
    newlyPressed s t c ∨ (old.code = c ∧ t.km.stable.has c = true ∧ 0 ≤ (now - old.nextRepeatAt).toInt) := by
  unfold repeatEvent at hc
  split_ifs at hc with stays hdue hnew
  · obtain rfl := List.mem_singleton.1 hc
    exact .inr ⟨rfl, stays, hdue⟩
  · cases hc
  · obtain rfl := List.mem_singleton.1 hc
    obtain ⟨empty, -⟩ | ⟨pressed, -, -⟩ := h.of_gone (by simpa using stays)
    · exact absurd empty hnew.1
    · exact .inl pressed
  · cases hc

/-- The stable pair has new codes only after a promotion (R123, decisions D5 and D14). -/
theorem newlyPressed_promoted (h : exec (.kmScan now keys) s = .next t) (hc : newlyPressed s t c) :
    rawScan s.cfg keys = s.km.lastRaw ∧ s.cfg.timing.debounce ≤ (now - s.km.lastChange).toNat := by
  obtain ⟨inNew, notInOld⟩ := hc
  rw [exec_kmScan_stable h] at inNew
  obtain ⟨-, e⟩ | ⟨same, lasted, -⟩ | ⟨-, -, e⟩ := debounce_cases s.cfg now (rawScan s.cfg keys) s.km
  · rw [e] at inNew; exact absurd (inNew.symm.trans notInOld) (by decide)
  · exact ⟨same, lasted⟩
  · rw [e] at inNew; exact absurd (inNew.symm.trans notInOld) (by decide)

theorem newlyPressed_emitted (h : exec (.kmScan now keys) s = .next t) (hc : newlyPressed s t c) : emitted t c :=
  (exec_kmScan_emitted h).2 (eventPair_of_mem_pressEvents (mem_pressEvents.2 hc) _)

/-- Every code a scan emits is newly pressed, or that of a held slot that is due (R124, R127). -/
theorem emitted_cases (h : exec (.kmScan now keys) s = .next t) (hne : c ≠ 0#8) (hc : emitted t c) :
    newlyPressed s t c ∨
      ∃ slot ∈ [s.km.slot0, s.km.slot1], slot.code = c ∧ t.km.stable.has c = true ∧
        0 ≤ (now - slot.nextRepeatAt).toInt := by
  obtain ⟨hs0, hs1⟩ := exec_kmScan_slots h
  have hmem := mem_of_eventPair hne ((exec_kmScan_emitted h).1 hc)
  rw [eventsInOrder, List.mem_append, List.mem_append] at hmem
  obtain hp | hr | hr := hmem
  · exact .inl (mem_pressEvents.1 hp)
  · exact (hs0.of_mem_repeatEvent hr).imp_right fun hd => ⟨_, List.mem_cons_self, hd⟩
  · exact (hs1.of_mem_repeatEvent hr).imp_right fun hd => ⟨_, List.mem_cons_of_mem _ List.mem_cons_self, hd⟩

/-- Every code a scan emits is in the stable pair after it. -/
theorem emitted_held (h : exec (.kmScan now keys) s = .next t) (hne : c ≠ 0#8) (hc : emitted t c) :
    t.km.stable.has c = true := by
  obtain ⟨inNew, -⟩ | ⟨_, -, -, held, -⟩ := emitted_cases h hne hc
  · exact inNew
  · exact held

end Exec

end Sys2Proof.Machine

namespace Sys2Proof
open Machine

/-- Settles O18: the returned pair is the first two of the PRESSes and then the REPEATs, and the PRESSes always fit. -/
theorem pressEvents : Obligations.PressEvents := by
  intro s t now keys h
  exact ⟨fun _ => newlyPressed_emitted h, fun _ => newlyPressed_promoted h, fun _ => emitted_cases h, exec_kmScan_ret h⟩

/-- Settles O20: whatever a scan emits or a slot carries after it is in its stable pair. -/
theorem slotRelease : Obligations.SlotRelease := by
  intro s t now keys h p hp hne gone
  obtain ⟨hs0, hs1⟩ := exec_kmScan_slots h
  have hscanned : SlotScanned s t now p.1 p.2 := by
    obtain rfl | rfl := List.mem_pair.1 hp
    · exact hs0
    · exact hs1
  have not_held : ¬ t.km.stable.has p.1.code = true := by simp [gone]
  have not_carried {old new : HoldSlot} (hs : SlotScanned s t now old new) : new.code ≠ p.1.code := fun he =>
    not_held (he ▸ hs.code_held (he ▸ hne))
  exact ⟨fun he => not_held (emitted_held h hne he), not_carried hs0, not_carried hs1,
    (hscanned.of_gone gone).imp_left fun ⟨_, cleared⟩ => cleared hne⟩

end Sys2Proof

/-! ## A report from its marker on (43_reassembler.md R150, R151, R154, R157)

A marker chunk leaves the reassembler as `restarted`, whatever it held before. From there each chunk goes behind the one
before it, so a run of chunks stores their bytes in one piece (`storedBytes`), and the chunk that reaches the report's
length publishes that piece (`runOps_report`). -/

namespace Sys2Proof.Machine

section ChunkBytes
variable {n : Nat} {c : Chunk} {x : BitVec n} {bs : List Byte}

/-- `bs` are the bytes of `x`, the least significant first, with zeros behind them. -/
def Spells (bs : List Byte) (x : BitVec n) : Prop := ∀ a, bs.getD a 0#8 = x.extractLsb' (8 * a) 8

theorem spells_chunkBytes (c : Chunk) : Spells (chunkBytes c) c := by
  intro a
  match a with
  | 0 | 1 | 2 | 3 | 4 | 5 | 6 => rfl
  | a + 7 =>
    rw [List.getD_eq_default _ _ (Nat.le_add_left 7 a), extractLsb'_above _ _ _ (by omega)]

/-- A chunk in front of bytes is the low end of the number they spell (R73). -/
theorem Spells.cons_chunk (h : Spells bs x) (c : Chunk) : Spells (chunkBytes c ++ bs) (x ++ c) := by
  intro a
  by_cases ha : a < 7
  · rw [List.getD_append _ _ _ _ ha, spells_chunkBytes c, BitVec.extractLsb'_append_eq_of_add_le (by omega)]
  · have hle : 7 ≤ a := Nat.le_of_not_lt ha
    rw [List.getD_append_right _ _ _ _ hle, length_chunkBytes, h, BitVec.extractLsb'_append_eq_of_le (by omega),
      Nat.mul_sub]

theorem isMarker_iff : isMarker c = true ↔ c.extractLsb' 0 16 = magic := by
  rw [isMarker, decide_eq_true_eq]
  exact (head16_eq_magic_iff c).symm

theorem markerChunk_head (tail : BitVec 40) : (markerChunk tail).extractLsb' 0 16 = magic := by
  rw [markerChunk, BitVec.extractLsb'_append_eq_of_add_le (by decide), extractLsb'_all]

/-- The bytes of a marker chunk: the marker, then the tail (R151). -/
theorem getD_chunkBytes_markerChunk (tail : BitVec 40) {a : Nat} (ha : a < 7) :
    (chunkBytes (markerChunk tail)).getD a 0#8 =
      if a = 0 then 0xFE#8 else if a = 1 then 0xFD#8 else tail.extractLsb' (8 * (a - 2)) 8 := by
  rw [spells_chunkBytes, markerChunk]
  split_ifs with h0 h1
  · subst h0
    rw [BitVec.extractLsb'_append_eq_of_add_le (by decide)]
    rfl
  · subst h1
    rw [BitVec.extractLsb'_append_eq_of_add_le (by decide)]
    rfl
  · rw [BitVec.extractLsb'_append_eq_of_le (by omega), Nat.mul_sub]

end ChunkBytes

section Storing
variable {c : Chunk} {s : State}

theorem Memory.setBytes_setBytes (m : Memory) (a : Nat) (bs bs' : List Byte) :
    (m.setBytes a bs).setBytes (a + bs.length) bs' = m.setBytes a (bs ++ bs') := by
  induction bs generalizing m a with
  | nil => rfl
  | cons v rest ih =>
    rw [List.length_cons, Nat.add_comm rest.length 1, ← Nat.add_assoc]
    exact ih (m.set a v) (a + 1)

/-- The state after `bs` are stored in `SCR` at the offset, which moves behind them. -/
def storedBytes (bs : List Byte) (s : State) : State :=
  (s.withBuf (s.buf.set .scr (s.buf.scr.setBytes s.rx.offset bs))).withRx { s.rx with offset := s.rx.offset + bs.length }

theorem stored_eq_storedBytes (c : Chunk) (s : State) : stored c s = storedBytes (chunkBytes c) s := rfl

theorem storedBytes_storedBytes (bs bs' : List Byte) (s : State) :
    storedBytes bs' (storedBytes bs s) = storedBytes (bs ++ bs') s := by
  simp only [storedBytes, Buffers.set, State.withBuf, State.withRx, Memory.setBytes_setBytes, List.length_append,
    Nat.add_assoc]

theorem storedBytes_byteAt_scr (hw : s.buf.scr.wf = true) (bs : List Byte) (a : Nat) :
    (storedBytes bs s).byteAt .scr a =
      if s.rx.offset ≤ a ∧ a < s.rx.offset + bs.length then bs.getD (a - s.rx.offset) 0#8 else s.byteAt .scr a :=
  Memory.get_setBytes _ _ _ hw

/-- A chunk that does not reach the report's length is stored and nothing more (R152, R154). -/
theorem storeChunk_of_partial (room : s.rx.offset + 7 ≤ 42) (short : s.rx.offset + 7 < s.cfg.reportLen) :
    storeChunk c s = .next (storedBytes (chunkBytes c) s) := by
  rw [← stored_eq_storedBytes]
  obtain ⟨full, -⟩ | ⟨-, reached, -⟩ | ⟨-, -, e⟩ := storeChunk_cases c s
  · exact absurd room (Nat.not_le_of_lt full)
  · exact absurd reached (Nat.not_le_of_lt short)
  · exact e

/-- A chunk that reaches the report's length is stored and completes the report (R154). -/
theorem storeChunk_of_reached (room : s.rx.offset + 7 ≤ 42) (reached : s.cfg.reportLen ≤ s.rx.offset + 7) :
    storeChunk c s = .next (completed (storedBytes (chunkBytes c) s)) := by
  rw [← stored_eq_storedBytes]
  obtain ⟨full, -⟩ | ⟨-, -, e⟩ | ⟨-, short, -⟩ := storeChunk_cases c s
  · exact absurd room (Nat.not_le_of_lt full)
  · exact e
  · exact absurd reached (Nat.not_le_of_lt short)

/-- The reassembler at the start of a new report, with the resync event of an interrupted one put out (R151). -/
def restarted (s : State) : State :=
  (s.withRx { offset := 0, syncFound := true }).withLog
    (s.log ++ if s.rx.syncFound then [.raised (.rxResync s.rx.offset)] else [])

@[simp] theorem restarted_cfg (s : State) : (restarted s).cfg = s.cfg := rfl
@[simp] theorem restarted_rx (s : State) : (restarted s).rx = { offset := 0, syncFound := true } := rfl

/-- A marker chunk, synced or not, is stored from the restarted reassembler (R151). -/
theorem syncChunk_eq (c : Chunk) (s : State) : syncChunk c s = storeChunk c (restarted s) := by
  unfold syncChunk restarted
  dsimp only
  split
  · rfl
  · rw [List.append_nil]; rfl

/-- A marker chunk of a report longer than one chunk is stored and nothing more (R151, R160). -/
theorem syncChunk_of_short (short : 7 < s.cfg.reportLen) :
    syncChunk c s = .next (storedBytes (chunkBytes c) (restarted s)) := by
  rw [syncChunk_eq]
  exact storeChunk_of_partial (by simp) (by simpa using short)

theorem rxChunk_of_marker (h : c.extractLsb' 0 16 = magic) : rxChunk c s = syncChunk c s :=
  if_pos (isMarker_iff.2 h)

/-- A data chunk is stored while synced (R150). -/
theorem rxChunk_of_data (h : c.extractLsb' 0 16 ≠ magic) (synced : s.rx.syncFound = true) :
    rxChunk c s = storeChunk c s := by
  rw [rxChunk, if_neg (mt isMarker_iff.1 h), dataChunk, if_pos synced]

/-- Both operations that carry a marker chunk handle it alike. -/
theorem exec_markerChunk {i : Instr} {tail : BitVec 40} (may : mayIssue s.cfg s.ctx i = true)
    (hi : i = .rxChunk (markerChunk tail) ∨ i = .rxcSync tail) : exec i s = syncChunk (markerChunk tail) s := by
  obtain rfl | rfl := hi
  · exact (issued_of_may may).trans (rxChunk_of_marker (markerChunk_head tail))
  · exact issued_of_may may

end Storing

/-- Settles O26: the marker chunk is the seven bytes stored at the start of the restarted report. -/
theorem markerRestartsReport : Obligations.MarkerRestartsReport := by
  intro s tail i may hok short hi
  refine ⟨_, (exec_markerChunk may hi).trans (syncChunk_of_short short), fun a => ?_⟩
  have read := storedBytes_byteAt_scr (s := restarted s) (hok.canonical .scr) (chunkBytes (markerChunk tail)) a
  rw [restarted_rx, length_chunkBytes, Nat.zero_add] at read
  refine read.trans ?_
  by_cases ha : a < 7
  · rw [if_pos ⟨Nat.zero_le a, ha⟩, Nat.sub_zero, getD_chunkBytes_markerChunk tail ha, if_pos ha]
  · rw [if_neg (by omega), if_neg (by omega), if_neg (by omega), if_neg ha]
    rfl

section Runs
variable {cfg : Config} {s : State} {c0 : Chunk} {cs : List Chunk}

/-- `RX.CHUNK`, issued by the context that may issue it. -/
def issueChunk (cfg : Config) (c : Chunk) : Context × Instr := (rxContextOf cfg, .rxChunk c)

/-- The chunk is handled in its context, and the run goes on. -/
theorem runOps_issueChunk (hcfg : s.cfg = cfg) (c : Chunk) (ops : List (Context × Instr)) :
    runOps (issueChunk cfg c :: ops) s = chain (rxChunk c (enterContext (rxContextOf cfg) s)) (runOps ops) := by
  subst hcfg
  exact congrArg (chain · (runOps ops)) (issued_of_may (decide_eq_true rfl))

/-- While synced, data chunks up to the one that reaches the report's length complete the report with their bytes stored one
behind the other (R150, R154). -/
theorem runOps_dataChunks (hcfg : s.cfg = cfg) (hctx : s.ctx = rxContextOf cfg)
    (data : ∀ c ∈ cs, c.extractLsb' 0 16 ≠ magic)
    (synced : s.rx.syncFound = true) (unfinished : s.rx.offset < cfg.reportLen) (room : s.rx.offset + 7 * cs.length ≤ 42)
    (reached : cfg.reportLen ≤ s.rx.offset + 7 * cs.length) (least : s.rx.offset + 7 * cs.length < cfg.reportLen + 7) :
    runOps (cs.map (issueChunk cfg)) s = .next (completed (storedBytes (cs.flatMap chunkBytes) s)) := by
  induction cs generalizing s with
  | nil => exact absurd reached (Nat.not_le_of_lt unfinished)
  | cons c cs ih =>
    obtain ⟨hc, hcs⟩ := List.forall_mem_cons.1 data
    rw [List.length_cons] at room reached least
    have entered : enterContext (rxContextOf cfg) s = s := by rw [← hctx]; rfl
    rw [List.map_cons, runOps_issueChunk hcfg, entered, rxChunk_of_data hc synced, List.flatMap_cons]
    by_cases more : s.rx.offset + 7 < cfg.reportLen
    · have offset_eq : (storedBytes (chunkBytes c) s).rx.offset = s.rx.offset + 7 := rfl
      rw [storeChunk_of_partial (by omega) (by rw [hcfg]; exact more), chain_next, ← storedBytes_storedBytes]
      exact ih hcfg hctx hcs synced more (by omega) (by omega) (by omega)
    · obtain rfl : cs = [] := List.eq_nil_of_length_eq_zero (by omega)
      rw [storeChunk_of_reached (by omega) (by rw [hcfg]; omega), List.flatMap_nil, List.append_nil]
      rfl

/-- A marker chunk and data chunks up to the one that reaches the report's length complete the report those chunks carry,
from any state (R157). -/
theorem runOps_report (marker : c0.extractLsb' 0 16 = magic) (data : ∀ c ∈ cs, c.extractLsb' 0 16 ≠ magic)
    (more : 7 < s.cfg.reportLen) (room : 7 + 7 * cs.length ≤ 42) (reached : s.cfg.reportLen ≤ 7 + 7 * cs.length)
    (least : 7 + 7 * cs.length < s.cfg.reportLen + 7) :
    runOps ((c0 :: cs).map (issueChunk s.cfg)) s =
      .next (completed (storedBytes ((c0 :: cs).flatMap chunkBytes)
        (restarted (enterContext (rxContextOf s.cfg) s)))) := by
  rw [List.map_cons, runOps_issueChunk rfl, rxChunk_of_marker marker,
    syncChunk_of_short (s := enterContext (rxContextOf s.cfg) s) more, chain_next, List.flatMap_cons,
    ← storedBytes_storedBytes]
  exact runOps_dataChunks rfl rfl data rfl more room reached least

/-- What a completed report shows is what was stored below its length (R154). -/
theorem completed_storedBytes_byteAt_shr {bs : List Byte} {a : Nat} (hscr : s.buf.scr.wf = true) (hshr : s.buf.shr.wf = true)
    (start : s.rx.offset = 0) (ha : a < s.cfg.reportLen) (hbs : s.cfg.reportLen ≤ bs.length) :
    (completed (storedBytes bs s)).byteAt .shr a = bs.getD a 0#8 := by
  have copied : (completed (storedBytes bs s)).byteAt .shr a = (storedBytes bs s).byteAt .scr a :=
    completed_bytes (s := storedBytes bs s) hshr ha
  rw [copied, storedBytes_byteAt_scr hscr, start, if_pos ⟨Nat.zero_le a, by omega⟩, Nat.sub_zero]

end Runs

/-- Settles O31: the six chunks run to a completed report of the bytes they spell. -/
theorem markerMidReportRestarts : Obligations.MarkerMidReportRestarts := by
  intro s c0 c1 c2 c3 c4 c5 hok hlen marker data
  have run := runOps_report (s := s) marker data (by omega) (by simp) (by simp [hlen]) (by simp [hlen])
  refine ⟨_, run, fun a ha => ?_, rfl, rfl, ?_⟩
  · have spelled : Spells ([c0, c1, c2, c3, c4, c5].flatMap chunkBytes) (c5 ++ c4 ++ c3 ++ c2 ++ c1 ++ c0) :=
      (((((spells_chunkBytes c5).cons_chunk c4).cons_chunk c3).cons_chunk c2).cons_chunk c1).cons_chunk c0
    rw [← spelled]
    exact completed_storedBytes_byteAt_shr (hok.canonical .scr) (hok.canonical .shr) rfl (ha.trans_eq hlen.symm)
      (hlen.trans_le (by simp))
  · exact (congrArg (List.drop s.log.length) (List.append_assoc ..)).trans List.drop_left

end Sys2Proof.Machine

/-! ## The keepalive (44_scheduler.md R174)

A due keepalive makes phase USB_SEND attempt a send (`phUsbSend_of_keepalive`), and a send that the floor lets pass offers
the composed report, whatever the transport answers (`attemptSend_past_floor`). -/

namespace Sys2Proof.Machine

section Keepalive
variable {now : U32} {tr : BitVec 2} {s : State}

theorem minInterval_le {cfg : Config} {b : Nat} (fast : cfg.timing.minIvFast ≤ b) (mid : cfg.timing.minIvMid ≤ b)
    (slow : cfg.timing.minIvSlow ≤ b) (v : I32) : minInterval cfg v ≤ b := by
  unfold minInterval
  split
  · exact fast
  · split
    · exact mid
    · exact slow

theorem needSend_of_keepalive {cfg : Config} {sch : Scheduler} (due : cfg.timing.keepalive ≤ elapsed now sch.lastSend) :
    needSend cfg sch now = true := by
  simp [needSend, due]

theorem answerOf_eq_success_iff : answerOf tr = .success ↔ tr = 0#2 := by
  revert tr; decide

@[simp] theorem takenState_cfg (s : State) : (takenState s).cfg = s.cfg := by
  obtain ⟨_, _, e, -⟩ := takenState_frame s
  rw [e]; rfl

@[simp] theorem takenState_txLast (s : State) : (takenState s).txLast = s.txLast := by
  obtain ⟨_, _, e, -⟩ := takenState_frame s
  rw [e]; rfl

@[simp] theorem takenState_sch (s : State) : (takenState s).sch = { s.sch with wheel := wheelAfter s } := by
  obtain ⟨_, _, e, -⟩ := takenState_frame s
  rw [e]; rfl

/-- Phase USB_SEND attempts a send from the state after its take once one is needed and the interval has passed (R172). -/
theorem phUsbSend_of_needed (need : needSend s.cfg (takenState s).sch now = true)
    (interval : minInterval s.cfg (takeMotion s).2 ≤ elapsed now s.sch.lastSend) :
    phUsbSend now tr s = attemptSend now tr (takenState s) := by
  unfold phUsbSend
  simp only [setWheel_takeMotion, takenState_cfg, need, Bool.true_and]
  exact if_pos (decide_eq_true (by simpa using interval))

/-- A due keepalive is a need, and no interval that is no longer holds the send back (R174). -/
theorem phUsbSend_of_keepalive (due : s.cfg.timing.keepalive ≤ elapsed now s.sch.lastSend)
    (intervals : ∀ v, minInterval s.cfg v ≤ s.cfg.timing.keepalive) :
    phUsbSend now tr s = attemptSend now tr (takenState s) :=
  phUsbSend_of_needed (needSend_of_keepalive (by simpa using due)) ((intervals _).trans due)

/-- Past the floor an attempted send offers the report, and the time of the last send moves exactly when the transport
accepts it (R172, R176). -/
theorem attemptSend_past_floor (hw : s.buf.out.wf = true) (floor : s.cfg.timing.txFloor ≤ elapsed now s.txLast) :
    ∃ t, attemptSend now tr s = .next t ∧ .txReq (outReport s) ∈ newOutputs s t ∧
      t.sch.lastSend = if tr = 0#2 then now else s.sch.lastSend := by
  rw [← outBytes_composed hw]
  simp only [← answerOf_eq_success_iff]
  obtain ⟨below, -⟩ | ⟨-, answer, e⟩ | ⟨-, answer, e⟩ | ⟨-, answer, e⟩ := attemptSend_cases now tr s
  · exact absurd floor (Nat.not_le_of_lt below)
  all_goals exact ⟨_, e, by simp [newOutputs], by rw [answer]; rfl⟩

end Keepalive

/-- Settles O45: the due keepalive makes the phase attempt a send, and the floor, having passed, lets it offer the report. -/
theorem keepaliveSends : Obligations.KeepaliveSends := by
  intro s now tr hctx hok due floor fast mid slow
  have may : mayIssue s.cfg s.ctx (.phUsbSend now tr) = true := decide_eq_true hctx
  have attempted : exec (.phUsbSend now tr) s = attemptSend now tr (takenState s) :=
    (issued_of_may may).trans (phUsbSend_of_keepalive due (minInterval_le fast mid slow))
  obtain ⟨t, sent, offered, time⟩ := attemptSend_past_floor (s := takenState s) (now := now) (tr := tr)
    (by rw [takenState_buf]; exact hok.canonical .out) (by rwa [takenState_cfg, takenState_txLast])
  rw [outReport_takenState, newOutputs, takenState_log] at offered
  rw [takenState_sch] at time
  exact ⟨t, attempted.trans sent, offered, time⟩

end Sys2Proof.Machine

/-! ## Words and operations (30_encoding.md R70 to R73)

The encoder's fields are read back one by one (`Laws.DecodeEncode`). The other way round, the fields that the decoder reads
from a word stand side by side in it and the bits between and above them are 0, so put together again they are the word
(`append_fields`, `wordOf_fields`). -/

namespace Sys2Proof

/-- Settles O1: the encoder's word is decoded field by field, constructor by constructor. -/
theorem decodeOfEncode : Obligations.DecodeOfEncode := by
  intro i
  cases i with
  | nop => exact Laws.DecodeEncode.nop
  | qsTick cnt => exact Laws.DecodeEncode.qsTick cnt
  | accAdd d => exact Laws.DecodeEncode.accAdd d
  | accTake => exact Laws.DecodeEncode.accTake
  | accFlush => exact Laws.DecodeEncode.accFlush
  | kmScan now keys => exact Laws.DecodeEncode.kmScan now keys
  | rmRead now rotN => exact Laws.DecodeEncode.rmRead now rotN
  | rxChunk c => exact Laws.DecodeEncode.rxChunk c
  | schStep now keys rotN tr => exact Laws.DecodeEncode.schStep now keys rotN tr
  | txSend now tr => exact Laws.DecodeEncode.txSend now tr
  | reservedA => exact Laws.DecodeEncode.reservedA
  | reservedB => exact Laws.DecodeEncode.reservedB
  | reservedC => exact Laws.DecodeEncode.reservedC
  | reservedD => exact Laws.DecodeEncode.reservedD
  | reservedE => exact Laws.DecodeEncode.reservedE
  | reservedF => exact Laws.DecodeEncode.reservedF
  | phEncoder => exact Laws.DecodeEncode.phEncoder
  | phButtons now keys => exact Laws.DecodeEncode.phButtons now keys
  | phRotary now rotN => exact Laws.DecodeEncode.phRotary now rotN
  | phUsbSend now tr => exact Laws.DecodeEncode.phUsbSend now tr
  | rxcSync tail => exact Laws.DecodeEncode.rxcSync tail
  | rxcData c => exact Laws.DecodeEncode.rxcData c

section Words
variable {f : Format} {w : IssueWord} {i j : Instr} {unused : List (Nat × Nat)}

/-- Two fields side by side are one field. -/
theorem append_fields {k : Nat} {x : BitVec k} {lo hi n m : Nat} (h : hi = lo + n) :
    x.extractLsb' hi m ++ x.extractLsb' lo n = x.extractLsb' lo (m + n) := by
  subst h
  exact BitVec.extractLsb'_append_extractLsb'_eq_extractLsb' rfl

/-- A word whose bits above a field at its low end are 0 is the word of that field. -/
theorem wordOf_fields {n m : Nat} (h : n + m = 64) (rest : w.extractLsb' n m = 0#m) : wordOf (w.extractLsb' 0 n) = w := by
  refine BitVec.eq_of_getLsbD_eq fun k hk => ?_
  rw [wordOf, BitVec.getLsbD_setWidth, BitVec.getLsbD_extractLsb', Nat.zero_add, decide_eq_true hk, Bool.true_and]
  by_cases hn : k < n
  · rw [decide_eq_true hn, Bool.true_and]
  · have bit := congrArg (BitVec.getLsbD · (k - n)) rest
    simp only [BitVec.getLsbD_extractLsb', BitVec.getLsbD_zero, Nat.add_sub_of_le (Nat.le_of_not_lt hn)] at bit
    rw [decide_eq_false hn, Bool.false_and]
    simpa [show k - n < m by omega] using bit.symm

/-- What the check for stray bits lets through. -/
theorem within_eq_ok (h : within f unused w j = .ok i) : j = i ∧ ∀ u ∈ unused, w.extractLsb' u.1 u.2 = 0#u.2 := by
  unfold within at h
  split at h
  · next clear => exact ⟨Except.ok.inj h, by simpa using clear⟩
  · cases h

/-- The code read from the low bits of a word. -/
theorem field_eq_of_toNat {lo n v : Nat} (h : (w.extractLsb' lo n).toNat = v) : w.extractLsb' lo n = BitVec.ofNat n v := by
  rw [← h, BitVec.ofNat_toNat, BitVec.setWidth_eq]

/-- What a decoded arm reads is the operation of the word, when its fields with the gaps between them are the low end of the
word. -/
theorem encode_of_within {n m : Nat} (h : within f unused w j = .ok i) (hw : n + m = 64) (top : (n, m) ∈ unused)
    (fields : (∀ u ∈ unused, w.extractLsb' u.1 u.2 = 0#u.2) → encode j = (f, wordOf (w.extractLsb' 0 n)))
    (hj : j.wf = true) : encode i = (f, w) ∧ i.wf = true := by
  obtain ⟨rfl, clear⟩ := within_eq_ok h
  rw [fields clear, wordOf_fields hw (clear _ top)]
  exact ⟨rfl, hj⟩

theorem encode_of_decodeOp4 (h : decodeOp4 w = .ok i) : encode i = (.op4, w) ∧ i.wf = true := by
  unfold decodeOp4 at h
  split at h
  case h_9 code =>
    refine encode_of_within h rfl (List.mem_cons_of_mem _ List.mem_cons_self) (fun clear => ?_) rfl
    have gap := clear _ List.mem_cons_self
    simp (disch := decide) only [encode, ← field_eq_of_toNat code, ← gap, fieldWord, fieldKeys, fieldStepRot, fieldStepTr,
      append_fields]
  case h_16 =>
    have code : (w.extractLsb' 0 4).toNat = 15 := by
      have below : (w.extractLsb' 0 4).toNat < 16 := BitVec.isLt _
      generalize (w.extractLsb' 0 4).toNat = x at *
      simp only [imp_false] at *
      omega
    exact encode_of_within h rfl List.mem_cons_self (fun _ => by rw [encode, ← field_eq_of_toNat code]) rfl
  all_goals
    rename_i code
    exact encode_of_within h rfl List.mem_cons_self (fun _ => by
      simp (disch := decide) only [encode, ← field_eq_of_toNat code, fieldCnt, fieldWord, fieldChunk, fieldKeys, fieldRot,
        fieldTr, append_fields]) rfl

theorem encode_of_decodePhase2 (h : decodePhase2 w = .ok i) : encode i = (.phase2, w) ∧ i.wf = true := by
  unfold decodePhase2 at h
  split at h
  case h_1 code =>
    exact encode_of_within h rfl List.mem_cons_self (fun _ => by rw [encode, ← field_eq_of_toNat code]) rfl
  case h_4 =>
    have code : (w.extractLsb' 0 2).toNat = 3 := by
      have below : (w.extractLsb' 0 2).toNat < 4 := BitVec.isLt _
      generalize (w.extractLsb' 0 2).toNat = x at *
      simp only [imp_false] at *
      omega
    refine encode_of_within h rfl (List.mem_cons_of_mem _ List.mem_cons_self) (fun clear => ?_) rfl
    have gap := clear _ List.mem_cons_self
    simp (disch := decide) only [encode, ← field_eq_of_toNat code, ← gap, fieldWord, fieldTr, append_fields]
  all_goals
    rename_i code
    refine encode_of_within h rfl (List.mem_cons_of_mem _ List.mem_cons_self) (fun clear => ?_) rfl
    have gap := clear _ List.mem_cons_self
    simp (disch := decide) only [encode, ← field_eq_of_toNat code, ← gap, fieldWord, fieldKeys, fieldRot, append_fields]

/-- A chunk that begins with the marker is the marker chunk of its tail (R73). -/
theorem markerChunk_tail {c : Chunk} (h : Chunk.head16 c = magic) : Machine.markerChunk (c.extractLsb' 16 40) = c := by
  rw [Machine.markerChunk, ← h]
  exact (append_fields (lo := 0) (n := 16) rfl).trans (extractLsb'_all c)

/-- A chunk is the one its kind stands for (R73). -/
theorem encode_chunkInstr (c : Chunk) : encode (chunkInstr c) = (.chunk56, wordOf c) ∧ (chunkInstr c).wf = true := by
  unfold chunkInstr
  split
  · next marker => exact ⟨congrArg (fun c => (Format.chunk56, wordOf c)) (markerChunk_tail marker), rfl⟩
  · next data => exact ⟨rfl, decide_eq_true data⟩

theorem encode_of_decodeChunk56 (h : decodeChunk56 w = .ok i) : encode i = (.chunk56, w) ∧ i.wf = true := by
  obtain ⟨enc, hwf⟩ := encode_chunkInstr (w.extractLsb' 0 56)
  exact encode_of_within h rfl List.mem_cons_self (fun _ => enc) hwf

end Words

/-- Settles O2: in each format the decoded fields and the cleared bits are the whole word. -/
theorem encodeOfDecode : Obligations.EncodeOfDecode := by
  intro f w i h
  cases f with
  | op4 => exact encode_of_decodeOp4 h
  | phase2 => exact encode_of_decodePhase2 h
  | chunk56 => exact encode_of_decodeChunk56 h

/-- Settles O3: each word is evaluated by the decoder. -/
theorem specWordsDecode : Obligations.SpecWordsDecode :=
  ⟨rfl, rfl, rfl, rfl, rfl, rfl, rfl, rfl, rfl, rfl, rfl, rfl, rfl, rfl⟩

end Sys2Proof

namespace Sys2Proof.Machine

/-- Settles O5: the decoder and the reassembler make the same marker test, and a chunk is issued as its kind is. -/
theorem rxChunkRunsDecodedChunk : Obligations.RxChunkRunsDecodedChunk := by
  intro s c i h
  rw [decode_chunk56] at h
  cases h
  unfold chunkInstr
  split
  · next marker =>
    change issued (.rxChunk c) s (rxChunk c s) = issued (.rxChunk c) s (syncChunk (markerChunk (c.extractLsb' 16 40)) s)
    rw [markerChunk_tail marker, rxChunk_of_marker marker]
  · next data =>
    change issued (.rxChunk c) s (rxChunk c s) = issued (.rxChunk c) s (dataChunk c s)
    rw [rxChunk, if_neg (mt isMarker_iff.1 data)]

end Sys2Proof.Machine

/-! ## The invariant (10_state.md, 20_memory.md, 43_reassembler.md, 44_scheduler.md)

One rule per field says what an update of that field needs to keep `State.Inv`; the fields the invariant does not speak of
need nothing. Each operation's updates are then gone through by these rules, operation by operation, and `exec_cases` puts
them together. -/

namespace Sys2Proof.Machine

section Updates
variable {s : State}

theorem State.Inv.withCtx (h : s.Inv) (v : Context) : (s.withCtx v).Inv :=
  ⟨h.cfg, h.sampler, h.keys, h.rotary, h.reassembler, h.buffers, h.shared, h.scheduler⟩

theorem State.Inv.withInputs (h : s.Inv) (v : List Input) : (s.withInputs v).Inv :=
  ⟨h.cfg, h.sampler, h.keys, h.rotary, h.reassembler, h.buffers, h.shared, h.scheduler⟩

theorem State.Inv.withAcc (h : s.Inv) (v : I32) : (s.withAcc v).Inv :=
  ⟨h.cfg, h.sampler, h.keys, h.rotary, h.reassembler, h.buffers, h.shared, h.scheduler⟩

theorem State.Inv.withTxLast (h : s.Inv) (v : U32) : (s.withTxLast v).Inv :=
  ⟨h.cfg, h.sampler, h.keys, h.rotary, h.reassembler, h.buffers, h.shared, h.scheduler⟩

theorem State.Inv.withLog (h : s.Inv) (v : List Emission) : (s.withLog v).Inv :=
  ⟨h.cfg, h.sampler, h.keys, h.rotary, h.reassembler, h.buffers, h.shared, h.scheduler⟩

theorem State.Inv.withRet (h : s.Inv) (v : Returned) : (s.withRet v).Inv :=
  ⟨h.cfg, h.sampler, h.keys, h.rotary, h.reassembler, h.buffers, h.shared, h.scheduler⟩

theorem State.Inv.withQs (h : s.Inv) {v : Sampler} (hv : v.Ok) : (s.withQs v).Inv :=
  ⟨h.cfg, hv, h.keys, h.rotary, h.reassembler, h.buffers, h.shared, h.scheduler⟩

theorem State.Inv.withKm (h : s.Inv) {v : KeyScanner} (hv : v.Ok s.cfg) : (s.withKm v).Inv :=
  ⟨h.cfg, h.sampler, hv, h.rotary, h.reassembler, h.buffers, h.shared, h.scheduler⟩

theorem State.Inv.withRm (h : s.Inv) {v : Rotary} (hv : v.Ok s.cfg) : (s.withRm v).Inv :=
  ⟨h.cfg, h.sampler, h.keys, hv, h.reassembler, h.buffers, h.shared, h.scheduler⟩

theorem State.Inv.withRx (h : s.Inv) {v : Reassembler} (hv : v.Ok s.cfg) : (s.withRx v).Inv :=
  ⟨h.cfg, h.sampler, h.keys, h.rotary, hv, h.buffers, h.shared, h.scheduler⟩

theorem State.Inv.withSch (h : s.Inv) {v : Scheduler} (hv : v.Ok s.cfg) : (s.withSch v).Inv :=
  ⟨h.cfg, h.sampler, h.keys, h.rotary, h.reassembler, h.buffers, h.shared, hv⟩

theorem State.Inv.withBuf (h : s.Inv) {v : Buffers} (hv : v.Ok s.cfg) (hshr : v.shr = s.buf.shr) : (s.withBuf v).Inv :=
  ⟨h.cfg, h.sampler, h.keys, h.rotary, h.reassembler, hv, hshr.symm ▸ h.shared, h.scheduler⟩

/-- Replacing the bytes of the shared report and what accompanies them (20_memory.md R51). -/
theorem State.Inv.withShr (h : s.Inv) {v : SharedReport} {b : Buffers} (hb : b.Ok s.cfg) (hv : v.Ok s.cfg b.shr) :
    ((s.withBuf b).withShr v).Inv :=
  ⟨h.cfg, h.sampler, h.keys, h.rotary, h.reassembler, hb, hv, h.scheduler⟩

/-- Bytes stored inside a buffer leave the buffers canonical and inside their bounds (R50). -/
theorem Buffers.Ok.setBytes {cfg : Config} {b : Buffers} (h : b.Ok cfg) (sp : Space) {a : Nat} {bs : List Byte}
    (inside : a + bs.length ≤ sp.size cfg) : (b.set sp ((b.get sp).setBytes a bs)).Ok cfg := by
  refine ⟨fun sp' => ?_, fun sp' => ?_⟩
  · by_cases e : sp = sp'
    · subst e; rw [Buffers.get_set_same]; exact Memory.wf_setBytes a bs (h.canonical sp)
    · rw [Buffers.get_set_other b _ e]; exact h.canonical sp'
  · by_cases e : sp = sp'
    · subst e; rw [Buffers.get_set_same]; exact Memory.below_setBytes bs (h.inside sp) inside
    · rw [Buffers.get_set_other b _ e]; exact h.inside sp'

end Updates

section Config
variable {cfg : Config}

theorem Config.keysOk_of_wf (h : cfg.wf = true) : cfg.keysOk = true := by
  simp only [Config.wf, Bool.and_eq_true] at h
  obtain ⟨⟨⟨keys, -⟩, -⟩, -⟩ := h
  exact keys

theorem Config.reportLen_le (h : cfg.wf = true) : chunkLen ≤ cfg.reportLen ∧ cfg.reportLen ≤ scratchLen := by
  simp only [Config.wf, Bool.and_eq_true] at h
  obtain ⟨⟨-, len⟩, -⟩ := h
  exact of_decide_eq_true len

theorem Config.reportLen_pos (h : cfg.wf = true) : 0 < cfg.reportLen :=
  Nat.lt_of_lt_of_le (by decide) (Config.reportLen_le h).1

/-- A chunk at a chunk's start inside the report fits into the scratch buffer (43_reassembler.md R153). -/
theorem chunk_fits (h : cfg.wf = true) {offset : Nat} (aligned : chunkLen ∣ offset) (unfinished : offset < cfg.reportLen) :
    offset + chunkLen ≤ scratchLen := by
  obtain ⟨-, fits⟩ := Config.reportLen_le h
  obtain ⟨k, rfl⟩ := aligned
  simp only [chunkLen, scratchLen] at *
  omega

/-- The day key is a byte of the report (30_encoding.md R74). -/
theorem Config.dayKey_inside (h : cfg.wf = true) : cfg.layout.dayKey.val < cfg.reportLen := by
  simp only [Config.wf, Config.layoutOk, Bool.and_eq_true, List.all_eq_true] at h
  obtain ⟨-, -, bytes⟩ := h
  exact of_decide_eq_true (bytes _ (by simp))

end Config

section Operations
variable {s t : State} {now : U32} {tr : BitVec 2} {c : Chunk}

theorem State.Inv.accTake (h : s.Inv) : (accTake s).1.Inv := (h.withAcc 0#32).withQs h.sampler

theorem State.Inv.accFlush (h : s.Inv) : (accFlush s).Inv := (h.withAcc 0#32).withQs (accFlush_ok s)

theorem State.Inv.qsTick (h : s.Inv) (cnt : U16) : (qsTick cnt s).Inv := by
  rw [qsTick_frame]
  exact (h.withQs (qsTick_ok cnt s)).withAcc _

/-- A key scan replaces the scanner by one that meets the invariant, and adds outputs. -/
theorem State.Inv.kmScan_frame (h : s.Inv) (now : U32) (keys : BitVec 16) :
    ∃ km log, (kmScan now keys s).1 = (s.withKm km).withLog log ∧ km.Ok s.cfg :=
  ⟨_, _, rfl, scanKeys_ok (rawScan_ok (Config.keysOk_of_wf h.cfg) keys) h.keys⟩

theorem State.Inv.kmScan (h : s.Inv) (now : U32) (keys : BitVec 16) : (kmScan now keys s).1.Inv := by
  obtain ⟨km, log, e, ok⟩ := h.kmScan_frame now keys
  rw [e]
  exact (h.withKm ok).withLog log

/-- A rotary read replaces the latch by one that meets the invariant, and adds outputs. -/
theorem State.Inv.rmRead_frame (h : s.Inv) (now : U32) (rotN : BitVec 6) :
    ∃ rm log, (rmRead now rotN s).1 = (s.withRm rm).withLog log ∧ rm.Ok s.cfg :=
  ⟨_, _, rfl, latch_ok (rotDecode_isMode s.cfg rotN) h.rotary⟩

theorem State.Inv.rmRead (h : s.Inv) (now : U32) (rotN : BitVec 6) : (rmRead now rotN s).1.Inv := by
  obtain ⟨rm, log, e, ok⟩ := h.rmRead_frame now rotN
  rw [e]
  exact (h.withRm ok).withLog log

theorem State.Inv.txSend (h : s.Inv) {r : State × SendResult} (ran : txSend now tr s = .next r) : r.1.Inv := by
  rw [txSend_frame ran]
  exact (h.withTxLast _).withLog _

/-! ### Chunks -/

/-- A completed report keeps the invariant, from a reassembler whose offset may have passed the report's length (R154). -/
theorem State.Inv.completed (h : s.Inv) {rx : Reassembler} (inBuffer : rx.offset ≤ scratchLen)
    (aligned : chunkLen ∣ rx.offset) : (completed (s.withRx rx)).Inv := by
  have bytes_ok := h.buffers.setBytes .shr (a := 0) (bs := s.buf.scr.getBytes 0 s.cfg.reportLen) (by simp [Space.size])
  have day : (Machine.completed s).byteAt .shr s.cfg.layout.dayKey.val = s.byteAt .scr s.cfg.layout.dayKey.val :=
    completed_bytes (h.buffers.canonical .shr) (Config.dayKey_inside h.cfg)
  have published := h.withShr (v := { valid := true, dayKey := s.byteAt .scr s.cfg.layout.dayKey.val }) bytes_ok
    ⟨(nomatch ·), day.symm⟩
  exact (published.withRx (v := { rx with syncFound := false }) ⟨inBuffer, aligned, (nomatch ·)⟩).withLog _

/-- Storing a chunk of an unfinished report keeps the invariant, from a reassembler that need not have stored any chunk of it
(R151, R152, R154). -/
theorem State.Inv.storeChunk (h : s.Inv) {rx : Reassembler} (aligned : chunkLen ∣ rx.offset)
    (unfinished : rx.offset < s.cfg.reportLen) (ran : storeChunk c (s.withRx rx) = .next t) : t.Inv := by
  have aligned' : chunkLen ∣ rx.offset + chunkLen := aligned.add (dvd_refl _)
  have room := chunk_fits h.cfg aligned unfinished
  have bytes := h.withBuf (h.buffers.setBytes .scr (bs := chunkBytes c) room) rfl
  obtain ⟨full, -⟩ | ⟨-, reached, e⟩ | ⟨-, short, e⟩ := storeChunk_cases c (s.withRx rx)
  · exact absurd room (Nat.not_le_of_lt full)
  · cases e.symm.trans ran
    exact bytes.completed (rx := { rx with offset := rx.offset + chunkLen }) room aligned'
  · cases e.symm.trans ran
    exact bytes.withRx ⟨room, aligned', fun _ => ⟨Nat.le_add_left _ _, short⟩⟩

theorem State.Inv.chunk (h : s.Inv) (ran : ChunkRan s t) : t.Inv := by
  obtain ⟨c, ran | ran⟩ := ran
  · rw [syncChunk_eq] at ran
    exact (h.withLog _).storeChunk (dvd_zero _) (Config.reportLen_pos h.cfg) ran
  · unfold dataChunk at ran
    split at ran
    · next synced => exact h.storeChunk h.reassembler.wholeChunks (h.reassembler.partialReport synced).2 ran
    · cases ran; exact h.withLog _

/-! ### Phases -/

/-- The scheduler's registers after a scan at `now` whose events are `ev` (R167). -/
def noteScan (sch : Scheduler) (ev : KeyPair) (now : U32) : Scheduler :=
  { sch with
    btn1 := ev.first, btn2 := ev.second, buttonChanged := buttonChangedBy sch ev.first ev.second, lastScan := now }

theorem wheel_zero_bounds : -127 ≤ (0#8 : I8).toInt ∧ (0#8 : I8).toInt ≤ 127 := by decide

/-- The invariant speaks of four of the scheduler's registers. -/
theorem Scheduler.Ok.congr {cfg : Config} {sch sch' : Scheduler} (h : sch.Ok cfg) (wheel : sch'.wheel = sch.wheel)
    (sentWheel : sch'.sentWheel = sch.sentWheel) (sentMode : sch'.sentMode = sch.sentMode)
    (flush : sch'.flushPending = sch.flushPending) : sch'.Ok cfg :=
  ⟨wheel ▸ h.wheel, sentWheel ▸ h.sentWheel, sentMode ▸ h.sentMode, wheel ▸ flush ▸ h.flushHoldsWheel⟩

@[simp] theorem kmScan_sch (now : U32) (keys : BitVec 16) (s : State) : (kmScan now keys s).1.sch = s.sch := by
  obtain ⟨_, _, e⟩ := kmScan_frame now keys s
  rw [e]; rfl

@[simp] theorem rmRead_sch (now : U32) (rotN : BitVec 6) (s : State) : (rmRead now rotN s).1.sch = s.sch := by
  obtain ⟨_, _, e⟩ := rmRead_frame now rotN s
  rw [e]; rfl

/-- Everything phase BUTTONS can do (R167): nothing before its interval, and else a scan, whose events it notes. -/
theorem phButtons_cases (now : U32) (keys : BitVec 16) (s : State) :
    (elapsed now s.sch.lastScan < s.cfg.timing.scanInterval ∧ phButtons now keys s = s) ∨
    (s.cfg.timing.scanInterval ≤ elapsed now s.sch.lastScan ∧
      phButtons now keys s = (kmScan now keys s).1.withSch (noteScan s.sch (kmScan now keys s).2 now)) := by
  unfold phButtons
  dsimp only
  split
  · next h => rw [kmScan_sch]; exact .inr ⟨h, rfl⟩
  · next h => exact .inl ⟨Nat.lt_of_not_le h, rfl⟩

/-- Everything phase ROTARY can do (R168): nothing before its poll, and else a read, whose accepted change it marks and
notifies. -/
theorem phRotary_cases (now : U32) (rotN : BitVec 6) (s : State) :
    (elapsed now s.sch.lastRot < s.cfg.timing.rotPoll ∧ phRotary now rotN s = s) ∨
    (s.cfg.timing.rotPoll ≤ elapsed now s.sch.lastRot ∧
      ((rmRead now rotN s).2 = true ∧ phRotary now rotN s = emit (.notifyMode (rmRead now rotN s).1.rm.stable)
        ((rmRead now rotN s).1.withSch (markModeChange { s.sch with lastRot := now })) ∨
      (rmRead now rotN s).2 = false ∧ phRotary now rotN s = (rmRead now rotN s).1.withSch { s.sch with lastRot := now })) := by
  unfold phRotary
  dsimp only
  rw [rmRead_sch]
  split
  · next h =>
    split
    · next changed => exact .inr ⟨h, .inl ⟨changed, rfl⟩⟩
    · next same => exact .inr ⟨h, .inr ⟨Bool.eq_false_of_not_eq_true same, rfl⟩⟩
  · next h => exact .inl ⟨Nat.lt_of_not_le h, rfl⟩

theorem State.Inv.phEncoder (h : s.Inv) : (phEncoder s).Inv := by
  unfold Machine.phEncoder
  split
  · exact h.accFlush.withSch ⟨h.scheduler.wheel, h.scheduler.sentWheel, h.scheduler.sentMode, (nomatch ·)⟩
  · exact h

theorem State.Inv.phButtons (h : s.Inv) (now : U32) (keys : BitVec 16) : (phButtons now keys s).Inv := by
  obtain ⟨-, e⟩ | ⟨-, e⟩ := phButtons_cases now keys s <;> rw [e]
  · exact h
  · obtain ⟨km, log, e, ok⟩ := h.kmScan_frame now keys
    rw [e]
    exact ((h.withKm ok).withLog log).withSch (v := noteScan s.sch _ now) (h.scheduler.congr rfl rfl rfl rfl)

theorem State.Inv.phRotary (h : s.Inv) (now : U32) (rotN : BitVec 6) : (phRotary now rotN s).Inv := by
  obtain ⟨rm, log, read, ok⟩ := h.rmRead_frame now rotN
  have kept := (h.withRm ok).withLog log
  obtain ⟨-, e⟩ | ⟨-, ⟨-, e⟩ | ⟨-, e⟩⟩ := phRotary_cases now rotN s <;> rw [e]
  · exact h
  · rw [read]
    exact (kept.withSch (v := markModeChange { s.sch with lastRot := now })
      ⟨wheel_zero_bounds, h.scheduler.sentWheel, h.scheduler.sentMode, fun _ => rfl⟩).withLog _
  · rw [read]
    exact kept.withSch (v := { s.sch with lastRot := now }) (h.scheduler.congr rfl rfl rfl rfl)

/-- The wheel that a take leaves pending is the one before it or a speed code (R172, R173). -/
theorem wheelAfter_cases (s : State) :
    wheelAfter s = s.sch.wheel ∨ s.sch.flushPending = false ∧ wheelAfter s = speedMap s.cfg.speed s.acc := by
  unfold wheelAfter motionTaken
  cases hf : s.sch.flushPending
  · by_cases ha : s.acc = 0#32
    · exact .inl (by simp [ha])
    · exact .inr (by simp [ha])
  · exact .inl (by simp)

theorem State.Inv.takenState (h : s.Inv) : (takenState s).Inv := by
  have sch_ok : Scheduler.Ok s.cfg { s.sch with wheel := wheelAfter s } := by
    obtain e | ⟨noFlush, e⟩ := wheelAfter_cases s <;> rw [e]
    · exact h.scheduler
    · exact ⟨speedMap_bounds _ _, h.scheduler.sentWheel, h.scheduler.sentMode, fun hf => absurd (noFlush.symm.trans hf) nofun⟩
  have taken := h.accTake.withSch sch_ok
  unfold Machine.takenState
  split
  · exact h
  · exact taken

theorem State.Inv.composed (h : s.Inv) : (composed s).Inv :=
  h.withBuf (h.buffers.setBytes .out (by simp [length_outReport, Space.size])) rfl

theorem Scheduler.Ok.noteSent {cfg : Config} {sch : Scheduler} {mode : Byte} (h : sch.Ok cfg) (hm : isMode cfg mode) :
    (noteSent sch mode now).Ok cfg :=
  ⟨wheel_zero_bounds, h.wheel, hm, fun _ => rfl⟩

theorem State.Inv.attemptSend (h : s.Inv) (ran : attemptSend now tr s = .next t) : t.Inv := by
  obtain ⟨-, e⟩ | ⟨-, -, e⟩ | ⟨-, -, e⟩ | ⟨-, -, e⟩ := attemptSend_cases now tr s <;> cases e.symm.trans ran
  · exact h.composed.withLog _
  · exact ((h.composed.withLog _).withTxLast now).withSch (h.scheduler.noteSent h.rotary.mode)
  · exact (h.composed.withLog _).withLog _
  · exact (h.composed.withLog _).withLog _

theorem State.Inv.phUsbSend (h : s.Inv) (ran : phUsbSend now tr s = .next t) : t.Inv := by
  obtain rfl | ran := phUsbSend_from_takenState ran
  · exact h.takenState
  · exact h.takenState.attemptSend ran

theorem State.Inv.advancePhase (h : s.Inv) : (advancePhase s).Inv :=
  h.withSch (h.scheduler.congr rfl rfl rfl rfl)

end Operations

/-! ### Steps and reset -/

section Exec
variable {i : Instr} {s t u : State} {p : BitVec 2}

theorem DirectRan.inv (h : DirectRan s i t) (hs : s.Inv) : t.Inv := by
  cases h with
  | nop => exact hs
  | qsTick cnt => exact hs.qsTick cnt
  | accAdd d => exact hs.withAcc _
  | accTake => exact hs.accTake.withRet _
  | accFlush => exact hs.accFlush
  | kmScan now keys => exact (hs.kmScan now keys).withRet _
  | rmRead now rotN => exact (hs.rmRead now rotN).withRet _
  | txSend sent => exact (hs.txSend sent).withRet _
  | chunk _ ran => exact hs.chunk ran

theorem BodyRan.inv (h : BodyRan s p u) (hs : s.Inv) : u.Inv := by
  cases h with
  | encoder => exact hs.phEncoder
  | buttons now keys => exact hs.phButtons now keys
  | rotary now rotN => exact hs.phRotary now rotN
  | usbSend sent => exact hs.phUsbSend sent

/-- Every operation keeps the invariant. -/
theorem State.Inv.exec (hs : s.Inv) (h : exec i s = .next t) : t.Inv := by
  obtain ⟨-, hd⟩ | ⟨p, u, -, hb, rfl | rfl⟩ := exec_cases h
  · exact hd.inv hs
  · exact hb.inv hs
  · exact (hb.inv hs).advancePhase

/-- Everything a step can do: nothing, an operation run in the context that issued it, or a sample of the ports. -/
theorem step_cases (h : step s = .next t) :
    (s.inputs = [] ∧ t = s) ∨
    (∃ c w i rest u, s.inputs = .issue c w :: rest ∧ decode .op4 w = .ok i ∧
      exec i (enterContext c (s.withInputs rest)) = .next u ∧ t = leaveContext u) ∨
    (∃ p rest, s.inputs = .ports p :: rest ∧ t = samplePorts p (s.withInputs rest)) := by
  unfold step at h
  split at h
  · next none => cases h; exact .inl ⟨none, rfl⟩
  · next c w rest oldest =>
    unfold runIssued at h
    split at h
    · next i decoded =>
      obtain ⟨u, ran, ⟨⟩⟩ := chain_eq_next.1 h
      exact .inr (.inl ⟨c, w, i, rest, u, oldest, decoded, ran, rfl⟩)
    · cases h
  · next p rest oldest => cases h; exact .inr (.inr ⟨p, rest, oldest, rfl⟩)

/-- The state after reset meets the invariant: every register is at rest and no byte is listed (R48, R52). -/
theorem State.inv_resetOf {cfg : Config} (h : cfg.wf = true) (cnt : U16) : (State.resetOf cfg cnt).Inv where
  cfg := h
  sampler := (by decide : -3 ≤ (0#32 : I32).toInt ∧ (0#32 : I32).toInt ≤ 3)
  keys := by
    have empty : KeyPair.Ok cfg {} := ⟨.inl rfl, .inl rfl, fun _ => rfl, fun _ => rfl⟩
    have free : HoldSlot.Ok cfg {} {} := ⟨fun _ => rfl, fun hne => absurd rfl hne⟩
    exact ⟨empty, empty, free, free, fun _ => rfl⟩
  rotary := ⟨.inl rfl, (nomatch ·)⟩
  reassembler := ⟨Nat.zero_le _, dvd_zero _, (nomatch ·)⟩
  buffers := ⟨fun sp => by cases sp <;> rfl, fun sp => by cases sp <;> rfl⟩
  shared := ⟨fun _ => ⟨rfl, rfl⟩, rfl⟩
  scheduler := ⟨wheel_zero_bounds, wheel_zero_bounds, .inl rfl, fun _ => rfl⟩

theorem State.Inv.samplePorts (h : s.Inv) (p : Ports) : (samplePorts p s).Inv := by
  unfold Machine.samplePorts
  split
  · exact ((State.inv_resetOf h.cfg p.cnt).withInputs _).withLog _
  · exact h.withInputs _

end Exec

/-- Settles O55: an issued operation keeps the invariant whoever issues it, and a sample of the ports resets or queues. -/
theorem stepKeepsTheInvariant : Obligations.StepKeepsTheInvariant := by
  intro s t hs h
  obtain ⟨-, rfl⟩ | ⟨c, w, i, rest, u, -, -, ran, rfl⟩ | ⟨p, rest, -, rfl⟩ := step_cases h
  · exact hs
  · exact (((hs.withInputs rest).withCtx c).exec ran).withCtx .main
  · exact (hs.withInputs rest).samplePorts p

/-- Settles O54. -/
theorem resetMeetsTheInvariant : Obligations.ResetMeetsTheInvariant :=
  ⟨fun _ cnt h => State.inv_resetOf h cnt, State.inv_resetOf (by decide) _⟩

/-- Settles O53: reset writes these values out. -/
theorem resetLeavesTheSpecsValues : Obligations.ResetLeavesTheSpecsValues :=
  fun _ _ => ⟨rfl, rfl, rfl, rfl, rfl, rfl, rfl, rfl, fun sp _ => by cases sp <;> rfl, rfl⟩

/-- Settles O6: the decoder reads the operation back from its word. -/
theorem stepRunsIssuedOperation : Obligations.StepRunsIssuedOperation := by
  refine ⟨fun s c i rest op4 hwf oldest => ?_, fun s none => by rw [step, none]⟩
  have decoded : decode .op4 (encode i).2 = .ok i := op4 ▸ decodeOfEncode i hwf
  have ran : step s = chain (exec i { s with inputs := rest, ctx := c }) fun t => .next { t with ctx := .main } := by
    rw [step, oldest]
    change runIssued c (encode i).2 (s.withInputs rest) = _
    rw [runIssued, decoded]
    rfl
  exact ⟨fun t h => by rw [ran, h, chain_next], fun r h => by rw [ran, h]; rfl⟩

/-- Settles O7: what a sample strobes is put before the inputs to come, in the order of R198. -/
theorem portsStrobeInOrder : Obligations.PortsStrobeInOrder := by
  intro s p rest oldest
  have sampled : step s = .next (samplePorts p (s.withInputs rest)) := by rw [step, oldest]
  refine ⟨fun hr => ?_, fun hr => ?_⟩
  · rw [sampled, samplePorts, if_pos hr]
    rfl
  · rw [sampled, samplePorts, if_neg (by simp [hr]), portIssues, List.append_assoc, List.append_assoc]
    rfl

end Sys2Proof.Machine

/-! ## The sampler and the accumulator (40_quadrature.md)

A tick divides residue plus delta by 4 (`qsTick_qs`, `qsTick_acc`), so 4 times the accumulator plus the residue grows by the
delta, modulo 2^32 (`qsTick_conserves`); an add and a take move detents without loss. Conservation over a run is an induction
on its operations. -/

namespace Sys2Proof.Machine

section Tick
variable {s t : State} {cnt : U16}

theorem exec_qsTick (h : s.ctx = .isr) : exec (.qsTick cnt) s = .next (qsTick cnt s) := issued_of_may (decide_eq_true h)

theorem exec_accAdd {d : I32} (h : s.ctx = .isr) : exec (.accAdd d) s = .next (accAdd d s) :=
  issued_of_may (decide_eq_true h)

theorem exec_accTake (h : s.ctx = .main) : exec .accTake s = .next ((accTake s).1.withRet (.taken (accTake s).2)) :=
  issued_of_may (decide_eq_true h)

theorem exec_accFlush (h : s.ctx = .main) : exec .accFlush s = .next (accFlush s) := issued_of_may (decide_eq_true h)

theorem qsTick_qs (cnt : U16) (s : State) : (qsTick cnt s).qs =
    { prev := cnt
      res := BitVec.ofInt 32 (trem (pulseBuffer s.qs cnt) 4)
      dataReady := s.qs.dataReady || decide (tdiv (pulseBuffer s.qs cnt) 4 ≠ 0) } := by
  have fields : (qsTick cnt s).qs = ⟨(qsTick cnt s).qs.prev, (qsTick cnt s).qs.res, (qsTick cnt s).qs.dataReady⟩ := rfl
  rw [fields, qsTick_prev, qsTick_res, qsTick_dataReady, Bool.or_comm]

/-- The remainder has the sign of the dividend, so 4 times the quotient is no longer than it (R14). -/
theorem trem_four_sign (b : Int) : (0 ≤ b ∧ 0 ≤ trem b 4) ∨ (b ≤ 0 ∧ trem b 4 ≤ 0) := by
  rw [trem_eq_tmod]
  obtain h | h := Int.le_total 0 b
  · exact .inl ⟨h, Int.tmod_nonneg 4 h⟩
  · have := Int.tmod_nonneg 4 (Int.neg_nonneg_of_nonpos h)
    rw [Int.neg_tmod] at this
    exact .inr ⟨h, by omega⟩

end Tick

/-- Settles O9: from a residue the pulse buffer does not wrap. -/
theorem qsTickResult : Obligations.QsTickResult := by
  intro s cnt hctx hok
  rw [exec_qsTick hctx, qsTick_frame, qsTick_qs, qsTick_acc, pulseBuffer_of_ok cnt hok, trem_eq_tmod]
  rfl

/-- Settles O10: the divider's quotient and remainder, with the remainder's sign. -/
theorem detentDividerBounds : Obligations.DetentDividerBounds := by
  intro s t cnt hok h
  obtain ⟨-, ⟨⟩⟩ := issued_eq_next.1 h
  have buffer : pulseBuffer s.qs cnt = s.qs.res.toInt + (cnt - s.qs.prev).toInt := pulseBuffer_of_ok cnt hok
  have delta : -32768 ≤ (cnt - s.qs.prev).toInt ∧ (cnt - s.qs.prev).toInt ≤ 32767 := sampleDelta_bounds s.qs.prev cnt
  have parts := tdiv_trem (pulseBuffer s.qs cnt) 4
  have bounds := trem_four_bounds (pulseBuffer s.qs cnt)
  have sign := trem_four_sign (pulseBuffer s.qs cnt)
  have residue : (qsTick cnt s).qs.res.toInt = trem (pulseBuffer s.qs cnt) 4 := by
    rw [qsTick_res, toInt_ofInt32 (by omega) (by omega)]
  obtain ⟨low, high⟩ := hok
  rw [← buffer, residue]
  refine ⟨tdiv (pulseBuffer s.qs cnt) 4, by omega, by omega, parts.symm, bounds.1, bounds.2, ?_, qsTick_acc cnt s⟩
  obtain ⟨hb, hr⟩ | ⟨hb, hr⟩ := sign
  · exact Int.mul_nonneg hr hb
  · exact Int.mul_nonneg_of_nonpos_of_nonpos hr hb

/-- Settles O11. -/
theorem accumulatorInterface : Obligations.AccumulatorInterface :=
  ⟨fun _ _ h => exec_accAdd h, fun _ h => exec_accTake h, fun _ h => exec_accFlush h⟩

section Conservation
variable {s t u : State} {op : MotionOp} {ops : List MotionOp} {v : I32}

/-- What one operation hands to the sum of taken values. -/
def takenBy (op : MotionOp) (t : State) : I32 :=
  match op with
  | .take => takenValue t.ret
  | .add _ => 0#32
  | .tick _ => 0#32

/-- A run is its first operation and the rest of it. -/
theorem takenSum_cons (ran : exec op.issue.2 (enterContext op.issue.1 s) = .next t) (rest : takenSum ops t = .next (u, v)) :
    takenSum (op :: ops) s = .next (u, takenBy op t + v) := by
  rw [takenSum, ran, chain_next, rest, chain_next]
  cases op <;> rfl

/-- A tick neither loses nor makes a pulse, modulo 2^32, in any state (R100, R110). -/
theorem qsTick_conserves (cnt : U16) (s : State) :
    4#32 * (qsTick cnt s).acc + (qsTick cnt s).qs.res =
      4#32 * s.acc + s.qs.res + BitVec.ofInt 32 (cnt - s.qs.prev).toInt := by
  have parts := congrArg (BitVec.ofInt 32) (tdiv_trem (pulseBuffer s.qs cnt) 4)
  have buffer : BitVec.ofInt 32 (pulseBuffer s.qs cnt) = s.qs.res + BitVec.ofInt 32 (cnt - s.qs.prev).toInt := by
    rw [pulseBuffer, sext, BitVec.ofInt_toInt, BitVec.ofInt_add, BitVec.ofInt_toInt, sampleDelta]
  rw [BitVec.ofInt_add, BitVec.ofInt_mul, buffer] at parts
  rw [qsTick_acc, qsTick_res, BitVec.mul_add, BitVec.add_assoc, BitVec.add_assoc, ← parts]
  rfl

end Conservation

/-- Settles O12, by induction on the run: a take moves the accumulator into the taken values, an add adds to both sides. -/
theorem accumulatorConservation : Obligations.AccumulatorConservation := by
  intro s ops noTicks
  induction ops generalizing s with
  | nil => exact ⟨s, 0#32, rfl, by simp [addedSum]⟩
  | cons op ops ih =>
    obtain ⟨noTick, restNoTicks⟩ := List.forall_mem_cons.1 noTicks
    cases op with
    | tick cnt => exact absurd rfl (noTick cnt)
    | add d =>
      obtain ⟨u, v, run, kept⟩ := ih (accAdd d (enterContext .isr s)) restNoTicks
      refine ⟨u, _, takenSum_cons (exec_accAdd rfl) run, ?_⟩
      change 0#32 + v + u.acc = s.acc + (d + addedSum ops)
      rw [BitVec.zero_add, kept, ← BitVec.add_assoc]
      rfl
    | take =>
      obtain ⟨u, v, run, kept⟩ := ih _ restNoTicks
      refine ⟨u, _, takenSum_cons (exec_accTake rfl) run, ?_⟩
      change s.acc + v + u.acc = s.acc + addedSum ops
      rw [BitVec.add_assoc, kept]
      exact congrArg (s.acc + ·) (BitVec.zero_add _)

/-- Settles O13, by induction on the run, with a tick's conservation for the pulses. -/
theorem pulseConservation : Obligations.PulseConservation := by
  intro s ops
  induction ops generalizing s with
  | nil => exact ⟨s, 0#32, rfl, by simp [addedSum, pulseSum]⟩
  | cons op ops ih =>
    cases op with
    | tick cnt =>
      obtain ⟨u, v, run, kept⟩ := ih (qsTick cnt (enterContext .isr s))
      refine ⟨u, _, takenSum_cons (exec_qsTick rfl) run, ?_⟩
      have ticked : 4#32 * (qsTick cnt (enterContext .isr s)).acc + (qsTick cnt (enterContext .isr s)).qs.res =
          4#32 * s.acc + s.qs.res + BitVec.ofInt 32 (cnt - s.qs.prev).toInt := qsTick_conserves cnt (enterContext .isr s)
      change 4#32 * (0#32 + v + u.acc) + u.qs.res =
        4#32 * (s.acc + addedSum ops) + s.qs.res + BitVec.ofInt 32 ((cnt - s.qs.prev).toInt + pulseSum cnt ops)
      rw [BitVec.zero_add, kept, qsTick_prev, BitVec.ofInt_add]
      linear_combination ticked
    | add d =>
      obtain ⟨u, v, run, kept⟩ := ih (accAdd d (enterContext .isr s))
      refine ⟨u, _, takenSum_cons (exec_accAdd rfl) run, ?_⟩
      change 4#32 * (0#32 + v + u.acc) + u.qs.res =
        4#32 * (s.acc + (d + addedSum ops)) + s.qs.res + BitVec.ofInt 32 (pulseSum s.qs.prev ops)
      rw [BitVec.zero_add, kept, ← BitVec.add_assoc s.acc]
      rfl
    | take =>
      obtain ⟨u, v, run, kept⟩ := ih ((accTake (enterContext .main s)).1.withRet (.taken (accTake (enterContext .main s)).2))
      refine ⟨u, _, takenSum_cons (exec_accTake rfl) run, ?_⟩
      change 4#32 * (s.acc + v + u.acc) + u.qs.res =
        4#32 * (s.acc + addedSum ops) + s.qs.res + BitVec.ofInt 32 (pulseSum s.qs.prev ops)
      change 4#32 * (v + u.acc) + u.qs.res =
        4#32 * (0#32 + addedSum ops) + s.qs.res + BitVec.ofInt 32 (pulseSum s.qs.prev ops) at kept
      rw [BitVec.zero_add] at kept
      linear_combination kept

end Sys2Proof.Machine

/-! ## Who may issue what, and totality (60_exceptions.md R195, R205)

An operation completes exactly in the contexts that may issue it; elsewhere it is refused. -/

namespace Sys2Proof.Machine

section Issue
variable {i : Instr} {s t : State}

/-- An operation that completes was issued by a context that may issue it. -/
theorem mayIssue_of_exec (h : exec i s = .next t) : mayIssue s.cfg s.ctx i = true := by
  cases i with
  | nop => rfl
  | reservedA | reservedB | reservedC | reservedD | reservedE | reservedF => cases h
  | _ => exact (issued_eq_next.1 h).1

theorem chain_total {α β : Type} {x : Result α} {f : α → Result β} (hx : ∃ a, x = .next a) (hf : ∀ a, ∃ b, f a = .next b) :
    ∃ b, chain x f = .next b := by
  obtain ⟨a, rfl⟩ := hx
  exact hf a

theorem txSend_next (now : U32) (tr : BitVec 2) (s : State) : ∃ r, txSend now tr s = .next r := by
  obtain ⟨-, e⟩ | ⟨-, -, e⟩ | ⟨-, -, e⟩ | ⟨-, -, e⟩ := txSend_cases now tr s <;> exact ⟨_, e⟩

theorem syncChunk_next (c : Chunk) (s : State) : ∃ t, syncChunk c s = .next t := storeChunk_next c _

theorem dataChunk_next (c : Chunk) (s : State) : ∃ t, dataChunk c s = .next t := by
  unfold dataChunk
  split
  · exact storeChunk_next c s
  · exact ⟨_, rfl⟩

/-- What is issued in its context goes on. -/
theorem issued_next {k : Result State} (may : mayIssue s.cfg s.ctx i = true) (hk : ∃ t, k = .next t) :
    ∃ t, issued i s k = .next t :=
  (issued_of_may may).symm ▸ hk

/-- Every operation completes in a context that may issue it, on every value of its operands (R195). -/
theorem exec_total (may : mayIssue s.cfg s.ctx i = true) : ∃ t, exec i s = .next t := by
  cases i with
  | rxChunk c => exact issued_next may (rxChunk_next c s)
  | rxcSync tail => exact issued_next may (syncChunk_next _ s)
  | rxcData c => exact issued_next may (dataChunk_next c s)
  | schStep now keys rotN tr =>
    exact issued_next may (chain_total (phaseBody_next now keys rotN tr s) fun _ => ⟨_, rfl⟩)
  | txSend now tr => exact issued_next may (chain_total (txSend_next now tr s) fun _ => ⟨_, rfl⟩)
  | phUsbSend now tr => exact issued_next may (phUsbSend_next now tr s)
  | reservedA | reservedB | reservedC | reservedD | reservedE | reservedF => cases may
  | nop | qsTick | accAdd | accTake | accFlush | kmScan | rmRead | phEncoder | phButtons | phRotary =>
    exact issued_next may ⟨_, rfl⟩

/-- In any other context it is refused, for its context or as reserved (R89). -/
theorem exec_refused (may : mayIssue s.cfg s.ctx i = false) :
    ∃ r, exec i s = .refused r ∧ (r = .wrongContext s.ctx ∨ ∃ code, r = .reservedOperation code) := by
  cases i with
  | nop => cases may
  | reservedA | reservedB | reservedC | reservedD | reservedE | reservedF => exact ⟨_, rfl, .inr ⟨_, rfl⟩⟩
  | _ => exact ⟨_, if_neg (by simp [may]), .inl rfl⟩

theorem mayIssue_isr {cfg : Config} (h : mayIssue cfg .isr i = true) :
    i = .nop ∨ (∃ cnt, i = .qsTick cnt) ∨ ∃ d, i = .accAdd d := by
  cases i with
  | nop => exact .inl rfl
  | qsTick cnt => exact .inr (.inl ⟨cnt, rfl⟩)
  | accAdd d => exact .inr (.inr ⟨d, rfl⟩)
  | rxChunk | rxcSync | rxcData => cases hx : cfg.rxContext <;> simp [mayIssue, rxContextOf, hx] at h
  | _ => simp [mayIssue] at h

/-- A chunk belongs to the context that `RX_CONTEXT` names. -/
theorem mayIssue_chunk {cfg : Config} {c : Context} (hi : isChunkOp i = true) (h : mayIssue cfg c i = true) :
    c = rxContextOf cfg := by
  cases i with
  | rxChunk | rxcSync | rxcData => exact of_decide_eq_true h
  | _ => cases hi

theorem rxContextOf_eq_third {cfg : Config} : rxContextOf cfg = .third ↔ cfg.rxContext = .third := by
  unfold rxContextOf
  cases cfg.rxContext <;> simp

theorem rxContextOf_eq_main {cfg : Config} : rxContextOf cfg = .main ↔ cfg.rxContext = .main := by
  unfold rxContextOf
  cases cfg.rxContext <;> simp

theorem mayIssue_third {cfg : Config} (h : mayIssue cfg .third i = true) : i = .nop ∨ isChunkOp i = true := by
  cases i with
  | nop => exact .inl rfl
  | rxChunk | rxcSync | rxcData => exact .inr rfl
  | _ => simp [mayIssue] at h

end Issue

/-- Settles O57: the context decides, and no operation faults since it completes or is refused. -/
theorem operationsAreTotal : Obligations.OperationsAreTotal := by
  intro s i _
  refine ⟨exec_total, exec_refused, fun f hf => ?_⟩
  cases may : mayIssue s.cfg s.ctx i with
  | false =>
    obtain ⟨r, e, -⟩ := exec_refused may
    exact nomatch e.symm.trans hf
  | true =>
    obtain ⟨t, e⟩ := exec_total may
    exact nomatch e.symm.trans hf

/-- Settles O58: what completes was issued by a context that may issue it. -/
theorem contextsMayIssueOnlyTheirOwn : Obligations.ContextsMayIssueOnlyTheirOwn := by
  intro s t i h
  have may := mayIssue_of_exec h
  refine ⟨fun hc => ?_, fun hc => ?_, fun hc => ?_⟩ <;> rw [hc] at may
  · exact mayIssue_isr may
  · exact (mayIssue_third may).imp_right fun hi => ⟨hi, rxContextOf_eq_third.1 (mayIssue_chunk hi may).symm⟩
  · have noTick (cnt : U16) (hi : i = .qsTick cnt) : False := by subst hi; cases may
    have noAdd (d : I32) (hi : i = .accAdd d) : False := by subst hi; cases may
    exact ⟨noTick, noAdd, fun hi => rxContextOf_eq_main.1 (mayIssue_chunk hi may).symm⟩

/-- Settles O56. -/
theorem nopAndReservedCodes : Obligations.NopAndReservedCodes :=
  ⟨fun _ => rfl, fun _ => ⟨rfl, rfl, rfl, rfl, rfl, rfl⟩⟩

end Sys2Proof.Machine

/-! ## The scheduler's phases and the send primitive (44_scheduler.md)

Each phase body is said once as an equation per case: `phButtons_cases`, `phRotary_cases`, and for phase USB_SEND an attempted
send exactly when one is wanted (`phUsbSend_of_wanted`, `phUsbSend_of_not_wanted`). -/

namespace Sys2Proof.Machine

section Main
variable {now : U32} {keys : BitVec 16} {rotN : BitVec 6} {tr : BitVec 2} {s t u : State} {p : BitVec 2}

theorem exec_phEncoder (h : s.ctx = .main) : exec .phEncoder s = .next (phEncoder s) := issued_of_may (decide_eq_true h)

theorem exec_phButtons (h : s.ctx = .main) : exec (.phButtons now keys) s = .next (phButtons now keys s) :=
  issued_of_may (decide_eq_true h)

theorem exec_phRotary (h : s.ctx = .main) : exec (.phRotary now rotN) s = .next (phRotary now rotN s) :=
  issued_of_may (decide_eq_true h)

theorem exec_phUsbSend (h : s.ctx = .main) : exec (.phUsbSend now tr) s = phUsbSend now tr s :=
  issued_of_may (decide_eq_true h)

theorem exec_schStep (h : s.ctx = .main) : exec (.schStep now keys rotN tr) s = schStep now keys rotN tr s :=
  issued_of_may (decide_eq_true h)

theorem exec_kmScan_main (h : s.ctx = .main) : exec (.kmScan now keys) s =
    .next ((kmScan now keys s).1.withRet (.scanned (kmScan now keys s).2.first (kmScan now keys s).2.second)) :=
  issued_of_may (decide_eq_true h)

theorem exec_rmRead_main (h : s.ctx = .main) : exec (.rmRead now rotN) s =
    .next ((rmRead now rotN s).1.withRet (.modeRead (rmRead now rotN s).1.rm.stable (rmRead now rotN s).2)) :=
  issued_of_may (decide_eq_true h)

/-- No phase body writes the phase (R36). -/
theorem BodyRan.phase (h : BodyRan s p u) : u.sch.phase = s.sch.phase := by
  cases h with
  | encoder => obtain ⟨_, _, e, -⟩ := phEncoder_frame s; rw [e]; rfl
  | buttons now keys => obtain ⟨_, _, _, e, rfl | ⟨_, _, rfl⟩⟩ := phButtons_frame now keys s <;> rw [e] <;> rfl
  | rotary now rotN => obtain ⟨_, _, _, e, rfl | rfl | rfl⟩ := phRotary_frame now rotN s <;> rw [e] <;> rfl
  | usbSend sent => obtain ⟨_, _, _, _, _, _, rfl, -, rfl | rfl⟩ := phUsbSend_frame sent <;> rfl

/-- The operation that the phase selects runs the selected body (R72, R165). -/
theorem exec_selected (h : s.ctx = .main) :
    exec (if s.sch.phase = 0#2 then .phEncoder else if s.sch.phase = 1#2 then .phButtons now keys
      else if s.sch.phase = 2#2 then .phRotary now rotN else .phUsbSend now tr) s = phaseBody now keys rotN tr s := by
  obtain ⟨hp, e⟩ | ⟨hp, e⟩ | ⟨hp, e⟩ | ⟨hp, e⟩ := phaseBody_of_phase now keys rotN tr s <;> rw [e, hp]
  · exact exec_phEncoder h
  · exact exec_phButtons h
  · exact exec_phRotary h
  · exact exec_phUsbSend h

end Main

/-- Settles O8: the selected body completes and leaves the phase, which then advances. -/
theorem schStepRunsSelectedPhase : Obligations.SchStepRunsSelectedPhase := by
  intro s now keys rotN tr hctx
  obtain ⟨u, ran⟩ := phaseBody_next now keys rotN tr s
  have phase := (bodyRan_of_phaseBody ran).phase
  refine ⟨u, (exec_selected hctx).trans ran, phase, ?_, BitVec.toNat_add _ _⟩
  rw [exec_schStep hctx, schStep, ran, chain_next, advancePhase, phase]
  rfl

/-- Settles O35. -/
theorem phEncoderFlushes : Obligations.PhEncoderFlushes := fun _ h => exec_phEncoder h

/-- The button flag is set when the pair differs from the last-sent pair, and is else left (decision D31). -/
theorem buttonChangedBy_eq (sch : Scheduler) (b1 b2 : Byte) :
    buttonChangedBy sch b1 b2 = (sch.buttonChanged || decide (b1 ≠ sch.sentBtn1) || decide (b2 ≠ sch.sentBtn2)) := by
  unfold buttonChangedBy
  split
  · next h => obtain h | h := h <;> simp [h]
  · next h => rw [not_or, not_not, not_not] at h; simp [h]

/-- Settles O36: at its interval the phase notes the events of the scan it runs. -/
theorem phButtonsScans : Obligations.PhButtonsScans := by
  intro s now keys hctx
  rw [exec_phButtons hctx]
  obtain ⟨early, e⟩ | ⟨due, e⟩ := phButtons_cases now keys s
  · exact ⟨fun _ => by rw [e], fun due => absurd due (Nat.not_le_of_lt early)⟩
  · refine ⟨fun early => absurd due (Nat.not_le_of_lt early), fun _ => ⟨_, _, _, exec_kmScan_main hctx, rfl, ?_⟩⟩
    obtain ⟨km, log, scan⟩ := kmScan_frame now keys s
    rw [e, noteScan, buttonChangedBy_eq, scan]
    rfl

/-- Settles O37: at its poll the phase notes the read it runs, and with it an accepted change. -/
theorem phRotaryReads : Obligations.PhRotaryReads := by
  intro s now rotN hctx
  rw [exec_phRotary hctx]
  obtain ⟨rm, log, read⟩ := rmRead_frame now rotN s
  obtain ⟨early, e⟩ | ⟨due, ⟨changed, e⟩ | ⟨changed, e⟩⟩ := phRotary_cases now rotN s
  · exact ⟨fun _ => by rw [e], fun due => absurd due (Nat.not_le_of_lt early)⟩
  · refine ⟨fun early => absurd due (Nat.not_le_of_lt early), fun _ => ⟨_, _, _, exec_rmRead_main hctx, rfl, rfl, ?_⟩⟩
    rw [e, changed, read]
    rfl
  · refine ⟨fun early => absurd due (Nat.not_le_of_lt early), fun _ => ⟨_, _, _, exec_rmRead_main hctx, rfl, rfl, ?_⟩⟩
    rw [e, changed, read]
    rfl

section SpeedCodes

/-- The magnitude of a default speed code is the table's entry (R81). -/
theorem speedMap_default_natAbs (v : I32) :
    (speedMap {} v).toInt.natAbs = speedCode ({} : SpeedTable).points ({} : SpeedTable).other v.toInt.natAbs := by
  rw [speedMap_toInt (by decide) (by decide), mag32]
  split <;> simp

theorem le_speedCode {points : List (Nat × Nat)} {other b : Nat} (m : Nat) (hp : ∀ p ∈ points, b ≤ p.2) (ho : b ≤ other) :
    b ≤ speedCode points other m := by
  induction points with
  | nil => exact ho
  | cons p rest ih =>
    obtain ⟨hhead, hrest⟩ := List.forall_mem_cons.1 hp
    rw [speedCode]
    split
    · exact hhead
    · exact ih hrest

/-- A table whose codes rise gives rising codes (R170). -/
theorem speedCode_mono {points : List (Nat × Nat)} {other m n : Nat} (rising : points.Pairwise (·.2 ≤ ·.2))
    (top : ∀ p ∈ points, p.2 ≤ other) (h : m ≤ n) : speedCode points other m ≤ speedCode points other n := by
  induction points with
  | nil => exact le_rfl
  | cons p rest ih =>
    obtain ⟨headLe, restRising⟩ := List.pairwise_cons.1 rising
    obtain ⟨headTop, restTop⟩ := List.forall_mem_cons.1 top
    rw [speedCode, speedCode]
    by_cases hn : n ≤ p.1
    · rw [if_pos hn, if_pos (h.trans hn)]
    · rw [if_neg hn]
      split
      · exact le_speedCode n headLe headTop
      · exact ih restRising restTop

theorem speedCode_default_pos (m : Nat) : 0 < speedCode ({} : SpeedTable).points ({} : SpeedTable).other m :=
  le_speedCode m (by decide) (by decide)

/-- Every entry of the default table is a speed code (30_encoding.md R80). -/
theorem speedMap_default_isSpeedCode (v : I32) : isSpeedCode (speedMap {} v) := by
  rw [isSpeedCode, speedMap_default_natAbs, speedCode_default]
  split_ifs <;> decide

end SpeedCodes

/-- Settles O39: the default table is positive and rises, and the code has the sign of the value. -/
theorem speedCodeMonotone : Obligations.SpeedCodeMonotone := by
  refine ⟨fun v1 v2 h => ?_, fun v hv => ?_⟩
  · rw [speedMap_default_natAbs, speedMap_default_natAbs]
    exact speedCode_mono (by decide) (by decide) h
  · have pos := speedCode_default_pos (mag32 v)
    have nonzero : v.toInt ≠ 0 := fun h => hv (BitVec.toInt_inj.1 (h.trans BitVec.toInt_zero.symm))
    rw [speedMap_toInt (by decide) (by decide)]
    split
    · next neg => rw [Int.sign_eq_neg_one_of_neg neg, Int.sign_eq_neg_one_of_neg (by omega)]
    · next nonneg => rw [Int.sign_eq_one_of_pos (by omega), Int.sign_eq_one_of_pos (by omega)]

section UsbSend
variable {now : U32} {tr : BitVec 2} {s t : State}

/-- What phase USB_SEND tests before it attempts a send (R171, R172). -/
theorem sendWanted_iff : sendWanted s now ↔ (needSend s.cfg (takenState s).sch now &&
    decide (minInterval s.cfg (takeMotion s).2 ≤ elapsed now (takenState s).sch.lastSend)) = true := by
  have taken : (takeMotion s).2 = motionTaken s := by
    unfold takeMotion motionTaken
    split <;> rfl
  rw [taken, takenState_sch, Bool.and_eq_true, decide_eq_true_eq]
  simp only [needSend, Bool.or_eq_true, decide_eq_true_eq, or_assoc]
  exact Iff.rfl

theorem phUsbSend_of_wanted (h : sendWanted s now) : phUsbSend now tr s = attemptSend now tr (takenState s) := by
  unfold phUsbSend
  simp only [setWheel_takeMotion, takenState_cfg]
  exact if_pos (sendWanted_iff.1 h)

theorem phUsbSend_of_not_wanted (h : ¬ sendWanted s now) : phUsbSend now tr s = .next (takenState s) := by
  unfold phUsbSend
  simp only [setWheel_takeMotion, takenState_cfg]
  exact if_neg (mt sendWanted_iff.2 h)

end UsbSend

/-- Settles O40. -/
theorem usbSendHeldBack : Obligations.UsbSendHeldBack :=
  fun _ _ _ hctx h => (exec_phUsbSend hctx).trans (phUsbSend_of_not_wanted h)

end Sys2Proof.Machine

/-! ## The report handed to the transport (44_scheduler.md R172, R175, R176)

After `TX.COMPOSE` every byte of `OUT` is the report's (`composed_get`), so what an attempted send offers and leaves is written
out byte for byte. -/

namespace Sys2Proof.Machine

section Sent
variable {now : U32} {tr : BitVec 2} {s t : State}

/-- Two outputs one after the other. -/
theorem raise_emit (e : Event) (x : Emission) (s : State) : raise e (emit x s) = emits [x, .raised e] s :=
  congrArg s.withLog (List.append_assoc ..)

/-- Nothing is listed outside the bounds of a buffer. -/
theorem Memory.get_of_below {n a : Nat} {m : Memory} (h : Memory.below n m = true) (ha : n ≤ a) : m.get a = 0#8 := by
  induction m with
  | nil => rfl
  | cons c rest ih =>
    obtain ⟨inside, rest_below⟩ := (Memory.below_cons n c rest).1 h
    rw [Memory.get, if_neg (by omega), ih rest_below]

theorem Memory.getBytes_eq_map (m : Memory) (n : Nat) : m.getBytes 0 n = (List.range n).map m.get := by
  refine List.ext_getElem (by simp) fun i h _ => ?_
  rw [← List.getD_eq_getElem _ 0#8, Memory.getD_getBytes _ _ _ _ (by simpa using h), Nat.zero_add, List.getElem_map,
    List.getElem_range]

theorem outBytes_eq (s : State) : outBytes s = (List.range s.cfg.outLen).map (s.byteAt .out) := Memory.getBytes_eq_map _ _

/-- `TX.COMPOSE` leaves the report in `OUT`, and nothing behind it (R175). -/
theorem composed_get (hok : s.buf.Ok s.cfg) (a : Nat) : (composed s).buf.out.get a = (outReport s).getD a 0#8 := by
  by_cases ha : a < s.cfg.outLen
  · exact composed_out s (hok.canonical .out) a ha
  · have len : (outReport s).length ≤ a := by rw [length_outReport]; exact Nat.le_of_not_lt ha
    have read := Memory.get_setBytes 0 a (outReport s) (hok.canonical .out)
    rw [if_neg (by omega)] at read
    rw [List.getD_eq_default _ _ len]
    exact read.trans (Memory.get_of_below (hok.inside .out) (Nat.le_of_not_lt ha))

@[simp] theorem takenState_rm (s : State) : (takenState s).rm = s.rm := by
  obtain ⟨_, _, e, -⟩ := takenState_frame s
  rw [e]; rfl

/-- What phase USB_SEND composes after its take is the report with the wheel that take leaves (R172, R175). -/
theorem composed_takenState_get (hok : s.buf.Ok s.cfg) (a : Nat) :
    (composed (takenState s)).buf.out.get a = (reportWith s (wheelAfter s)).getD a 0#8 := by
  rw [← outReport_takenState]
  exact composed_get (by rwa [takenState_buf, takenState_cfg]) a

theorem outBytes_composed_takenState (hok : s.buf.Ok s.cfg) :
    outBytes (composed (takenState s)) = reportWith s (wheelAfter s) := by
  rw [← outReport_takenState]
  exact outBytes_composed (by rw [takenState_buf]; exact hok.canonical .out)

theorem answerOf_eq_busy_iff : answerOf tr = .busy ↔ tr = 1#2 := by
  revert tr; decide

theorem answerOf_eq_failure_iff : answerOf tr = .failure ↔ tr ≠ 0#2 ∧ tr ≠ 1#2 := by
  revert tr; decide

end Sent

/-- Settles O41: past the floor an accepted answer ends the attempt in the noted send. -/
theorem usbSendAccepted : Obligations.UsbSendAccepted := by
  intro s now hctx hok wanted floor
  refine ⟨_, ?_, composed_takenState_get hok⟩
  rw [exec_phUsbSend hctx, phUsbSend_of_wanted wanted]
  obtain ⟨below, -⟩ | ⟨-, -, e⟩ | ⟨-, busy, -⟩ | ⟨-, failure, -⟩ := attemptSend_cases now 0#2 (takenState s)
  · rw [takenState_txLast, takenState_cfg] at below
    exact absurd floor (Nat.not_le_of_lt below)
  · rw [e, outBytes_composed_takenState hok, takenState_sch, takenState_rm]
    obtain ⟨_, _, taken, -⟩ := takenState_frame s
    rw [taken]
    rfl
  · exact nomatch busy
  · exact nomatch failure

/-- Settles O42: a refused attempt leaves the state after the take, the report in `OUT` and the outputs. -/
theorem usbSendRefused : Obligations.UsbSendRefused := by
  intro s now tr hctx hok wanted
  rw [exec_phUsbSend hctx, phUsbSend_of_wanted wanted]
  have cases := attemptSend_cases now tr (takenState s)
  simp only [raise_emit, takenState_txLast, takenState_cfg, outBytes_composed_takenState hok, elapsed] at cases
  obtain ⟨_, _, taken, -⟩ := takenState_frame s
  refine ⟨fun floor refused => ⟨_, ?_, composed_takenState_get hok⟩, fun below => ⟨_, ?_, composed_takenState_get hok⟩⟩
  · obtain ⟨below, -⟩ | ⟨-, success, -⟩ | ⟨-, busy, e⟩ | ⟨-, failure, e⟩ := cases
    · exact absurd floor (Nat.not_le_of_lt below)
    · exact absurd (answerOf_eq_success_iff.1 success) refused
    · rw [e, if_pos (answerOf_eq_busy_iff.1 busy), taken]
      rfl
    · rw [e, if_neg (answerOf_eq_failure_iff.1 failure).2, taken]
      rfl
  · obtain ⟨-, e⟩ | ⟨floor, -⟩ | ⟨floor, -⟩ | ⟨floor, -⟩ := cases
    · rw [e, taken]
      rfl
    all_goals exact absurd floor (Nat.not_le_of_lt below)

/-- Settles O47: the floor, and else one offer of `OUT` with the answer's outcome. -/
theorem txSendResults : Obligations.TxSendResults := by
  intro s now tr hctx
  have ran : exec (.txSend now tr) s = chain (txSend now tr s) fun r => .next (r.1.withRet (.sent r.2)) :=
    issued_of_may (decide_eq_true hctx)
  have cases := txSend_cases now tr s
  simp only [raise_emit, elapsed] at cases
  rw [ran, ← outBytes_eq]
  obtain ⟨below, e⟩ | ⟨floor, answer, e⟩ | ⟨floor, answer, e⟩ | ⟨floor, answer, e⟩ := cases <;> rw [e, chain_next]
  · rw [if_pos below]
    rfl
  · rw [if_neg (Nat.not_lt_of_le floor), if_pos (answerOf_eq_success_iff.1 answer)]
    rfl
  · obtain rfl := answerOf_eq_busy_iff.1 answer
    rw [if_neg (Nat.not_lt_of_le floor), if_neg (by decide), if_pos rfl]
    rfl
  · obtain ⟨notSuccess, notBusy⟩ := answerOf_eq_failure_iff.1 answer
    rw [if_neg (Nat.not_lt_of_le floor), if_neg notSuccess, if_neg notBusy]
    rfl

/-! ### The wheel (30_encoding.md R80; 44_scheduler.md R169, R179) -/

section Wheel
variable {i : Instr} {s t u : State} {p : BitVec 2}

/-- What an operation may leave in the wheel registers: what was there, or 0, or what a take leaves pending (R41, R42). -/
structure WheelStep (s : State) (sch : Scheduler) : Prop where
  pending : sch.wheel = s.sch.wheel ∨ sch.wheel = 0#8 ∨ sch.wheel = wheelAfter s
  sent : sch.sentWheel = s.sch.sentWheel ∨ sch.sentWheel = wheelAfter s

theorem BodyRan.wheel (h : BodyRan s p u) : WheelStep s u.sch := by
  cases h with
  | encoder => obtain ⟨_, _, e, -⟩ := phEncoder_frame s; rw [e]; exact ⟨.inl rfl, .inl rfl⟩
  | buttons now keys =>
    obtain ⟨_, _, _, e, rfl | ⟨_, _, rfl⟩⟩ := phButtons_frame now keys s <;> rw [e] <;> exact ⟨.inl rfl, .inl rfl⟩
  | rotary now rotN =>
    obtain ⟨_, _, _, e, rfl | rfl | rfl⟩ := phRotary_frame now rotN s <;> rw [e]
    · exact ⟨.inl rfl, .inl rfl⟩
    · exact ⟨.inl rfl, .inl rfl⟩
    · exact ⟨.inr (.inl rfl), .inl rfl⟩
  | usbSend sent =>
    obtain ⟨_, _, _, _, _, _, rfl, -, rfl | rfl⟩ := phUsbSend_frame sent
    · exact ⟨.inr (.inr rfl), .inl rfl⟩
    · exact ⟨.inr (.inl rfl), .inr rfl⟩

theorem exec_wheel (h : exec i s = .next t) : WheelStep s t.sch := by
  obtain ⟨-, hd⟩ | ⟨p, u, -, hb, ht⟩ := exec_cases h
  · rw [hd.frame.1]
    exact ⟨.inl rfl, .inl rfl⟩
  · have step := hb.wheel
    obtain rfl | rfl := ht <;> exact ⟨step.pending, step.sent⟩

theorem isSpeedCode_zero : isSpeedCode 0#8 := by rw [isSpeedCode]; decide

theorem isSpeedCode_wheelAfter (speed : s.cfg.speed = {}) (h : isSpeedCode s.sch.wheel) : isSpeedCode (wheelAfter s) := by
  obtain e | ⟨-, e⟩ := wheelAfter_cases s <;> rw [e]
  · exact h
  · rw [speed]; exact speedMap_default_isSpeedCode _

theorem WheelStep.isSpeedCode {sch : Scheduler} (h : WheelStep s sch) (speed : s.cfg.speed = {})
    (pending : isSpeedCode s.sch.wheel) (sent : isSpeedCode s.sch.sentWheel) :
    isSpeedCode sch.wheel ∧ isSpeedCode sch.sentWheel := by
  have after := isSpeedCode_wheelAfter speed pending
  constructor
  · obtain e | e | e := h.pending <;> rw [e]
    · exact pending
    · exact isSpeedCode_zero
    · exact after
  · obtain e | e := h.sent <;> rw [e]
    · exact sent
    · exact after

theorem wheelAfter_of_flush (flush : s.sch.flushPending = true) : wheelAfter s = s.sch.wheel := by
  obtain e | ⟨noFlush, -⟩ := wheelAfter_cases s
  · exact e
  · exact nomatch flush.symm.trans noFlush

/-- The flush of phase ENCODER (R106, R166). -/
theorem phEncoder_of_flush (flush : s.sch.flushPending = true) : (phEncoder s).acc = 0#32 ∧ (phEncoder s).qs.res = 0#32 := by
  rw [phEncoder, if_pos flush]
  exact ⟨rfl, rfl⟩

end Wheel

/-- Settles O44: what the wheel registers may hold after an operation, and the wheel byte of the report. -/
theorem wheelHoldsOnlySpeedCodes : Obligations.WheelHoldsOnlySpeedCodes := by
  refine ⟨fun s t speed pending sent h => ?_, fun s t i report speed hok pending hp h ho => ?_⟩
  · obtain ⟨-, rfl⟩ | ⟨c, w, i, rest, u, -, -, ran, rfl⟩ | ⟨p, rest, -, rfl⟩ := step_cases h
    · exact ⟨pending, sent⟩
    · exact (exec_wheel ran).isSpeedCode speed pending sent
    · unfold samplePorts
      split
      · exact ⟨isSpeedCode_zero, isSpeedCode_zero⟩
      · exact ⟨pending, sent⟩
  · obtain rfl := exec_offers (hok.canonical .out) hp h ho
    exact isSpeedCode_wheelAfter speed pending

/-- Settles O46: while a flush is pending a take leaves the wheel at 0, and only phase ENCODER ends the request. -/
theorem noMotionAcrossModeChange : Obligations.NoMotionAcrossModeChange := by
  intro s t i hinv flush h
  have after : wheelAfter s = 0#8 := (wheelAfter_of_flush flush).trans (hinv.scheduler.flushHoldsWheel flush)
  refine ⟨?_, fun ended => ?_, fun report hp ho => ?_⟩
  · obtain e | e | e := (exec_wheel h).pending
    · exact e.trans (hinv.scheduler.flushHoldsWheel flush)
    · exact e
    · exact e.trans after
  · obtain ⟨u, hb, ht⟩ := exec_bodyRan ((exec_schFlags h).flush.cleared_by flush ended) h
    cases hb with
    | encoder => obtain rfl | rfl := ht <;> exact phEncoder_of_flush flush
  · obtain rfl := exec_offers (hinv.buffers.canonical .out) hp h ho
    exact after

end Sys2Proof.Machine

/-! ## Frames of every operation (10_state.md R48, 20_memory.md R50, 60_exceptions.md R190)

What `DirectRan.frame` and `BodyRan.frame` say of the scheduler, the rotary reader and the inbound report is said here of the
other components, the outbound buffer and the outputs. -/

namespace Sys2Proof.Machine

section Frames
variable {now : U32} {tr : BitVec 2} {i : Instr} {s t u : State} {p : BitVec 2}

/-- The configuration, the issuing context and the inputs to come are as they were. -/
structure SameSetting (s t : State) : Prop where
  cfg : t.cfg = s.cfg
  ctx : t.ctx = s.ctx
  inputs : t.inputs = s.inputs

theorem DirectRan.setting (h : DirectRan s i t) : SameSetting s t := by
  cases h with
  | qsTick cnt => rw [qsTick_frame]; exact ⟨rfl, rfl, rfl⟩
  | kmScan now keys => obtain ⟨_, _, e⟩ := kmScan_frame now keys s; rw [e]; exact ⟨rfl, rfl, rfl⟩
  | rmRead now rotN => obtain ⟨_, _, e⟩ := rmRead_frame now rotN s; rw [e]; exact ⟨rfl, rfl, rfl⟩
  | txSend sent => rw [txSend_frame sent]; exact ⟨rfl, rfl, rfl⟩
  | chunk _ ran => obtain ⟨_, _, _, _, rfl⟩ := ran.frame; exact ⟨rfl, rfl, rfl⟩
  | nop | accAdd | accTake | accFlush => exact ⟨rfl, rfl, rfl⟩

theorem BodyRan.setting (h : BodyRan s p u) : SameSetting s u := by
  cases h with
  | encoder => obtain ⟨_, _, e, -⟩ := phEncoder_frame s; rw [e]; exact ⟨rfl, rfl, rfl⟩
  | buttons now keys => obtain ⟨_, _, _, e, -⟩ := phButtons_frame now keys s; rw [e]; exact ⟨rfl, rfl, rfl⟩
  | rotary now rotN => obtain ⟨_, _, _, e, -⟩ := phRotary_frame now rotN s; rw [e]; exact ⟨rfl, rfl, rfl⟩
  | usbSend sent => obtain ⟨_, _, _, _, _, _, rfl, -⟩ := phUsbSend_frame sent; exact ⟨rfl, rfl, rfl⟩

theorem exec_setting (h : exec i s = .next t) : SameSetting s t := by
  obtain ⟨-, hd⟩ | ⟨p, u, -, hb, ht⟩ := exec_cases h
  · exact hd.setting
  · have kept := hb.setting
    obtain rfl | rfl := ht <;> exact ⟨kept.cfg, kept.ctx, kept.inputs⟩

/-! ### The sampler, the accumulator, the key scanner and `TX.last` -/

/-- Each of these registers is as it was unless its writer ran. -/
structure RegistersKept (prev res acc km txLast : Prop) (s t : State) : Prop where
  prev : prev ∨ t.qs.prev = s.qs.prev
  res : res ∨ t.qs.res = s.qs.res
  acc : acc ∨ t.acc = s.acc
  km : km ∨ t.km = s.km
  txLast : txLast ∨ t.txLast = s.txLast

theorem RegistersKept.mono {P P' R R' A A' K K' X X' : Prop} (h : RegistersKept P R A K X s t) (hP : P → P') (hR : R → R')
    (hA : A → A') (hK : K → K') (hX : X → X') : RegistersKept P' R' A' K' X' s t :=
  ⟨h.prev.imp_left hP, h.res.imp_left hR, h.acc.imp_left hA, h.km.imp_left hK, h.txLast.imp_left hX⟩

/-- The writers among the direct operations (R48). -/
theorem DirectRan.registers (h : DirectRan s i t) :
    RegistersKept (∃ cnt, i = .qsTick cnt) ((∃ cnt, i = .qsTick cnt) ∨ i = .accFlush)
      ((∃ cnt, i = .qsTick cnt) ∨ (∃ d, i = .accAdd d) ∨ i = .accTake ∨ i = .accFlush)
      (∃ now keys, i = .kmScan now keys) (isSendOp i) s t := by
  cases h with
  | nop => exact ⟨.inr rfl, .inr rfl, .inr rfl, .inr rfl, .inr rfl⟩
  | qsTick cnt => rw [qsTick_frame]; exact ⟨.inl ⟨cnt, rfl⟩, .inl (.inl ⟨cnt, rfl⟩), .inl (.inl ⟨cnt, rfl⟩), .inr rfl, .inr rfl⟩
  | accAdd d => exact ⟨.inr rfl, .inr rfl, .inl (.inr (.inl ⟨d, rfl⟩)), .inr rfl, .inr rfl⟩
  | accTake => exact ⟨.inr rfl, .inr rfl, .inl (.inr (.inr (.inl rfl))), .inr rfl, .inr rfl⟩
  | accFlush => exact ⟨.inr rfl, .inl (.inr rfl), .inl (.inr (.inr (.inr rfl))), .inr rfl, .inr rfl⟩
  | kmScan now keys =>
    obtain ⟨_, _, e⟩ := kmScan_frame now keys s
    rw [e]; exact ⟨.inr rfl, .inr rfl, .inr rfl, .inl ⟨now, keys, rfl⟩, .inr rfl⟩
  | rmRead now rotN =>
    obtain ⟨_, _, e⟩ := rmRead_frame now rotN s
    rw [e]; exact ⟨.inr rfl, .inr rfl, .inr rfl, .inr rfl, .inr rfl⟩
  | txSend sent => rw [txSend_frame sent]; exact ⟨.inr rfl, .inr rfl, .inr rfl, .inr rfl, .inl ⟨_, _, rfl⟩⟩
  | chunk _ ran =>
    obtain ⟨_, _, _, _, rfl⟩ := ran.frame
    exact ⟨.inr rfl, .inr rfl, .inr rfl, .inr rfl, .inr rfl⟩

/-- A take leaves the counter reading and the residue (R105). -/
theorem takenState_prev_res (s : State) : (takenState s).qs.prev = s.qs.prev ∧ (takenState s).qs.res = s.qs.res := by
  unfold takenState
  split <;> exact ⟨rfl, rfl⟩

theorem phUsbSend_prev_res (h : phUsbSend now tr s = .next t) : t.qs.prev = s.qs.prev ∧ t.qs.res = s.qs.res := by
  rw [← (takenState_prev_res s).1, ← (takenState_prev_res s).2]
  obtain rfl | ran := phUsbSend_from_takenState h
  · exact ⟨rfl, rfl⟩
  · rw [(attemptSend_frame ran).1]
    exact ⟨rfl, rfl⟩

theorem phEncoder_prev (s : State) : (phEncoder s).qs.prev = s.qs.prev := by
  unfold phEncoder
  split <;> rfl

/-- The writers among the phase bodies (R48). -/
theorem BodyRan.registers (h : BodyRan s p u) :
    RegistersKept False (p = 0#2) (p = 0#2 ∨ p = 3#2) (p = 1#2) (p = 3#2) s u := by
  cases h with
  | encoder =>
    have prev := phEncoder_prev s
    obtain ⟨_, _, e, -⟩ := phEncoder_frame s
    rw [e] at prev ⊢
    exact ⟨.inr prev, .inl rfl, .inl (.inl rfl), .inr rfl, .inr rfl⟩
  | buttons now keys =>
    obtain ⟨_, _, _, e, -⟩ := phButtons_frame now keys s
    rw [e]; exact ⟨.inr rfl, .inr rfl, .inr rfl, .inl rfl, .inr rfl⟩
  | rotary now rotN =>
    obtain ⟨_, _, _, e, -⟩ := phRotary_frame now rotN s
    rw [e]; exact ⟨.inr rfl, .inr rfl, .inr rfl, .inr rfl, .inr rfl⟩
  | usbSend sent =>
    obtain ⟨prev, res⟩ := phUsbSend_prev_res sent
    obtain ⟨_, _, _, _, _, _, rfl, -⟩ := phUsbSend_frame sent
    exact ⟨.inr prev, .inr res, .inl (.inr rfl), .inr rfl, .inl rfl⟩

/-- The writers of these registers, called directly or run by a phase (R48). -/
theorem exec_registers (h : exec i s = .next t) :
    RegistersKept (∃ cnt, i = .qsTick cnt) ((∃ cnt, i = .qsTick cnt) ∨ i = .accFlush ∨ phaseRun i s = some 0#2)
      ((∃ cnt, i = .qsTick cnt) ∨ (∃ d, i = .accAdd d) ∨ i = .accTake ∨ i = .accFlush ∨ phaseRun i s = some 0#2 ∨
        phaseRun i s = some 3#2)
      ((∃ now keys, i = .kmScan now keys) ∨ phaseRun i s = some 1#2) (isSendOp i ∨ phaseRun i s = some 3#2) s t := by
  obtain ⟨-, hd⟩ | ⟨p, u, hp, hb, ht⟩ := exec_cases h
  · refine hd.registers.mono id (.imp_right .inl) (.imp_right (.imp_right (.imp_right .inl))) .inl .inl
  · have kept : RegistersKept False (p = 0#2) (p = 0#2 ∨ p = 3#2) (p = 1#2) (p = 3#2) s t := by
      have body := hb.registers
      obtain rfl | rfl := ht <;> exact ⟨body.prev, body.res, body.acc, body.km, body.txLast⟩
    simp only [hp, Option.some.injEq]
    exact kept.mono False.elim (.inr ∘ .inr) (.inr ∘ .inr ∘ .inr ∘ .inr) .inr .inr

end Frames

/-- Settles O50: each register is kept unless a writer its row names ran. -/
theorem componentRegistersHaveTheirWriters : Obligations.ComponentRegistersHaveTheirWriters := by
  intro s t i h
  obtain ⟨prev, res, acc, km, txLast⟩ := exec_registers h
  obtain ⟨cfg, ctx, inputs⟩ := exec_setting h
  refine ⟨prev.resolve_right, fun hne => ?_, fun hne => ?_, km.resolve_right, (exec_rm h).resolve_right, fun hne => ?_,
    txLast.resolve_right, cfg, ctx, inputs⟩
  · exact res.resolve_right hne
  · exact acc.resolve_right hne
  · obtain ⟨chunkOp, -⟩ | ⟨rx, shr⟩ := exec_inbound h
    · exact chunkOp
    · exact (hne.elim (absurd rx) (absurd shr))

/-! ### The buffers -/

section Buffers
variable {now : U32} {tr : BitVec 2} {i : Instr} {s t u : State} {p : BitVec 2}

theorem attemptSend_scrBytes (h : attemptSend now tr s = .next t) : t.buf.scr = s.buf.scr := by
  obtain ⟨-, e⟩ | ⟨-, -, e⟩ | ⟨-, -, e⟩ | ⟨-, -, e⟩ := attemptSend_cases now tr s <;> cases e.symm.trans h <;> rfl

/-- Among the phases USB_SEND alone stores in a buffer, and in `OUT` only (R50). -/
theorem BodyRan.buf (h : BodyRan s p u) : u.buf.scr = s.buf.scr ∧ u.buf.shr = s.buf.shr ∧ (p = 3#2 ∨ u.buf = s.buf) := by
  cases h with
  | encoder => obtain ⟨_, _, e, -⟩ := phEncoder_frame s; rw [e]; exact ⟨rfl, rfl, .inr rfl⟩
  | buttons now keys => obtain ⟨_, _, _, e, -⟩ := phButtons_frame now keys s; rw [e]; exact ⟨rfl, rfl, .inr rfl⟩
  | rotary now rotN => obtain ⟨_, _, _, e, -⟩ := phRotary_frame now rotN s; rw [e]; exact ⟨rfl, rfl, .inr rfl⟩
  | usbSend sent =>
    refine ⟨?_, phUsbSend_shrBytes sent, .inl rfl⟩
    obtain rfl | ran := phUsbSend_from_takenState sent
    · rw [takenState_buf]
    · rw [attemptSend_scrBytes ran, takenState_buf]

/-- A chunk stores in `SCR` and `SHR` only (R50). -/
theorem ChunkRan.outBytes (h : ChunkRan s t) : t.buf.out = s.buf.out := by
  obtain rfl | ⟨c, rx, log, h⟩ := h.cases
  · rfl
  · obtain ⟨-, e⟩ | ⟨-, -, e⟩ | ⟨-, -, e⟩ := storeChunk_cases c ((s.withRx rx).withLog log) <;>
      cases e.symm.trans h <;> rfl

end Buffers

/-- Settles O52: a direct operation that stores is a chunk, and a phase that stores is USB_SEND. -/
theorem buffersHaveOneWriter : Obligations.BuffersHaveOneWriter := by
  intro s t i h
  obtain ⟨-, hd⟩ | ⟨p, u, hp, hb, ht⟩ := exec_cases h
  · obtain ⟨chunkOp, ran⟩ | kept := hd.buf
    · refine ⟨fun notChunk => ?_, fun _ a => congrArg (Memory.get · a) ran.outBytes⟩
      exact nomatch chunkOp.symm.trans notChunk
    · simp only [State.byteAt, kept, and_self, implies_true]
  · have hbuf : t.buf = u.buf := by obtain rfl | rfl := ht <;> rfl
    obtain ⟨scr, shr, out⟩ := hb.buf
    rw [← hbuf] at scr shr out
    refine ⟨fun _ a => ⟨congrArg (Memory.get · a) scr, congrArg (Memory.get · a) shr⟩, fun notSend a => ?_⟩
    have kept := out.resolve_left fun e => notSend (e ▸ hp)
    exact congrArg (fun b : Buffers => b.out.get a) kept

end Sys2Proof.Machine

/-! ## The outputs of every operation (10_state.md R47, 60_exceptions.md R190)

What leaves the engine leaves it from one of its components, and one operation puts out what one component has
(`exec_puts`). That no output is taken back, that the overflow guard and the send floor do not fire, are read off that. -/

namespace Sys2Proof.Machine

/-- The component an output comes from. -/
inductive Source where
  | sampler
  | keys
  | rotary
  | inbound
  | outbound
  deriving DecidableEq

def Event.source (e : Event) : Source :=
  match e with
  | .rxNoSync => .inbound
  | .rxResync _ => .inbound
  | .rxOverflow _ => .inbound
  | .txBusy => .outbound
  | .txFailure => .outbound
  | .txFloor => .outbound
  | .kmExtraKey => .keys
  | .rotMulti => .rotary
  | .qsAlias => .sampler

def Emission.source (e : Emission) : Source :=
  match e with
  | .rowDriven _ => .keys
  | .txReq _ => .outbound
  | .notifyStatus => .inbound
  | .notifyMode _ => .rotary
  | .raised e => e.source

/-- From `s` to `t` outputs of `src` were added to the record, and nothing was taken back. -/
def Puts (src : Source) (s t : State) : Prop := ∃ new, t.log = s.log ++ new ∧ ∀ e ∈ new, e.source = src

section Puts
variable {src : Source} {now : U32} {tr : BitVec 2} {i : Instr} {s t u : State} {p : BitVec 2}

theorem Puts.nothing (h : t.log = s.log) : Puts src s t := ⟨[], by rw [h, List.append_nil], nofun⟩

theorem Puts.emit {e : Emission} (he : e.source = src) : Puts src s (emit e s) :=
  ⟨[e], emit_log s e, fun _ hm => List.mem_singleton.1 hm ▸ he⟩

theorem Puts.raise {e : Event} (he : e.source = src) : Puts src s (raise e s) := .emit he

theorem Puts.trans (h : Puts src s t) (h' : Puts src t u) : Puts src s u := by
  obtain ⟨new, e, all⟩ := h
  obtain ⟨new', e', all'⟩ := h'
  exact ⟨new ++ new', by rw [e', e, List.append_assoc], fun x hx => (List.mem_append.1 hx).elim (all x) (all' x)⟩

/-- An output since `s` comes from the source that put it out. -/
theorem Puts.source_eq (h : Puts src s t) {e : Emission} (he : e ∈ newOutputs s t) : e.source = src := by
  obtain ⟨new, hlog, all⟩ := h
  rw [newOutputs, hlog, List.drop_left] at he
  exact all e he

theorem kmScan_log (now : U32) (keys : BitVec 16) (s : State) :
    (kmScan now keys s).1.log = s.log ++ scanEmissions keys := by
  unfold kmScan
  rw [emits_log, State.withKm_log]

theorem rmRead_log (now : U32) (rotN : BitVec 6) (s : State) :
    (rmRead now rotN s).1.log = s.log ++ if rotMultiple rotN then [.raised .rotMulti] else [] := by
  unfold rmRead
  rw [emits_log, State.withRm_log]

theorem kmScan_puts (now : U32) (keys : BitVec 16) (s : State) : Puts .keys s (kmScan now keys s).1 := by
  refine ⟨scanEmissions keys, kmScan_log now keys s, fun e he => ?_⟩
  obtain he | he := List.mem_append.1 he
  · obtain ⟨row, -, rfl⟩ := List.mem_map.1 he
    rfl
  · split at he
    · rw [List.mem_singleton.1 he]; rfl
    · cases he

theorem rmRead_puts (now : U32) (rotN : BitVec 6) (s : State) : Puts .rotary s (rmRead now rotN s).1 := by
  refine ⟨if rotMultiple rotN then [.raised .rotMulti] else [], rmRead_log now rotN s, fun e he => ?_⟩
  split at he
  · rw [List.mem_singleton.1 he]; rfl
  · cases he

theorem txSend_puts {r : State × SendResult} (h : txSend now tr s = .next r) : Puts .outbound s r.1 := by
  obtain ⟨-, e⟩ | ⟨-, -, e⟩ | ⟨-, -, e⟩ | ⟨-, -, e⟩ := txSend_cases now tr s <;> cases e.symm.trans h
  · exact .raise rfl
  · exact Puts.trans (.emit (e := .txReq _) rfl) (.nothing rfl)
  · exact Puts.trans (.emit rfl) (.raise rfl)
  · exact Puts.trans (.emit rfl) (.raise rfl)

theorem phButtons_puts (now : U32) (keys : BitVec 16) (s : State) : Puts .keys s (phButtons now keys s) := by
  obtain ⟨-, e⟩ | ⟨-, e⟩ := phButtons_cases now keys s <;> rw [e]
  · exact .nothing rfl
  · exact (kmScan_puts now keys s).trans (.nothing rfl)

theorem phRotary_puts (now : U32) (rotN : BitVec 6) (s : State) : Puts .rotary s (phRotary now rotN s) := by
  obtain ⟨-, e⟩ | ⟨-, ⟨-, e⟩ | ⟨-, e⟩⟩ := phRotary_cases now rotN s <;> rw [e]
  · exact .nothing rfl
  · exact ((rmRead_puts now rotN s).trans (.nothing rfl)).trans (.emit rfl)
  · exact (rmRead_puts now rotN s).trans (.nothing rfl)

theorem attemptSend_puts (h : attemptSend now tr s = .next t) : Puts .outbound s t := by
  have compose : Puts .outbound s (composed s) := .nothing (composed_log s)
  obtain ⟨-, e⟩ | ⟨-, -, e⟩ | ⟨-, -, e⟩ | ⟨-, -, e⟩ := attemptSend_cases now tr s <;> cases e.symm.trans h
  · exact compose.trans (.raise rfl)
  · exact (compose.trans (.emit (e := .txReq _) rfl)).trans (.nothing rfl)
  · exact compose.trans (.trans (.emit rfl) (.raise rfl))
  · exact compose.trans (.trans (.emit rfl) (.raise rfl))

theorem phUsbSend_puts (h : phUsbSend now tr s = .next t) : Puts .outbound s t := by
  obtain rfl | ran := phUsbSend_from_takenState h
  · exact .nothing (takenState_log s)
  · exact (Puts.nothing (takenState_log s)).trans (attemptSend_puts ran)

theorem restarted_puts (s : State) : Puts .inbound s (restarted s) := by
  refine ⟨if s.rx.syncFound then [.raised (.rxResync s.rx.offset)] else [], rfl, fun e he => ?_⟩
  split at he
  · rw [List.mem_singleton.1 he]; rfl
  · cases he

@[simp] theorem stored_log (c : Chunk) (s : State) : (stored c s).log = s.log := by
  rw [stored, State.withRx_log, State.withBuf_log]

@[simp] theorem completed_log (s : State) : (completed s).log = s.log ++ [.notifyStatus] := by
  rw [completed, emit_log, State.withRx_log, State.withShr_log, State.withBuf_log]

theorem storeChunk_puts {c : Chunk} (h : storeChunk c s = .next t) : Puts .inbound s t := by
  obtain ⟨-, e⟩ | ⟨-, -, e⟩ | ⟨-, -, e⟩ := storeChunk_cases c s <;> cases e.symm.trans h
  · exact Puts.trans (.nothing (State.withRx_log s _)) (.raise rfl)
  · exact ⟨[.notifyStatus], by rw [completed_log, stored_log], fun e he => List.mem_singleton.1 he ▸ rfl⟩
  · exact .nothing (stored_log c s)

theorem ChunkRan.puts (h : ChunkRan s t) : Puts .inbound s t := by
  obtain ⟨c, h | h⟩ := h
  · rw [syncChunk_eq] at h
    exact (restarted_puts s).trans (storeChunk_puts h)
  · unfold dataChunk at h
    split at h
    · exact storeChunk_puts h
    · cases h; exact .raise rfl

/-- A direct operation puts out what one component has; the reassembler has something after a chunk, the send primitive when
it is called. -/
theorem DirectRan.puts (h : DirectRan s i t) :
    ∃ src, Puts src s t ∧ (src = .inbound → ChunkRan s t) ∧ (src = .outbound → isSendOp i) := by
  cases h with
  | qsTick cnt => rw [qsTick_frame]; exact ⟨.sampler, .nothing rfl, nofun, nofun⟩
  | kmScan now keys => exact ⟨.keys, (kmScan_puts now keys s).trans (.nothing rfl), nofun, nofun⟩
  | rmRead now rotN => exact ⟨.rotary, (rmRead_puts now rotN s).trans (.nothing rfl), nofun, nofun⟩
  | txSend sent => exact ⟨.outbound, (txSend_puts sent).trans (.nothing rfl), nofun, fun _ => ⟨_, _, rfl⟩⟩
  | chunk _ ran => exact ⟨.inbound, ran.puts, fun _ => ran, nofun⟩
  | nop | accAdd | accTake | accFlush => exact ⟨.sampler, .nothing rfl, nofun, nofun⟩

/-- A phase puts out what its component has, and USB_SEND alone what the send primitive has. -/
theorem BodyRan.puts (h : BodyRan s p u) : ∃ src, Puts src s u ∧ src ≠ .inbound ∧ (src = .outbound → p = 3#2) := by
  cases h with
  | encoder => obtain ⟨_, _, e, -⟩ := phEncoder_frame s; rw [e]; exact ⟨.sampler, .nothing rfl, nofun, nofun⟩
  | buttons now keys => exact ⟨.keys, phButtons_puts now keys s, nofun, nofun⟩
  | rotary now rotN => exact ⟨.rotary, phRotary_puts now rotN s, nofun, nofun⟩
  | usbSend sent => exact ⟨.outbound, phUsbSend_puts sent, nofun, fun _ => rfl⟩

theorem exec_puts (h : exec i s = .next t) : ∃ src, Puts src s t ∧ (src = .inbound → ChunkRan s t) ∧
    (src = .outbound → isSendOp i ∨ phaseRun i s = some 3#2) := by
  obtain ⟨-, hd⟩ | ⟨p, u, hp, hb, ht⟩ := exec_cases h
  · obtain ⟨src, puts, inbound, outbound⟩ := hd.puts
    exact ⟨src, puts, inbound, fun e => .inl (outbound e)⟩
  · obtain ⟨src, puts, notInbound, outbound⟩ := hb.puts
    have hlog : t.log = u.log := by obtain rfl | rfl := ht <;> rfl
    exact ⟨src, puts.trans (.nothing hlog), fun e => absurd e notInbound, fun e => .inr (outbound e ▸ hp)⟩

end Puts

/-- Settles O59: an operation adds to the record, and a sample of the ports keeps it. -/
theorem configurationNeverChanges : Obligations.ConfigurationNeverChanges := by
  intro s t h
  obtain ⟨-, rfl⟩ | ⟨c, w, i, rest, u, -, -, ran, rfl⟩ | ⟨p, rest, -, rfl⟩ := step_cases h
  · exact ⟨rfl, [], (List.append_nil _).symm⟩
  · obtain ⟨src, ⟨new, added, -⟩, -⟩ := exec_puts ran
    exact ⟨(exec_setting ran).cfg, new, added⟩
  · unfold samplePorts
    split <;> exact ⟨rfl, [], (List.append_nil _).symm⟩

section Guards
variable {now : U32} {tr : BitVec 2} {c : Chunk} {s t u : State} {p : BitVec 2}

/-- A chunk that fits into the scratch buffer puts out the completion or nothing (R152, R154, R155). -/
theorem storeChunk_log_of_fits (fits : s.rx.offset + chunkLen ≤ scratchLen) (h : storeChunk c s = .next t) :
    t.log = s.log ∨ t.log = s.log ++ [.notifyStatus] := by
  obtain ⟨full, -⟩ | ⟨-, -, e⟩ | ⟨-, -, e⟩ := storeChunk_cases c s
  · exact absurd fits (Nat.not_le_of_lt full)
  · cases e.symm.trans h
    exact .inr (by rw [completed_log, stored_log])
  · cases e.symm.trans h
    exact .inl (stored_log c s)

@[simp] theorem restarted_log (s : State) :
    (restarted s).log = s.log ++ if s.rx.syncFound then [.raised (.rxResync s.rx.offset)] else [] := rfl

/-- From the invariant every chunk fits, or is discarded, or starts a new report (R153). -/
theorem ChunkRan.no_overflow (hs : s.Inv) (h : ChunkRan s t) (n : Nat) : .raised (.rxOverflow n) ∉ newOutputs s t := by
  obtain ⟨c, h | h⟩ := h
  · rw [syncChunk_eq] at h
    have fits := chunk_fits hs.cfg (dvd_zero _) (Config.reportLen_pos hs.cfg)
    obtain e | e := storeChunk_log_of_fits (s := restarted s) fits h <;>
      cases hsync : s.rx.syncFound <;> simp [newOutputs, e, hsync]
  · unfold dataChunk at h
    split at h
    · next synced =>
      have fits := chunk_fits hs.cfg hs.reassembler.wholeChunks (hs.reassembler.partialReport synced).2
      obtain e | e := storeChunk_log_of_fits fits h <;> simp [newOutputs, e]
    · cases h
      simp [newOutputs]

/-- The floor is no longer than any interval between sends. -/
structure FloorBelowIntervals (timing : Timing) : Prop where
  fast : timing.txFloor ≤ timing.minIvFast
  mid : timing.txFloor ≤ timing.minIvMid
  slow : timing.txFloor ≤ timing.minIvSlow

theorem FloorBelowIntervals.le_minInterval {cfg : Config} (h : FloorBelowIntervals cfg.timing) (v : I32) :
    cfg.timing.txFloor ≤ minInterval cfg v := by
  unfold minInterval
  split
  · exact h.fast
  · split
    · exact h.mid
    · exact h.slow

/-- Past the floor an attempted send raises no `TX_FLOOR`, and the two send times move together (R172, R176). -/
theorem attemptSend_times (floor : s.cfg.timing.txFloor ≤ elapsed now s.txLast) (agree : s.txLast = s.sch.lastSend)
    (h : attemptSend now tr s = .next t) : t.txLast = t.sch.lastSend ∧ .raised .txFloor ∉ newOutputs s t := by
  obtain ⟨below, -⟩ | ⟨-, -, e⟩ | ⟨-, -, e⟩ | ⟨-, -, e⟩ := attemptSend_cases now tr s
  · exact absurd floor (Nat.not_le_of_lt below)
  · cases e.symm.trans h
    exact ⟨rfl, by simp [newOutputs]⟩
  · cases e.symm.trans h
    exact ⟨agree, by simp [newOutputs]⟩
  · cases e.symm.trans h
    exact ⟨agree, by simp [newOutputs]⟩

/-- A send that its interval lets pass is past the floor (R177). -/
theorem phUsbSend_times (intervals : FloorBelowIntervals s.cfg.timing) (agree : s.txLast = s.sch.lastSend)
    (h : phUsbSend now tr s = .next t) : t.txLast = t.sch.lastSend ∧ .raised .txFloor ∉ newOutputs s t := by
  have agree' : (takenState s).txLast = (takenState s).sch.lastSend := by rw [takenState_txLast, takenState_sch, agree]
  by_cases wanted : sendWanted s now
  · rw [phUsbSend_of_wanted wanted] at h
    have passed : minInterval s.cfg (motionTaken s) ≤ elapsed now s.sch.lastSend := wanted.2
    have floor := (intervals.le_minInterval _).trans (agree ▸ passed)
    have times := attemptSend_times (s := takenState s) (by rwa [takenState_cfg, takenState_txLast]) agree' h
    rwa [newOutputs, takenState_log] at times
  · cases (phUsbSend_of_not_wanted wanted).symm.trans h
    exact ⟨agree', by simp [newOutputs]⟩

theorem BodyRan.times (intervals : FloorBelowIntervals s.cfg.timing) (agree : s.txLast = s.sch.lastSend)
    (h : BodyRan s p u) : u.txLast = u.sch.lastSend ∧ .raised .txFloor ∉ newOutputs s u := by
  cases h with
  | encoder =>
    obtain ⟨_, _, e, -⟩ := phEncoder_frame s
    rw [e]; exact ⟨agree, by simp [newOutputs]⟩
  | buttons now keys =>
    refine ⟨?_, fun raised => nomatch (phButtons_puts now keys s).source_eq raised⟩
    obtain ⟨_, _, _, e, rfl | ⟨_, _, rfl⟩⟩ := phButtons_frame now keys s <;> rw [e] <;> exact agree
  | rotary now rotN =>
    refine ⟨?_, fun raised => nomatch (phRotary_puts now rotN s).source_eq raised⟩
    obtain ⟨_, _, _, e, rfl | rfl | rfl⟩ := phRotary_frame now rotN s <;> rw [e] <;> exact agree
  | usbSend sent => exact phUsbSend_times intervals agree sent

end Guards

/-- Settles O30: an overflow would come from a chunk, and from the invariant every chunk fits. -/
theorem overflowNeverRaised : Obligations.OverflowNeverRaised := by
  intro s t i hs h n raised
  obtain ⟨src, puts, inbound, -⟩ := exec_puts h
  exact (inbound (puts.source_eq raised).symm).no_overflow hs n raised

/-- Settles O48: phase USB_SEND alone sends, and only once its interval, and so the floor, has passed. -/
theorem floorIsShadowed : Obligations.FloorIsShadowed := by
  intro s t i agree notSend fast mid slow h
  obtain ⟨-, hd⟩ | ⟨p, u, -, hb, ht⟩ := exec_cases h
  · obtain ⟨hsch, htx, -⟩ := hd.frame
    obtain ⟨src, puts, -, outbound⟩ := hd.puts
    exact ⟨by rw [htx.resolve_left notSend, hsch, agree], fun raised => notSend (outbound (puts.source_eq raised).symm)⟩
  · have times := hb.times ⟨fast, mid, slow⟩ agree
    obtain rfl | rfl := ht <;> exact times

end Sys2Proof.Machine

/-! ## Data chunks and whole reports (43_reassembler.md R150, R152, R154, R161)

Both operations that carry a data chunk handle it alike (`exec_dataChunk`). The six chunks that carry the bytes of a report
store these bytes in one piece (`reportChunks_bytes`), and decoding undoes the encoding field by field
(`decodeReport_encodeReport`). -/

namespace Sys2Proof.Machine

section Data
variable {c : Chunk} {s : State} {i : Instr}

theorem exec_dataChunk (may : mayIssue s.cfg s.ctx i = true) (data : c.extractLsb' 0 16 ≠ magic)
    (hi : i = .rxChunk c ∨ i = .rxcData c) : exec i s = dataChunk c s := by
  obtain rfl | rfl := hi
  · exact (issued_of_may may).trans (if_neg (mt isMarker_iff.1 data))
  · exact issued_of_may may

theorem dataChunk_of_synced (synced : s.rx.syncFound = true) : dataChunk c s = storeChunk c s := if_pos synced

/-- The scratch buffer after a chunk is stored (R152). -/
theorem storedBytes_chunk_get (hok : s.buf.Ok s.cfg) (a : Nat) :
    (storedBytes (chunkBytes c) s).buf.scr.get a =
      if s.rx.offset ≤ a ∧ a < s.rx.offset + 7 then c.extractLsb' (8 * (a - s.rx.offset)) 8 else s.byteAt .scr a := by
  rw [← spells_chunkBytes c]
  exact storedBytes_byteAt_scr (hok.canonical .scr) (chunkBytes c) a

@[simp] theorem storedBytes_cfg (bs : List Byte) (s : State) : (storedBytes bs s).cfg = s.cfg := by
  rw [storedBytes, State.withRx_cfg, State.withBuf_cfg]

@[simp] theorem storedBytes_shr (bs : List Byte) (s : State) : (storedBytes bs s).buf.shr = s.buf.shr := by
  rw [storedBytes, State.withRx_buf, State.withBuf_buf, Buffers.set_shr_of_scr]

/-- A completion writes the shared report, the sync flag and the outputs (R154, R155). -/
theorem completed_frame (s : State) : completed s =
    { s with
      rx := { s.rx with syncFound := false }
      buf := { s.buf with shr := (completed s).buf.shr }
      shr := { valid := true, dayKey := s.buf.scr.get s.cfg.layout.dayKey.val }
      log := s.log ++ [.notifyStatus] } := rfl

/-- The shared report after a completion: the scratch bytes below the report's length, and no others (R154). -/
theorem completed_get (hok : s.buf.Ok s.cfg) (a : Nat) :
    (completed s).buf.shr.get a = if a < s.cfg.reportLen then s.buf.scr.get a else 0#8 := by
  split
  · next ha => exact completed_bytes (hok.canonical .shr) ha
  · next ha =>
    have read := Memory.get_setBytes 0 a (s.buf.scr.getBytes 0 s.cfg.reportLen) (hok.canonical .shr)
    rw [if_neg (by simpa using ha)] at read
    exact read.trans (Memory.get_of_below (hok.inside .shr) (Nat.le_of_not_lt ha))

end Data

/-- Settles O27. -/
theorem dataChunkIsStored : Obligations.DataChunkIsStored := by
  intro s c i may hok data synced room short hi
  refine ⟨_, ?_, storedBytes_chunk_get hok⟩
  rw [exec_dataChunk may data hi, dataChunk_of_synced synced, storeChunk_of_partial room short]
  rfl

/-- Settles O28. -/
theorem discardedChunks : Obligations.DiscardedChunks := by
  intro s c i may data hi
  rw [exec_dataChunk may data hi]
  refine ⟨fun unsynced => ?_, fun synced full => ?_⟩
  · exact if_neg (by simp [unsynced])
  · rw [dataChunk_of_synced synced]
    exact if_pos full

/-- Settles O29: the chunk is stored, and what is below the report's length is published. -/
theorem reportCompletes : Obligations.ReportCompletes := by
  intro s c i may hok _ data synced room reached hi
  have read := storedBytes_chunk_get (c := c) hok
  have ok : (storedBytes (chunkBytes c) s).buf.Ok s.cfg := hok.setBytes .scr room
  obtain ⟨b, stored⟩ : ∃ b, storedBytes (chunkBytes c) s =
      (s.withBuf { s.buf with scr := b }).withRx { s.rx with offset := s.rx.offset + 7 } := ⟨_, rfl⟩
  rw [stored] at read ok
  refine ⟨b, _, ?_, read, completed_get (s := (s.withBuf { s.buf with scr := b }).withRx _) ok⟩
  rw [exec_dataChunk may data hi, dataChunk_of_synced synced, storeChunk_of_reached room reached, stored]
  exact congrArg Host.Outcome.next (completed_frame _)

section Reports
variable {s : State} {r : InboundReport} {m : Memory} {bs : List Byte} {w : U16} {a : Nat}

theorem chunkBytes_chunkOfBytes (b0 b1 b2 b3 b4 b5 b6 : Byte) :
    chunkBytes (chunkOfBytes b0 b1 b2 b3 b4 b5 b6) = [b0, b1, b2, b3, b4, b5, b6] := by
  simp (disch := decide) only [chunkBytes, chunkOfBytes, List.map_cons, List.map_nil, chunkByte,
    BitVec.extractLsb'_append_eq_of_add_le, BitVec.extractLsb'_append_eq_of_le, Nat.reduceMul, Nat.reduceSub, extractLsb'_all]

theorem chunkBytes_chunkAt (bs : List Byte) (k : Nat) :
    chunkBytes (chunkAt bs k) = (List.range' k 7).map fun a => bs.getD a 0#8 :=
  chunkBytes_chunkOfBytes ..

/-- The six chunks of a report carry its bytes in order, with zeros behind them (R161). -/
theorem reportChunks_bytes (bs : List Byte) :
    (reportChunks bs).flatMap chunkBytes = (List.range 42).map fun a => bs.getD a 0#8 := by
  have offsets : [0, 7, 14, 21, 28, 35].flatMap (List.range' · 7) = List.range 42 := by decide
  simp only [reportChunks, List.flatMap_map, chunkBytes_chunkAt, ← offsets, List.map_flatMap]

/-- A chunk begins with its first two bytes (R73). -/
theorem chunkAt_head (bs : List Byte) (k : Nat) :
    (chunkAt bs k).extractLsb' 0 16 = magic ↔ (bs.getD k 0#8, bs.getD (k + 1) 0#8) = (0xFE#8, 0xFD#8) := by
  have bytes := spells_chunkBytes (chunkAt bs k)
  rw [chunkAt, chunkBytes_chunkOfBytes] at bytes
  rw [Prod.mk.injEq]
  exact (head16_eq_magic_iff _).trans (by rw [← chunkAt] at bytes; exact (bytes 0) ▸ (bytes 1) ▸ Iff.rfl)

theorem wordAt_of_bytes (low : m.get a = w.extractLsb' 0 8) (high : m.get (a + 1) = w.extractLsb' 8 8) :
    wordAt m a = w := by
  rw [wordAt, low, high]
  exact (append_fields (lo := 0) (n := 8) rfl).trans (extractLsb'_all w)

theorem axisAt_of_bytes {l : Layout} {i : Fin 6} {x : Axis}
    (int0 : m.get l.axisInteger[i].val = x.integerPart.extractLsb' 0 8)
    (int1 : m.get (l.axisInteger[i].val + 1) = x.integerPart.extractLsb' 8 8)
    (frac0 : m.get l.axisFraction[i].val = x.fractionalPart.extractLsb' 0 8)
    (frac1 : m.get (l.axisFraction[i].val + 1) = x.fractionalPart.extractLsb' 8 8) : axisAt l m i = x := by
  rw [axisAt, wordAt_of_bytes int0 int1, wordAt_of_bytes frac0 frac1]

theorem vector_six {α : Type} (v : Vector α 6) : v = #v[v[0], v[1], v[2], v[3], v[4], v[5]] := by
  ext i hi
  interval_cases i <;> rfl

/-- Decoding a report image gives the report it encodes, field by field (R74, R161). -/
theorem decodeReport_encodeReport (h : ∀ a, a < 37 → m.get a = (encodeReport r).getD a 0#8) : decodeReport {} m = r := by
  obtain ⟨axes, feedRate, feedOverride, spindleSpeed, spindleOverride, stepMultiplier, machineState, dayKey⟩ := r
  have six := vector_six axes
  generalize axes[0] = x0, axes[1] = x1, axes[2] = x2, axes[3] = x3, axes[4] = x4, axes[5] = x5 at six
  subst six
  simp only [encodeReport, wordBytes, Vector.toList_mk, List.flatMap_cons, List.flatMap_nil, List.cons_append, List.nil_append,
    List.append_nil] at h
  have axis0 : axisAt {} m 0 = x0 := axisAt_of_bytes (h 2 (by decide)) (h 3 (by decide)) (h 4 (by decide)) (h 5 (by decide))
  have axis1 : axisAt {} m 1 = x1 := axisAt_of_bytes (h 6 (by decide)) (h 7 (by decide)) (h 8 (by decide)) (h 9 (by decide))
  have axis2 : axisAt {} m 2 = x2 :=
    axisAt_of_bytes (h 10 (by decide)) (h 11 (by decide)) (h 12 (by decide)) (h 13 (by decide))
  have axis3 : axisAt {} m 3 = x3 :=
    axisAt_of_bytes (h 14 (by decide)) (h 15 (by decide)) (h 16 (by decide)) (h 17 (by decide))
  have axis4 : axisAt {} m 4 = x4 :=
    axisAt_of_bytes (h 18 (by decide)) (h 19 (by decide)) (h 20 (by decide)) (h 21 (by decide))
  have axis5 : axisAt {} m 5 = x5 :=
    axisAt_of_bytes (h 22 (by decide)) (h 23 (by decide)) (h 24 (by decide)) (h 25 (by decide))
  simp only [decodeReport, axis0, axis1, axis2, axis3, axis4, axis5]
  congr 1
  · exact wordAt_of_bytes (h 26 (by decide)) (h 27 (by decide))
  · exact wordAt_of_bytes (h 28 (by decide)) (h 29 (by decide))
  · exact wordAt_of_bytes (h 30 (by decide)) (h 31 (by decide))
  · exact wordAt_of_bytes (h 32 (by decide)) (h 33 (by decide))
  · exact h 34 (by decide)
  · exact h 35 (by decide)
  · exact h 36 (by decide)

/-- A completed report that shows the image of `r` under the default offsets makes `r` and its day key visible (R154, R161). -/
theorem completed_visible (layout : s.cfg.layout = {}) (hw : s.buf.shr.wf = true) (hlen : s.cfg.reportLen = 37)
    (image : ∀ a, a < 37 → (completed s).byteAt .shr a = (encodeReport r).getD a 0#8) :
    State.visibleReport (completed s) = some r ∧ (completed s).shr.dayKey = r.dayKey := by
  have decoded : decodeReport {} (completed s).buf.shr = r := decodeReport_encodeReport image
  have day : (completed s).shr.dayKey = (completed s).buf.shr.get s.cfg.layout.dayKey.val :=
    (completed_bytes hw (by rw [layout, hlen]; decide)).symm
  have visible : State.visibleReport (completed s) = some (decodeReport s.cfg.layout (completed s).buf.shr) := rfl
  rw [visible, day, layout, decoded]
  exact ⟨rfl, congrArg InboundReport.dayKey decoded⟩

/-- The bytes of an image, stored from the start of a report and completed, make the report it encodes visible. -/
theorem completed_image_visible (hok : s.buf.Ok s.cfg) (start : s.rx.offset = 0) (layout : s.cfg.layout = {})
    (hlen : s.cfg.reportLen = 37) (image : ∀ a, a < 37 → bs.getD a 0#8 = (encodeReport r).getD a 0#8)
    (long : 37 ≤ bs.length) :
    State.visibleReport (completed (storedBytes bs s)) = some r ∧ (completed (storedBytes bs s)).shr.dayKey = r.dayKey := by
  refine completed_visible (by rw [storedBytes_cfg, layout]) ?_ (by rw [storedBytes_cfg, hlen]) fun a ha => ?_
  · rw [storedBytes_shr]
    exact hok.canonical .shr
  · rw [← image a ha]
    exact completed_storedBytes_byteAt_shr (hok.canonical .scr) (hok.canonical .shr) start (ha.trans_eq hlen.symm)
      (hlen.trans_le long)

end Reports

/-- Settles O32: the six chunks publish the image of the report, and the image decodes to it. -/
theorem reportRoundTrip : Obligations.ReportRoundTrip := by
  intro s r hok hlen layout notMarker
  have marker : (chunkAt (encodeReport r) 0).extractLsb' 0 16 = magic := (chunkAt_head _ 0).2 rfl
  have data : ∀ c ∈ [7, 14, 21, 28, 35].map (chunkAt (encodeReport r)), c.extractLsb' 0 16 ≠ magic := by
    simp only [List.forall_mem_map]
    exact fun k hk => mt (chunkAt_head _ k).1 (notMarker k hk)
  have run := runOps_report (s := s) marker data (by omega) (by simp) (by simp [hlen]) (by simp [hlen])
  rw [← List.map_cons, ← reportChunks, reportChunks_bytes] at run
  refine ⟨_, run, completed_image_visible hok rfl layout hlen (fun a ha => ?_) (by simp)⟩
  rw [List.getD_eq_getElem _ _ (by simp; omega), List.getElem_map, List.getElem_range]

end Sys2Proof.Machine

/-! ## The rotary switch (42_rotary.md R140 to R144)

A read is its latch (`exec_rmRead_latch`), and `latch_cases` says what the latch does. The lowest low line is the head of the
low lines, since lines are listed in rising order (`filter_of_least`). -/

namespace Sys2Proof.Machine

section Least
variable {n : Nat} {l : List (Fin n)} {q : Fin n → Bool} {k : Fin n}

/-- Among the members of a rising list that satisfy `q`, the least comes first. -/
theorem filter_of_least (rising : l.Pairwise (· < ·)) (hk : k ∈ l) (hq : q k = true) (least : ∀ j, j < k → q j = false) :
    l.filter q = k :: l.filter fun j => q j && decide (k < j) := by
  induction l with
  | nil => cases hk
  | cons a l ih =>
    obtain ⟨above, rising⟩ := List.pairwise_cons.1 rising
    obtain rfl | hk := List.mem_cons.1 hk
    · rw [List.filter_cons_of_pos hq, List.filter_cons_of_neg (by simp)]
      exact congrArg (List.cons k) (List.filter_congr fun j hj => by simp [above j hj])
    · have below := above k hk
      rw [List.filter_cons_of_neg (by simp [least a below]), List.filter_cons_of_neg (by simp [least a below]), ih rising hk]

theorem finRange_rising (n : Nat) : (List.finRange n).Pairwise (· < ·) := List.pairwise_lt_finRange n

end Least

section Read
variable {now : U32} {rotN : BitVec 6} {s : State} {i : Fin 6} {rm : Rotary} {changed : Bool}

/-- The lowest low line heads the low lines, and the others follow (decision D18). -/
theorem lowLines_of_lowest (low : rotN.getLsbD i.val = false) (lowest : ∀ j : Fin 6, j < i → rotN.getLsbD j.val = true) :
    lowLines rotN = i :: (List.finRange 6).filter fun j => !rotN.getLsbD j.val && decide (i < j) :=
  filter_of_least (finRange_rising 6) (List.mem_finRange i) (by rw [low]; rfl) fun j hj => by rw [lowest j hj]; rfl

theorem rotDecode_of_lowest (low : rotN.getLsbD i.val = false) (lowest : ∀ j : Fin 6, j < i → rotN.getLsbD j.val = true) :
    rotDecode s.cfg rotN = s.cfg.modeCode[i] := by
  rw [rotDecode, lowLines_of_lowest low lowest]

/-- `ROT_MULTI` is for a second low line (60_exceptions.md R190, E8). -/
theorem rotMultiple_of_lowest (low : rotN.getLsbD i.val = false)
    (lowest : ∀ j : Fin 6, j < i → rotN.getLsbD j.val = true) :
    rotMultiple rotN = decide (∃ j : Fin 6, i < j ∧ rotN.getLsbD j.val = false) := by
  rw [rotMultiple, lowLines_of_lowest low lowest, decide_eq_decide, List.length_cons, Nat.lt_add_left_iff_pos,
    List.length_pos_iff_exists_mem]
  simp only [List.mem_filter, List.mem_finRange, true_and, Bool.and_eq_true, Bool.not_eq_true', decide_eq_true_eq]
  exact exists_congr fun j => And.comm

/-- A position's code is not the off code (30_encoding.md R82). -/
theorem modeCode_ne_off {cfg : Config} (h : cfg.modesOk = true) (i : Fin 6) : cfg.modeCode[i] ≠ cfg.modeOff := by
  obtain ⟨notMem, -⟩ := List.nodup_cons.1 (of_decide_eq_true h)
  exact fun e => notMem (e ▸ by simp [Vector.mem_toList_iff])

/-- A read does to the state what its latch does to the reader (R141). -/
theorem exec_rmRead_latch (hctx : s.ctx = .main) (e : latch s.cfg now (rotDecode s.cfg rotN) s.rm = (rm, changed)) :
    exec (.rmRead now rotN) s = .next ((emits (if rotMultiple rotN then [.raised .rotMulti] else [])
      (s.withRm rm)).withRet (.modeRead rm.stable changed)) := by
  rw [exec_rmRead_main hctx, rmRead, e]
  rfl

/-- A read with all lines high decodes to off and raises nothing (R140). -/
theorem exec_rmRead_open (hctx : s.ctx = .main) (e : latch s.cfg now s.cfg.modeOff s.rm = (rm, changed)) :
    exec (.rmRead now 0b111111#6) s = .next ((s.withRm rm).withRet (.modeRead rm.stable changed)) := by
  rw [exec_rmRead_latch hctx (rotN := 0b111111#6) e]
  exact congrArg (fun l => Host.Outcome.next (((s.withRm rm).withLog l).withRet (.modeRead rm.stable changed)))
    (List.append_nil _)

/-- A read that sees position `i` (R142). -/
theorem exec_rmRead_position (hctx : s.ctx = .main) (modes : s.cfg.modesOk = true) (low : rotN.getLsbD i.val = false)
    (lowest : ∀ j : Fin 6, j < i → rotN.getLsbD j.val = true) :
    exec (.rmRead now rotN) s = .next
      { s with
        rm := { s.rm with stable := s.cfg.modeCode[i], offPending := false }
        log := s.log ++ (if ∃ j : Fin 6, i < j ∧ rotN.getLsbD j.val = false then [.raised .rotMulti] else [])
        ret := .modeRead s.cfg.modeCode[i] (decide (s.cfg.modeCode[i] ≠ s.rm.stable)) } := by
  have latched : latch s.cfg now (rotDecode s.cfg rotN) s.rm =
      ({ s.rm with stable := s.cfg.modeCode[i], offPending := false }, decide (s.cfg.modeCode[i] ≠ s.rm.stable)) := by
    have notOff := modeCode_ne_off modes i
    rw [rotDecode_of_lowest low lowest]
    obtain ⟨-, moved, e⟩ | ⟨-, same, e⟩ | ⟨off, -⟩ | ⟨off, -⟩ | ⟨off, -⟩ | ⟨off, -⟩ :=
      latch_cases s.cfg now s.cfg.modeCode[i] s.rm
    · rw [e, decide_eq_true moved]
    · rw [e, same]; simp
    all_goals exact absurd off notOff
  rw [exec_rmRead_latch hctx latched, rotMultiple_of_lowest low lowest]
  simp only [decide_eq_true_eq]
  rfl

end Read

/-- Settles O23. -/
theorem intoPositionIsImmediate : Obligations.IntoPositionIsImmediate :=
  fun _ _ _ _ hctx modes low lowest => exec_rmRead_position hctx modes low lowest

/-- Settles O24: the three ways the latch takes an off reading. -/
theorem offOnlyAfterSettling : Obligations.OffOnlyAfterSettling := by
  intro s now hctx
  obtain ⟨on, -⟩ | ⟨on, -⟩ | ⟨-, off, e⟩ | ⟨-, notOff, idle, e⟩ | ⟨-, notOff, pending, settled, e⟩ |
    ⟨-, notOff, pending, unsettled, e⟩ := latch_cases s.cfg now s.cfg.modeOff s.rm
  · exact absurd rfl on
  · exact absurd rfl on
  · refine ⟨fun _ => ?_, fun h => absurd off h, fun h => absurd off h⟩
    rw [← off]
    exact exec_rmRead_open hctx e
  · refine ⟨fun h => absurd h notOff, fun _ _ => exec_rmRead_open hctx e, fun _ h => (nomatch idle.symm.trans h)⟩
  · refine ⟨fun h => absurd h notOff, fun _ h => (nomatch pending.symm.trans h), fun _ _ => ?_⟩
    rw [elapsed] at settled
    rw [exec_rmRead_open hctx e, if_pos settled]
    rfl
  · refine ⟨fun h => absurd h notOff, fun _ h => (nomatch pending.symm.trans h), fun _ _ => ?_⟩
    rw [elapsed] at unsettled
    rw [exec_rmRead_open hctx e, if_neg (Nat.not_le_of_lt unsettled)]
    rfl

section Flicker
variable {s t : State} {mode : Byte} {t1 : U32} {times : List U32}

theorem runOps_append (ops ops' : List (Context × Instr)) (s : State) :
    runOps (ops ++ ops') s = chain (runOps ops s) (runOps ops') := by
  induction ops generalizing s with
  | nil => rfl
  | cons op ops ih =>
    obtain ⟨c, i⟩ := op
    rw [List.cons_append, runOps, runOps]
    cases exec i (enterContext c s) with
    | next t => exact ih t
    | fault | refused => rfl

/-- Off was first seen at `t1` while `mode` was stable, and the last read returned `mode` (R143). -/
structure OffPendingSince (cfg : Config) (mode : Byte) (t1 : U32) (s : State) : Prop where
  cfg : s.cfg = cfg
  rm : s.rm = { stable := mode, offPending := true, offSince := t1 }
  ret : s.ret = .modeRead mode false

/-- An operation issued directly, and the run after it. -/
theorem runOps_cons_of_next {c : Context} {i : Instr} {ops : List (Context × Instr)}
    (h : exec i (enterContext c s) = .next t) : runOps ((c, i) :: ops) s = runOps ops t := by
  rw [runOps, h, chain_next]

/-- Open reads within the settle window leave off pending (R144). -/
theorem runOps_openReads {cfg : Config} (hs : OffPendingSince cfg mode t1 s) (notOff : mode ≠ cfg.modeOff)
    (early : ∀ n ∈ times, (n - t1).toNat < cfg.timing.rotSettle) :
    ∃ u, runOps (times.map fun n => (.main, .rmRead n 0b111111#6)) s = .next u ∧ OffPendingSince cfg mode t1 u := by
  induction times generalizing s with
  | nil => exact ⟨s, rfl, hs⟩
  | cons n times ih =>
    obtain ⟨now, later⟩ := List.forall_mem_cons.1 early
    obtain ⟨rfl, hrm, hret⟩ := hs
    have latched : latch s.cfg n s.cfg.modeOff s.rm = (s.rm, false) := by
      rw [hrm, latch, if_neg (by simp), if_neg notOff, if_neg (by simp)]
      exact if_neg (Nat.not_le_of_lt now)
    rw [List.map_cons, runOps_cons_of_next (exec_rmRead_open (s := enterContext .main s) rfl latched)]
    exact ih ⟨rfl, hrm, by rw [hrm]; rfl⟩ later

end Flicker

/-- Settles O25: the first open read makes off pending, the next ones leave it pending, and the position clears it. -/
theorem rotaryFlickerNeverReportsOff : Obligations.RotaryFlickerNeverReportsOff := by
  intro s i t1 tBack times rotN modes atPosition idle early low lowest
  have notOff := modeCode_ne_off modes i
  have firstRead : latch s.cfg t1 s.cfg.modeOff s.rm = ({ s.rm with offPending := true, offSince := t1 }, false) := by
    rw [latch, if_neg (by simp), if_neg (by rw [atPosition]; exact notOff), if_pos idle]
  have ran := exec_rmRead_open (s := enterContext .main s) rfl firstRead
  obtain ⟨u, run, ⟨hcfg, hrm, hret⟩⟩ := runOps_openReads (cfg := s.cfg) (mode := s.cfg.modeCode[i]) (t1 := t1) (times := times)
    (s := ((enterContext .main s).withRm { s.rm with offPending := true, offSince := t1 }).withRet (.modeRead s.rm.stable false))
    ⟨rfl, by rw [← atPosition]; rfl, by rw [← atPosition]; rfl⟩ notOff early
  have opened := (runOps_cons_of_next ran).trans run
  refine ⟨⟨u, opened, hret, by rw [hrm]⟩, ?_⟩
  have back := exec_rmRead_position (now := tBack) (s := enterContext .main u) rfl (by rw [← modes, ← hcfg]; rfl) low lowest
  rw [← List.cons_append, runOps_append, opened, chain_next, runOps_cons_of_next back]
  have code : u.cfg.modeCode[i] = s.cfg.modeCode[i] := by rw [hcfg]
  have unmoved : decide (u.cfg.modeCode[i] ≠ u.rm.stable) = false := by simp [hcfg, hrm]
  exact ⟨_, rfl, congrArg₂ Returned.modeRead code unmoved, code, rfl⟩

end Sys2Proof.Machine

/-! ## The raw scan and the debounce window (41_keymatrix.md R121 to R123, R132)

The keys down come in rising order, so what a scan records is told by which keys are down (`rawScan_cases`). -/

namespace Sys2Proof.Machine

section Raw
variable {cfg : Config} {keys : BitVec 16} {a b k : Fin 16}

/-- The scan order is the order of the crossings' indices (R121). -/
theorem pressedKeys_eq (keys : BitVec 16) : pressedKeys keys = keysDown keys := by
  have order : scanOrder = List.finRange 16 := by decide
  rw [pressedKeys, keysDown, order]
  exact List.filter_congr fun k _ => by rw [keyDown, Nat.div_add_mod]

theorem mem_keysDown : k ∈ keysDown keys ↔ keys.getLsbD k.val = true := by
  simp [keysDown]

theorem keysDown_rising (keys : BitVec 16) : (keysDown keys).Pairwise (· < ·) := (finRange_rising 16).filter _

/-- What a scan records, by the keys down: none, one, or the least two of more (R121). -/
inductive RawScanned (cfg : Config) (keys : BitVec 16) : KeyPair → Prop
  | none (up : ∀ j : Fin 16, keys.getLsbD j.val = false) : RawScanned cfg keys { first := 0#8, second := 0#8 }
  | one {a : Fin 16} (down : ∀ j : Fin 16, keys.getLsbD j.val = true ↔ j = a) :
      RawScanned cfg keys { first := cfg.keycode[a], second := 0#8 }
  | two {a b : Fin 16} (lt : a < b) (downA : keys.getLsbD a.val = true) (downB : keys.getLsbD b.val = true)
      (others : ∀ j : Fin 16, keys.getLsbD j.val = true → j = a ∨ b ≤ j) :
      RawScanned cfg keys { first := cfg.keycode[a], second := cfg.keycode[b] }

theorem rawScan_cases (cfg : Config) (keys : BitVec 16) : RawScanned cfg keys (rawScan cfg keys) := by
  have rising := keysDown_rising keys
  have mem (j : Fin 16) := mem_keysDown (keys := keys) (k := j)
  unfold rawScan
  rw [pressedKeys_eq]
  match keysDown keys, rising, mem with
  | [], _, mem => exact .none fun j => by simpa using mem j
  | [a], _, mem => exact .one fun j => by rw [← mem j, List.mem_singleton]
  | a :: b :: rest, rising, mem =>
    obtain ⟨aboveA, rising⟩ := List.pairwise_cons.1 rising
    obtain ⟨aboveB, -⟩ := List.pairwise_cons.1 rising
    refine .two (aboveA b List.mem_cons_self) ((mem a).1 List.mem_cons_self)
      ((mem b).1 (List.mem_cons_of_mem a List.mem_cons_self)) fun j hj => ?_
    obtain rfl | hj := List.mem_cons.1 ((mem j).2 hj)
    · exact .inl rfl
    · obtain rfl | hj := List.mem_cons.1 hj
      · exact .inr le_rfl
      · exact .inr (aboveB j hj).le

/-- Key codes tell keys apart (30_encoding.md R83). -/
theorem keycode_inj (h : cfg.keysOk = true) : cfg.keycode[a] = cfg.keycode[b] ↔ a = b :=
  ⟨keycode_injective h, fun e => by rw [e]⟩

theorem keys_eq_zero_iff : keys = 0#16 ↔ ∀ j : Fin 16, keys.getLsbD j.val = false := by
  refine ⟨fun h j => by simp [h], fun h => BitVec.eq_of_getLsbD_eq fun i hi => ?_⟩
  rw [h ⟨i, hi⟩, BitVec.getLsbD_zero]

/-- The first code recorded is that of the key down with none down before it (R121). -/
theorem RawScanned.first_iff {raw : KeyPair} (h : RawScanned cfg keys raw) (ok : cfg.keysOk = true) :
    raw.first = cfg.keycode[k] ↔ keys.getLsbD k.val = true ∧ ∀ j : Fin 16, j < k → keys.getLsbD j.val = false := by
  cases h with
  | none up => exact iff_of_false (keycode_ne_zero ok k).symm fun ⟨down, _⟩ => absurd ((up k).symm.trans down) (by decide)
  | @one a down =>
    rw [keycode_inj ok]
    refine ⟨?_, fun ⟨downK, _⟩ => ((down k).1 downK).symm⟩
    rintro rfl
    exact ⟨(down a).2 rfl, fun j before => Bool.eq_false_iff.2 fun downJ => before.ne ((down j).1 downJ)⟩
  | @two a b lt downA downB others =>
    rw [keycode_inj ok]
    constructor
    · rintro rfl
      refine ⟨downA, fun j before => Bool.eq_false_iff.2 fun downJ => ?_⟩
      obtain e | le := others j downJ
      · exact before.ne e
      · exact absurd (lt.trans_le le) before.asymm
    · rintro ⟨downK, least⟩
      refine ((others k downK).resolve_right fun le => ?_).symm
      exact absurd ((least a (lt.trans_le le)).symm.trans downA) (by decide)

/-- The second code recorded is that of the key down with exactly one down before it (R121). -/
theorem RawScanned.second_iff {raw : KeyPair} (h : RawScanned cfg keys raw) (ok : cfg.keysOk = true) :
    raw.second = cfg.keycode[k] ↔ keys.getLsbD k.val = true ∧ ∃ i : Fin 16, i < k ∧ keys.getLsbD i.val = true ∧
      ∀ j : Fin 16, j < k → keys.getLsbD j.val = true → j = i := by
  cases h with
  | none up => exact iff_of_false (keycode_ne_zero ok k).symm fun ⟨down, _⟩ => absurd ((up k).symm.trans down) (by decide)
  | one down =>
    exact iff_of_false (keycode_ne_zero ok k).symm fun ⟨downK, i, before, downI, _⟩ =>
      before.ne (((down i).1 downI).trans ((down k).1 downK).symm)
  | @two a b lt downA downB others =>
    rw [keycode_inj ok]
    constructor
    · rintro rfl
      exact ⟨downB, a, lt, downA, fun j before downJ => (others j downJ).resolve_right (not_le.2 before)⟩
    · rintro ⟨downK, i, before, downI, only⟩
      obtain rfl | le := others k downK
      · obtain e | le := others i downI
        · exact absurd e before.ne
        · exact absurd (lt.trans_le le) before.asymm
      · refine le.eq_of_not_lt fun beyond => lt.ne ?_
        exact (only a (lt.trans beyond) downA).trans (only b beyond downB).symm

theorem RawScanned.first_eq_zero_iff {raw : KeyPair} (h : RawScanned cfg keys raw) (ok : cfg.keysOk = true) :
    raw.first = 0#8 ↔ keys = 0#16 := by
  rw [keys_eq_zero_iff]
  cases h with
  | none up => exact iff_of_true rfl up
  | @one a down =>
    exact iff_of_false (keycode_ne_zero ok a) fun up => absurd ((up a).symm.trans ((down a).2 rfl)) (by decide)
  | @two a _ _ downA => exact iff_of_false (keycode_ne_zero ok a) fun up => absurd ((up a).symm.trans downA) (by decide)

theorem RawScanned.second_eq_zero_iff {raw : KeyPair} (h : RawScanned cfg keys raw) (ok : cfg.keysOk = true) :
    raw.second = 0#8 ↔ ∀ i j : Fin 16, keys.getLsbD i.val = true → keys.getLsbD j.val = true → i = j := by
  cases h with
  | none up => exact iff_of_true rfl fun i _ downI => absurd ((up i).symm.trans downI) (by decide)
  | one down => exact iff_of_true rfl fun i j downI downJ => ((down i).1 downI).trans ((down j).1 downJ).symm
  | @two a b lt downA downB =>
    exact iff_of_false (keycode_ne_zero ok b) fun same => lt.ne (same a b downA downB)

end Raw

section Scan
variable {s t : State} {now : U32} {keys : BitVec 16}

theorem debounce_lastRaw (cfg : Config) (now : U32) (raw : KeyPair) (km : KeyScanner) :
    (debounce cfg now raw km).lastRaw = raw := by
  obtain ⟨-, e⟩ | ⟨same, -, e⟩ | ⟨same, -, e⟩ := debounce_cases cfg now raw km <;> rw [e]
  · exact same.symm
  · exact same.symm

/-- A scan's pairs and window are the debouncer's (R123). -/
theorem exec_kmScan_pairs (h : exec (.kmScan now keys) s = .next t) :
    t.km.lastRaw = rawScan s.cfg keys ∧
      t.km.lastChange = (debounce s.cfg now (rawScan s.cfg keys) s.km).lastChange ∧
      t.km.stable = (debounce s.cfg now (rawScan s.cfg keys) s.km).stable := by
  obtain ⟨raw, change, stable⟩ := scanKeys_pairs s.cfg now (rawScan s.cfg keys) s.km
  rw [(exec_kmScan h).1, raw, change, stable, debounce_lastRaw]
  exact ⟨rfl, rfl, rfl⟩

end Scan

/-- Settles O14: the recorded pair, by the keys down. -/
theorem rawScanTakesFirstTwo : Obligations.RawScanTakesFirstTwo := by
  intro s now keys hctx ok
  obtain ⟨t, ran⟩ : ∃ t, exec (.kmScan now keys) s = .next t := ⟨_, exec_kmScan_main hctx⟩
  refine ⟨t, ran, ?_⟩
  rw [(exec_kmScan_pairs ran).1]
  have scanned := rawScan_cases s.cfg keys
  exact ⟨fun k => scanned.first_iff ok, fun k => scanned.second_iff ok, scanned.first_eq_zero_iff ok,
    scanned.second_eq_zero_iff ok⟩

section Outputs

/-- A row is driven while fewer than two keys are down in the rows before it (R122). -/
theorem rowsDriven_eq (keys : BitVec 16) :
    rowsDriven keys = (List.range 4).filter fun r => ((keysDown keys).filter fun k => k.val < 4 * r).length < 2 := by
  have before (r : Nat) (k : Fin 16) : k.val / 4 < r ↔ k.val < 4 * r := by omega
  simp only [rowsDriven, pressedKeys_eq, before]
  rfl

/-- What a scan puts out (R122, 60_exceptions.md R190). -/
theorem scanEmissions_eq (keys : BitVec 16) : scanEmissions keys =
    ((List.range 4).filter fun r => ((keysDown keys).filter fun k => k.val < 4 * r).length < 2).map Emission.rowDriven ++
      (if 2 < (keysDown keys).length then [.raised .kmExtraKey] else []) := by
  simp only [scanEmissions, rowsDriven_eq, extraKey, pressedKeys_eq, decide_eq_true_eq]

theorem kmScan_frame_log (now : U32) (keys : BitVec 16) (s : State) :
    ∃ km, (kmScan now keys s).1 = (s.withKm km).withLog (s.log ++ scanEmissions keys) := by
  unfold kmScan
  dsimp only
  rw [emits, State.withKm_log]
  exact ⟨_, rfl⟩

end Outputs

/-- Settles O15. -/
theorem kmScanOutputsAndFrame : Obligations.KmScanOutputsAndFrame := by
  intro s now keys hctx
  obtain ⟨km, e⟩ := kmScan_frame_log now keys s
  refine ⟨km, (kmScan now keys s).2.first, (kmScan now keys s).2.second, ?_⟩
  rw [exec_kmScan_main hctx, e, scanEmissions_eq]
  rfl

/-- Settles O16: the debouncer's three cases. -/
theorem debounceWindow : Obligations.DebounceWindow := by
  intro s t now keys h
  obtain ⟨raw, change, stable⟩ := exec_kmScan_pairs h
  refine ⟨raw, ?_⟩
  rw [change, stable]
  obtain ⟨moved, e⟩ | ⟨same, lasted, e⟩ | ⟨same, young, e⟩ := debounce_cases s.cfg now (rawScan s.cfg keys) s.km <;> rw [e]
  · exact ⟨fun _ => ⟨rfl, rfl⟩, fun same => absurd same moved⟩
  · exact ⟨fun moved => absurd same moved, fun _ => ⟨rfl, (if_pos lasted).symm⟩⟩
  · exact ⟨fun moved => absurd same moved, fun _ => ⟨rfl, (if_neg (Nat.not_le_of_lt young)).symm⟩⟩

section Flicker
variable {s t : State} {now t1 : U32} {keys : BitVec 16} {times : List U32} {raw stable : KeyPair} {cfg : Config}

/-- The raw pair `raw` was first seen at `t1`, and the stable pair is `stable` (R123). -/
structure Window (cfg : Config) (raw : KeyPair) (t1 : U32) (stable : KeyPair) (s : State) : Prop where
  cfg : s.cfg = cfg
  lastRaw : s.km.lastRaw = raw
  lastChange : s.km.lastChange = t1
  stable : s.km.stable = stable

theorem exec_kmScan_cfg (h : exec (.kmScan now keys) s = .next t) : t.cfg = s.cfg := (exec_setting h).cfg

/-- A scan that sees another raw pair starts its window and promotes nothing (R123). -/
theorem Window.of_moved (moved : rawScan s.cfg keys ≠ s.km.lastRaw) (h : exec (.kmScan now keys) s = .next t) :
    Window s.cfg (rawScan s.cfg keys) now s.km.stable t := by
  obtain ⟨raw, restart, -⟩ := debounceWindow s t now keys h
  obtain ⟨change, stable⟩ := restart moved
  exact ⟨exec_kmScan_cfg h, raw, change, stable⟩

/-- A scan within the window that sees its raw pair keeps it and promotes nothing (R123). -/
theorem Window.of_early (hw : Window s.cfg (rawScan s.cfg keys) t1 stable s)
    (early : (now - t1).toNat < s.cfg.timing.debounce) (h : exec (.kmScan now keys) s = .next t) :
    Window s.cfg (rawScan s.cfg keys) t1 stable t := by
  obtain ⟨raw, -, keep⟩ := debounceWindow s t now keys h
  obtain ⟨change, promoted⟩ := keep hw.lastRaw.symm
  rw [hw.lastChange, if_neg (Nat.not_le_of_lt early)] at promoted
  exact ⟨exec_kmScan_cfg h, raw, change.trans hw.lastChange, promoted.trans hw.stable⟩

/-- Scans within the window keep it (R132). -/
theorem runOps_earlyScans (hw : Window cfg (rawScan cfg keys) t1 stable s)
    (early : ∀ n ∈ times, (n - t1).toNat < cfg.timing.debounce) :
    ∃ u, runOps (times.map fun n => (.main, .kmScan n keys)) s = .next u ∧ Window cfg (rawScan cfg keys) t1 stable u := by
  induction times generalizing s with
  | nil => exact ⟨s, rfl, hw⟩
  | cons n times ih =>
    obtain ⟨now, later⟩ := List.forall_mem_cons.1 early
    obtain ⟨rfl, raw, change, hstable⟩ := hw
    have ran := exec_kmScan_main (now := n) (keys := keys) (s := enterContext .main s) rfl
    rw [List.map_cons, runOps_cons_of_next ran]
    exact ih (Window.of_early (s := enterContext .main s) ⟨rfl, raw, change, hstable⟩ now ran) later

end Flicker

/-- Settles O17: the first scan starts a window, the next ones keep it, and the last one starts another. -/
theorem flickerNeverPromoted : Obligations.FlickerNeverPromoted := by
  intro s t1 tEnd times keys keys' appears goes early
  have ran := exec_kmScan_main (now := t1) (keys := keys) (s := enterContext .main s) rfl
  obtain ⟨u, run, window⟩ := runOps_earlyScans (Window.of_moved (s := enterContext .main s) appears ran) early
  have ended := exec_kmScan_main (now := tEnd) (keys := keys') (s := enterContext .main u) rfl
  have cfg : (enterContext .main u).cfg = s.cfg := window.cfg
  have moved : rawScan (enterContext .main u).cfg keys' ≠ (enterContext .main u).km.lastRaw := by
    rw [cfg]
    exact fun e => goes (e.trans window.lastRaw)
  have last := Window.of_moved moved ended
  rw [cfg] at last
  refine ⟨_, ?_, last.stable.trans window.stable, last.lastRaw, last.lastChange⟩
  rw [runOps_cons_of_next ran, runOps_append, run, chain_next, runOps_cons_of_next ended]
  rfl

end Sys2Proof.Machine

/-! ## Hold slots between press and release (41_keymatrix.md R125, R127, R129, R130)

From a scanner as every step keeps it, the events of a scan are distinct codes of the new stable pair, so there are at most
two (`KeyScanner.Ok.room`) and the cap holds none back: each slot is re-armed exactly when it is due (`slotAfter`). -/

namespace Sys2Proof.Machine

section Room
variable {cfg : Config} {now : U32} {st : KeyScanner × List Byte} {slot x : HoldSlot} {c : Byte}

/-- A slot after the repeats, when no cap holds it back (R127). -/
def slotAfter (cfg : Config) (now : U32) (slot : HoldSlot) : HoldSlot :=
  if repeatDue now slot 0 then slot.rearm cfg now else slot

theorem repeatDue_iff (hne : slot.code ≠ 0#8) : repeatDue now slot 0 = true ↔ 0 ≤ (now - slot.nextRepeatAt).toInt := by
  rw [repeatDue, decide_eq_true hne, due, Bool.true_and, decide_eq_true Nat.zero_lt_two, Bool.and_true, decide_eq_true_iff]

theorem repeatDue_of_room {n : Nat} (h : n < 2) : repeatDue now slot n = repeatDue now slot 0 := by
  simp [repeatDue, h]

/-- A repeat that still finds room is as if the slot were alone (R127). -/
theorem repeatDue_of_length {ev : List Byte} (h : (ev ++ slotRepeat now slot).length ≤ 2) :
    repeatDue now slot ev.length = repeatDue now slot 0 := by
  by_cases hn : ev.length < 2
  · exact repeatDue_of_room hn
  · cases hd : repeatDue now slot 0 with
    | false => simp [repeatDue, hn]
    | true =>
      rw [slotRepeat, if_pos hd, List.length_append, List.length_singleton] at h
      omega

theorem repeatSlot0_slot0_of_room (room : (st.2 ++ slotRepeat now st.1.slot0).length ≤ 2) :
    (repeatSlot0 cfg now st).1.slot0 = slotAfter cfg now st.1.slot0 ∧
      (repeatSlot0 cfg now st).2 = st.2 ++ slotRepeat now st.1.slot0 := by
  unfold repeatSlot0
  rw [repeatDue_of_length room]
  unfold slotAfter slotRepeat
  split_ifs
  · exact ⟨rfl, rfl⟩
  · exact ⟨rfl, (List.append_nil _).symm⟩

theorem repeatSlot1_slot1_of_room (room : (st.2 ++ slotRepeat now st.1.slot1).length ≤ 2) :
    (repeatSlot1 cfg now st).1.slot1 = slotAfter cfg now st.1.slot1 := by
  unfold repeatSlot1
  rw [repeatDue_of_length room]
  unfold slotAfter
  split_ifs <;> rfl

/-- With room for all events each slot repeats as if it were alone (R127). -/
theorem repeats_of_room (room : (st.2 ++ (slotRepeat now st.1.slot0 ++ slotRepeat now st.1.slot1)).length ≤ 2) :
    (repeatSlot1 cfg now (repeatSlot0 cfg now st)).1.slot0 = slotAfter cfg now st.1.slot0 ∧
      (repeatSlot1 cfg now (repeatSlot0 cfg now st)).1.slot1 = slotAfter cfg now st.1.slot1 := by
  rw [← List.append_assoc] at room
  have room0 : (st.2 ++ slotRepeat now st.1.slot0).length ≤ 2 := by
    rw [List.length_append] at room
    omega
  obtain ⟨e0, eev⟩ := repeatSlot0_slot0_of_room (cfg := cfg) room0
  have e1 := repeatSlot1_slot1_of_room (cfg := cfg) (st := repeatSlot0 cfg now st) (by rwa [eev, repeatSlot0_slot1])
  rw [repeatSlot0_slot1] at e1
  exact ⟨by rw [repeatSlot1_slot0, e0], e1⟩

/-- A slot taken at `now` is not due yet (R125). -/
theorem repeatDue_newSlot (pos : 0 < cfg.timing.repeatDelay) (small : cfg.timing.repeatDelay < 2 ^ 31) :
    repeatDue now (newSlot cfg now c) 0 = false := by
  have neg : (now - (now + BitVec.ofNat 32 cfg.timing.repeatDelay)).toInt < 0 := by
    generalize cfg.timing.repeatDelay = d at *
    rw [BitVec.toInt_neg_iff]
    bv_omega
  have early : due now (newSlot cfg now c).nextRepeatAt = false := decide_eq_false (by simpa [newSlot, after] using neg)
  simp [repeatDue, early]

theorem slotAfter_newSlot (pos : 0 < cfg.timing.repeatDelay) (small : cfg.timing.repeatDelay < 2 ^ 31) :
    slotAfter cfg now (newSlot cfg now c) = newSlot cfg now c := by
  simp [slotAfter, repeatDue_newSlot pos small]

/-- Only a slot whose code stays held repeats (R125 to R127). -/
theorem SlotStage.of_mem_slotRepeat {old new : KeyPair} (h : SlotStage cfg now old new slot x)
    (pos : 0 < cfg.timing.repeatDelay) (small : cfg.timing.repeatDelay < 2 ^ 31) (hc : c ∈ slotRepeat now x) :
    c = slot.code ∧ new.has c = true := by
  unfold slotRepeat at hc
  split_ifs at hc with hdue
  · obtain rfl := List.mem_singleton.1 hc
    cases h with
    | held stays => exact ⟨rfl, stays⟩
    | free _ empty => exact absurd empty (repeatDue_code hdue)
    | taken => rw [repeatDue_newSlot pos small] at hdue; cases hdue
  · cases hc

/-- A slot whose code stays held stands as it was when the repeats begin. -/
theorem SlotStage.eq_of_held {old new : KeyPair} (h : SlotStage cfg now old new slot x) (stays : new.has slot.code = true) :
    x = slot := by
  cases h with
  | held => rfl
  | free gone => exact absurd (gone.symm.trans stays) (by decide)
  | taken gone => exact absurd (gone.symm.trans stays) (by decide)

theorem slotRepeat_nodup : (slotRepeat now slot).Nodup := by
  unfold slotRepeat
  split_ifs
  · exact List.nodup_singleton _
  · exact List.nodup_nil

end Room

/-! ### The codes of a pair -/

section Pairs
variable {cfg : Config} {p : KeyPair} {a b c : Byte} {ev : List Byte}

/-- Distinct codes of a pair are at most two. -/
theorem KeyPair.length_le_two (nodup : ev.Nodup) (held : ∀ c ∈ ev, p.has c = true) : ev.length ≤ 2 := by
  have inPair : ev ⊆ [p.first, p.second] := fun c hc => by
    have := held c hc
    simp only [KeyPair.has, decide_eq_true_eq] at this
    simpa using this.2
  exact (nodup.subperm inPair).length_le

/-- The codes of a pair in its order, however filtered, differ. -/
theorem KeyPair.Ok.nodup_filter (h : p.Ok cfg) (f : Byte → Bool) :
    ([p.first, p.second].filter fun c => p.has c && f c).Nodup := by
  by_cases he : p.first = p.second
  · have none : ([p.first, p.second].filter fun c => p.has c && f c) = [] := by
      simp [KeyPair.has, ← he, h.distinct he]
    rw [none]
    exact List.nodup_nil
  · exact List.Nodup.filter _ (by simpa using he)

/-- Of at most two events each is returned (R128). -/
theorem eventPair_of_mem_short (short : ev.length ≤ 2) (hc : c ∈ ev) :
    (eventPair ev).first = c ∨ (eventPair ev).second = c := by
  match ev, hc, short with
  | [a], hc, _ => exact .inl (by simpa [eventPair, eq_comm] using hc)
  | [a, b], hc, _ => simpa [eventPair, eq_comm] using hc

end Pairs

/-! ### A pressed code finds a free slot -/

section Take
variable {cfg : Config} {now : U32} {old new : KeyPair} {P : Byte → Prop} {c : Byte} {st : KeyScanner × List Byte}
  {km : KeyScanner}

/-- One of the slots was taken for `c` at `now`. -/
def Tracks (cfg : Config) (now : U32) (c : Byte) (km : KeyScanner) : Prop :=
  km.slot0 = newSlot cfg now c ∨ km.slot1 = newSlot cfg now c

/-- Two occupied slots carry both codes of the pair, so a third code finds one free (R125). -/
theorem SlotsOk.slot_free (h : SlotsOk cfg new P km) (hc : new.has c = true) (fresh : ¬ P c) :
    km.slot0.code = 0#8 ∨ km.slot1.code = 0#8 := by
  by_contra! full
  obtain ⟨full0, full1⟩ := full
  have nodup : [km.slot0.code, km.slot1.code, c].Nodup := by
    have differ : km.slot0.code ≠ km.slot1.code := fun he => full0 (h.differ he)
    have new0 : km.slot0.code ≠ c := fun he => fresh (he ▸ h.known0 full0)
    have new1 : km.slot1.code ≠ c := fun he => fresh (he ▸ h.known1 full1)
    simp [differ, new0, new1]
  have three : [km.slot0.code, km.slot1.code, c].length ≤ 2 :=
    KeyPair.length_le_two (p := new) nodup (by simp [(h.slot0.held full0).1, (h.slot1.held full1).1, hc])
  exact absurd three (by simp)

theorem pressEdge_tracks (h : SlotsOk cfg new P st.1) (hc : new.has c = true) (fresh : ¬ P c)
    (notInOld : old.has c = false) (repeats : cfg.repeatEn c = true) :
    Tracks cfg now c (pressEdge cfg now old c st).1 := by
  unfold pressEdge
  rw [if_pos ⟨KeyPair.has_ne_zero hc, by simp [notInOld]⟩, if_pos repeats]
  unfold takeSlot
  split_ifs with free0 free1
  · exact .inl rfl
  · exact .inr rfl
  · exact ((h.slot_free hc fresh).elim free0 free1).elim

/-- A later press takes no slot away (R125). -/
theorem Tracks.after_pressEdge (h : Tracks cfg now c st.1) (hc : c ≠ 0#8) (d : Byte) :
    Tracks cfg now c (pressEdge cfg now old d st).1 := by
  obtain ⟨kept0, kept1⟩ := pressEdge_slots cfg now old d st
  obtain e | e := h
  · exact .inl ((kept0.resolve_right fun taken => hc (by simpa [e, newSlot] using taken.1)).trans e)
  · exact .inr ((kept1.resolve_right fun taken => hc (by simpa [e, newSlot] using taken.1)).trans e)

end Take

/-! ### The scan -/

section Scan
variable {cfg : Config} {now : U32} {raw : KeyPair} {km : KeyScanner} {c : Byte}

theorem debounce_stable_ok (hraw : raw.Ok cfg) (h : km.Ok cfg) : (debounce cfg now raw km).stable.Ok cfg := by
  obtain ⟨-, -, stable⟩ := scanKeys_pairs cfg now raw km
  exact stable ▸ (scanKeys_ok hraw h).stable

theorem freeSlots_debounce_ok (h : km.Ok cfg) :
    SlotsOk cfg (debounce cfg now raw km).stable (fun c => km.stable.has c = true) (freeSlots (debounce cfg now raw km)) :=
  freeSlots_ok (by simpa using h.slot0) (by simpa using h.slot1) (by simpa using h.slotsDiffer)

/-- A newly pressed repeat-enabled code has a slot when the repeats begin (R125). -/
theorem afterPresses_tracks (hraw : raw.Ok cfg) (h : km.Ok cfg) (hc : (debounce cfg now raw km).stable.has c = true)
    (notInOld : km.stable.has c = false) (repeats : cfg.repeatEn c = true) :
    Tracks cfg now c (afterPresses cfg now raw km).1 := by
  have freed := freeSlots_debounce_ok (now := now) (raw := raw) h
  have newOk := debounce_stable_ok (now := now) hraw h
  have hne := KeyPair.has_ne_zero hc
  have lacks : ¬ km.stable.has c = true := by simp [notInOld]
  by_cases isFirst : c = (debounce cfg now raw km).stable.first
  · subst isFirst
    exact (pressEdge_tracks (st := (freeSlots (debounce cfg now raw km), [])) freed hc lacks notInOld repeats).after_pressEdge hne _
  · have isSecond : c = (debounce cfg now raw km).stable.second := by
      simp only [KeyPair.has, decide_eq_true_eq] at hc
      exact hc.2.resolve_left isFirst
    have pressed := pressEdge_ok (now := now) (old := km.stable) (c := (debounce cfg now raw km).stable.first)
      (st := (freeSlots (debounce cfg now raw km), [])) freed (fun hne => by simp [KeyPair.has, hne])
      (fun _ hno => by simp [hno])
    subst isSecond
    exact pressEdge_tracks pressed hc (not_or_intro lacks isFirst) notInOld repeats

/-- The events of a scan are distinct codes of the new stable pair, so they fit into two (R127, R128). -/
theorem KeyScanner.Ok.room (h : km.Ok cfg) (hraw : raw.Ok cfg) (pos : 0 < cfg.timing.repeatDelay)
    (small : cfg.timing.repeatDelay < 2 ^ 31) :
    ((afterPresses cfg now raw km).2 ++ (slotRepeat now (afterPresses cfg now raw km).1.slot0 ++
      slotRepeat now (afterPresses cfg now raw km).1.slot1)).length ≤ 2 := by
  obtain ⟨stage0, stage1⟩ := afterPresses_stages cfg now raw km
  have old_held {slot : HoldSlot} (ok : slot.Ok cfg km.stable) (hne : slot.code ≠ 0#8) : km.stable.has slot.code = true :=
    (ok.held hne).1
  have repeated0 {c : Byte} (hc : c ∈ slotRepeat now (afterPresses cfg now raw km).1.slot0) :=
    stage0.of_mem_slotRepeat pos small hc
  have repeated1 {c : Byte} (hc : c ∈ slotRepeat now (afterPresses cfg now raw km).1.slot1) :=
    stage1.of_mem_slotRepeat pos small hc
  rw [afterPresses_events]
  apply KeyPair.length_le_two (p := (debounce cfg now raw km).stable)
  · refine List.nodup_append'.2 ⟨(debounce_stable_ok hraw h).nodup_filter _, ?_, fun c hp hr => ?_⟩
    · refine List.nodup_append'.2 ⟨slotRepeat_nodup, slotRepeat_nodup, fun c h0 h1 => ?_⟩
      obtain ⟨e0, inNew⟩ := repeated0 h0
      obtain ⟨e1, -⟩ := repeated1 h1
      exact KeyPair.has_ne_zero inNew (e0.trans (h.slotsDiffer (e0.symm.trans e1)))
    · have lacks : km.stable.has c = false := by
        simp only [List.mem_filter, Bool.and_eq_true, Bool.not_eq_true'] at hp
        exact hp.2.2
      have holds : km.stable.has c = true := by
        obtain hr | hr := List.mem_append.1 hr
        · obtain ⟨rfl, inNew⟩ := repeated0 hr
          exact old_held h.slot0 (KeyPair.has_ne_zero inNew)
        · obtain ⟨rfl, inNew⟩ := repeated1 hr
          exact old_held h.slot1 (KeyPair.has_ne_zero inNew)
      exact absurd (lacks.symm.trans holds) (by decide)
  · intro c hc
    simp only [List.mem_append, List.mem_filter, Bool.and_eq_true] at hc
    obtain ⟨-, held, -⟩ | hr | hr := hc
    · exact held
    · exact (repeated0 hr).2
    · exact (repeated1 hr).2

end Scan

section Exec
variable {s t : State} {now : U32} {keys : BitVec 16} {c : Byte}

/-- The events that `exec_kmScan_ret` reads off the two states are those the scan counts (R128). -/
theorem eventsInOrder_eq (h : exec (.kmScan now keys) s = .next t) :
    eventsInOrder s t now = (afterPresses s.cfg now (rawScan s.cfg keys) s.km).2 ++
      (slotRepeat now (afterPresses s.cfg now (rawScan s.cfg keys) s.km).1.slot0 ++
        slotRepeat now (afterPresses s.cfg now (rawScan s.cfg keys) s.km).1.slot1) := by
  obtain ⟨stage0, stage1⟩ := afterPresses_stages s.cfg now (rawScan s.cfg keys) s.km
  have code0 := (repeats_slot0 s.cfg now (afterPresses s.cfg now (rawScan s.cfg keys) s.km)).code
  have code1 := (repeats_slot1 s.cfg now (afterPresses s.cfg now (rawScan s.cfg keys) s.km)).code
  rw [← scanKeys_eq, ← (exec_kmScan h).1] at code0 code1
  rw [← exec_kmScan_stable h] at stage0 stage1
  rw [stage0.slotRepeat_eq code0, stage1.slotRepeat_eq code1, afterPresses_events, ← exec_kmScan_stable h]
  rfl

/-- A scan with no new code in which no held slot is due has no events (R129). -/
theorem eventsInOrder_eq_nil (h : exec (.kmScan now keys) s = .next t) (noPress : ∀ c, ¬ newlyPressed s t c)
    (noneDue : ∀ slot ∈ [s.km.slot0, s.km.slot1], slot.code ≠ 0#8 → (now - slot.nextRepeatAt).toInt < 0) :
    eventsInOrder s t now = [] := by
  obtain ⟨scanned0, scanned1⟩ := exec_kmScan_slots h
  have silent {old new : HoldSlot} (hs : SlotScanned s t now old new) (hmem : old ∈ [s.km.slot0, s.km.slot1]) :
      repeatEvent s t now old new = [] := by
    refine List.eq_nil_iff_forall_not_mem.2 fun c hc => ?_
    obtain pressed | ⟨rfl, held, late⟩ := hs.of_mem_repeatEvent hc
    · exact noPress c pressed
    · exact absurd late (not_le.2 (noneDue old hmem (KeyPair.has_ne_zero held)))
  have unpressed : pressEvents s t = [] :=
    List.eq_nil_iff_forall_not_mem.2 fun c hc => noPress c (mem_pressEvents.1 hc)
  rw [eventsInOrder, unpressed, silent scanned0 (by simp), silent scanned1 (by simp)]
  rfl

/-- A code that a slot held before the scan is emitted only when that slot is due (R124, R127). -/
theorem exec_kmScan_repeated (h : exec (.kmScan now keys) s = .next t) (hkm : s.km.Ok s.cfg) {p : HoldSlot × HoldSlot}
    (hp : p ∈ [(s.km.slot0, t.km.slot0), (s.km.slot1, t.km.slot1)]) (hne : p.1.code ≠ 0#8) (hc : emitted t p.1.code) :
    0 ≤ (now - p.1.nextRepeatAt).toInt := by
  have inOld : s.km.stable.has p.1.code = true := by
    obtain rfl | rfl := List.mem_pair.1 hp
    · exact (hkm.slot0.held hne).1
    · exact (hkm.slot1.held hne).1
  obtain ⟨-, notInOld⟩ | ⟨slot, hslot, same, -, late⟩ := emitted_cases h hne hc
  · exact absurd (notInOld.symm.trans inOld) (by decide)
  · have itself : slot = p.1 := by
      obtain rfl | rfl := List.mem_pair.1 hslot <;> obtain rfl | rfl := List.mem_pair.1 hp
      · rfl
      · exact absurd (same ▸ hkm.slotsDiffer same) hne
      · exact absurd (hkm.slotsDiffer same.symm) hne
      · rfl
    exact itself ▸ late

variable (h : exec (.kmScan now keys) s = .next t) (hkm : s.km.Ok s.cfg) (hkeys : s.cfg.keysOk = true)
  (pos : 0 < s.cfg.timing.repeatDelay) (small : s.cfg.timing.repeatDelay < 2 ^ 31)
include h hkm hkeys pos small

/-- A scan has at most two events (R128). -/
theorem eventsInOrder_length_le : (eventsInOrder s t now).length ≤ 2 := by
  rw [eventsInOrder_eq h]
  exact hkm.room (rawScan_ok hkeys keys) pos small

/-- Every event of a scan is returned: the cap of two holds none back (R127, R128). -/
theorem emitted_of_mem (hc : c ∈ eventsInOrder s t now) : emitted t c :=
  (exec_kmScan_emitted h).2 (eventPair_of_mem_short (eventsInOrder_length_le h hkm hkeys pos small) hc)

theorem exec_kmScan_slotAfter :
    t.km.slot0 = slotAfter s.cfg now (afterPresses s.cfg now (rawScan s.cfg keys) s.km).1.slot0 ∧
      t.km.slot1 = slotAfter s.cfg now (afterPresses s.cfg now (rawScan s.cfg keys) s.km).1.slot1 := by
  rw [(exec_kmScan h).1, scanKeys_eq]
  exact repeats_of_room (hkm.room (rawScan_ok hkeys keys) pos small)

/-- A slot whose code stays held is re-armed exactly when it is due (R127). -/
theorem exec_kmScan_held {p : HoldSlot × HoldSlot} (hp : p ∈ [(s.km.slot0, t.km.slot0), (s.km.slot1, t.km.slot1)])
    (held : t.km.stable.has p.1.code = true) : p.2 = slotAfter s.cfg now p.1 := by
  obtain ⟨stage0, stage1⟩ := afterPresses_stages s.cfg now (rawScan s.cfg keys) s.km
  rw [← exec_kmScan_stable h] at stage0 stage1
  obtain ⟨e0, e1⟩ := exec_kmScan_slotAfter h hkm hkeys pos small
  obtain rfl | rfl := List.mem_pair.1 hp
  · exact e0.trans (by rw [stage0.eq_of_held held])
  · exact e1.trans (by rw [stage1.eq_of_held held])

end Exec

end Sys2Proof.Machine

namespace Sys2Proof
open Machine

/-- Settles O19: without a press and a due slot there are no events, and a held code that does not repeat is neither. -/
theorem heldKeysAreSilent : Obligations.HeldKeysAreSilent := by
  intro s t now keys hkm h
  refine ⟨fun noPress noneDue => ?_, fun c inOld noRepeat hc => ?_⟩
  · rw [exec_kmScan_ret h, eventsInOrder_eq_nil h noPress noneDue]
    rfl
  · have hne := KeyPair.has_ne_zero inOld
    have repeats_of_held {slot : HoldSlot} (ok : slot.Ok s.cfg s.km.stable) (he : slot.code = c) : s.cfg.repeatEn c = true :=
      he ▸ (ok.held (he ▸ hne)).2
    have repeats : s.cfg.repeatEn c = true := by
      obtain ⟨-, notInOld⟩ | ⟨slot, hslot, he, -, -⟩ := emitted_cases h hne hc
      · exact absurd (notInOld.symm.trans inOld) (by decide)
      · obtain rfl | rfl := List.mem_pair.1 hslot
        · exact repeats_of_held hkm.slot0 he
        · exact repeats_of_held hkm.slot1 he
    exact absurd (noRepeat.symm.trans repeats) (by decide)

/-- Settles O21: the pair has two codes, so a third slot is never wanted, and a slot just taken is not re-armed. -/
theorem slotCreation : Obligations.SlotCreation := by
  intro s t now keys c hkm hkeys pos small h pressed repeats
  obtain ⟨inNew, notInOld⟩ := pressed
  rw [exec_kmScan_stable h] at inNew
  obtain ⟨e0, e1⟩ := exec_kmScan_slotAfter h hkm hkeys pos small
  refine ⟨newSlot s.cfg now c, List.mem_pair.2 ?_, rfl⟩
  obtain e | e := afterPresses_tracks (rawScan_ok hkeys keys) hkm inNew notInOld repeats
  · exact .inl (by rw [e0, e, slotAfter_newSlot pos small])
  · exact .inr (by rw [e1, e, slotAfter_newSlot pos small])

/-- Settles O22: a held slot's REPEAT always fits into the two events. -/
theorem repeatEvents : Obligations.RepeatEvents := by
  intro s t now keys hkm hkeys pos small h p hp hne held
  have after_scan := exec_kmScan_held h hkm hkeys pos small hp held
  refine ⟨fun late => ⟨emitted_of_mem h hkm hkeys pos small ?_, ?_⟩, fun early => ⟨fun hc => ?_, ?_⟩⟩
  · have event : repeatEvent s t now p.1 p.2 = [p.1.code] := by rw [repeatEvent, if_pos held, if_pos late]
    obtain rfl | rfl := List.mem_pair.1 hp <;> simp [eventsInOrder, event]
  · rw [after_scan, slotAfter, if_pos ((repeatDue_iff hne).2 late)]
    rfl
  · exact absurd (exec_kmScan_repeated h hkm hp hne hc) (not_le.2 early)
  · rw [after_scan, slotAfter, if_neg fun hdue => absurd ((repeatDue_iff hne).1 hdue) (not_le.2 early)]

end Sys2Proof
